-- ==== Sys2Proof/Word.lean ====
section
/-! DEFINITION. The word types of the block: 32-bit registers and symbols, the 128-bit value, and a
256-entry file of words (00_scope.md R7, R8; 10_state.md R40). -/

namespace Sys2Proof

/-- A 32-bit register, limb, symbol or command word (BUS_W = LIMB_W = SYM_W = 32, R8). -/
abbrev Word := BitVec 32

/-- The native wide word (WIDE_W = 64, R8). -/
abbrev Wide := BitVec 64

/-- A Value128: a 128-bit unsigned integer (VAL_W = 128, R7, R15). -/
abbrev Value := BitVec 128

/-- A byte offset in the 4 KiB register window (ADDR_W = 12, R8, R70). -/
abbrev Offset := BitVec 12

/-- A file of 256 words: ASTAGE, ALPHA or STRBUF (ALPHA_MAX = STR_MAX = 256, R8). -/
abbrev Table := Vector Word 256

/-- The entries `new` written over the first entries of `old`; the rest of `old` stays. -/
def overlay : List Word → List Word → List Word
  | [], old => old
  | _ :: _, [] => []
  | w :: new, _ :: old => w :: overlay new old

theorem overlay_length (new old : List Word) : (overlay new old).length = old.length := by
  induction new generalizing old with
  | nil => rfl
  | cons w new ih => cases old <;> simp [overlay, ih]

/-- Entries 0, 1, … of a file replaced by the words of a list (what lies beyond entry 255 is dropped). -/
def Table.write (t : Table) (new : List Word) : Table :=
  ⟨⟨overlay new t.toList⟩, by simp [overlay_length]⟩

/-- A file of zeros. -/
def Table.zero : Table := Vector.replicate 256 0#32

end Sys2Proof
end

