-- ==== Sys2Proof/Syntax.lean ====
section
/-! DEFINITION. The commands of SUC-1, one constructor per row of spec/opcode_table.json
(30_encoding.md R105). -/

namespace Sys2Proof

/-- A command. It names no operand: operands are named registers (R109). -/
inductive Instr where
  /-- OPCODE 0x01: RES <- (VAL * OPM + OPA) mod 2^128 (R150). -/
  | muladd
  /-- OPCODE 0x02: RES, REM, FITS64 <- divmod32 of VAL by OPM from remainder RIN (R156). -/
  | divmod
  /-- OPCODE 0x03: RES, REM <- VAL[63:0] divided by OPM (R162). -/
  | div64
  /-- OPCODE 0x04: STRBUF, STRLEN, NDIG <- encode(VAL); `usePad` is bit 9 (R180, R104). -/
  | encode (usePad : Bool)
  /-- OPCODE 0x05: RES <- decode(STRBUF[0..STRLEN-1]); `strict` is bit 8 (R210, R103). -/
  | decode (strict : Bool)
  /-- OPCODE 0x06: ALPHA, NBASE, DEFPAD <- build(ASTAGE[0..ASTAGE_CNT-1]) (R130). -/
  | abuild
  /-- OPCODE 0x07: VAL <- RES (R230). -/
  | movrv
  deriving DecidableEq, Repr

end Sys2Proof
end

