-- ==== Sys2Proof/WellFormed.lean ====
section
/-! DEFINITION. The fields of format C32 (30_encoding.md R101) and which field values make a legal
command word (R107). -/

namespace Sys2Proof

/-- The four fields of a command word (R101). -/
structure CmdFields where
  /-- bits 7:0 -/
  opcode : BitVec 8
  /-- bit 8 -/
  strict : Bool
  /-- bit 9 -/
  usePad : Bool
  /-- bits 31:10 -/
  rsvd : BitVec 22
  deriving DecidableEq, Repr

namespace CmdFields

/-- OPCODE names an operation: 0x01 to 0x07 (R105, R106). -/
def opcodeNamed (f : CmdFields) : Bool := 1#8 ≤ f.opcode && f.opcode ≤ 7#8

/-- RSVD = 0 (R107). -/
def rsvdZero (f : CmdFields) : Bool := f.rsvd == 0#22

/-- STRICT = 1 only with DECODE (R103, R107). -/
def strictOnlyDecode (f : CmdFields) : Bool := !f.strict || f.opcode == 5#8

/-- USE_PAD = 1 only with ENCODE (R104, R107). -/
def usePadOnlyEncode (f : CmdFields) : Bool := !f.usePad || f.opcode == 4#8

/-- `legal(w)` of R107, over the fields. -/
def legal (f : CmdFields) : Bool :=
  f.rsvdZero && f.opcodeNamed && f.strictOnlyDecode && f.usePadOnlyEncode

end CmdFields

namespace Instr

/-- OPCODE of a command (R105). -/
def opcode : Instr → BitVec 8
  | .muladd => 0x01#8
  | .divmod => 0x02#8
  | .div64 => 0x03#8
  | .encode _ => 0x04#8
  | .decode _ => 0x05#8
  | .abuild => 0x06#8
  | .movrv => 0x07#8

/-- The fields of a command's word (R101 to R105). -/
def fields (i : Instr) : CmdFields where
  opcode := i.opcode
  strict := match i with
    | .decode strict => strict
    | .muladd | .divmod | .div64 | .encode _ | .abuild | .movrv => false
  usePad := match i with
    | .encode usePad => usePad
    | .muladd | .divmod | .div64 | .decode _ | .abuild | .movrv => false
  rsvd := 0#22

/-- A command is well formed when its fields make a legal word. -/
def wellFormed (i : Instr) : Bool := i.fields.legal

end Instr

end Sys2Proof
end

