-- ==== Sys2Proof/Decode.lean ====
section
/-! DEFINITION. The decoder of command words, total on any 32-bit word and rejecting by name
(30_encoding.md R100 to R108), the encoder, and the host's view of the decoder. -/

namespace Sys2Proof

/-- Why a word is no command. Each of them completes with ILLEGAL_OPCODE (R106, R107); the name is the
model's own (log 19). -/
inductive DecodeError where
  /-- OPCODE 0x00 or 0x08 to 0xFF (R106). -/
  | reservedOpcode
  /-- RSVD ≠ 0 (R107). -/
  | reservedBitsSet
  /-- STRICT = 1 on an opcode other than DECODE (R107). -/
  | strictNotDecode
  /-- USE_PAD = 1 on an opcode other than ENCODE (R107). -/
  | usePadNotEncode
  deriving DecidableEq, Repr

/-- The fields of a word (R101, R102, R103, R104). -/
def fieldsOf (w : Word) : CmdFields where
  opcode := w.extractLsb' 0 8
  strict := w.getLsbD 8
  usePad := w.getLsbD 9
  rsvd := w.extractLsb' 10 22

/-- The operation an opcode names (R105); `none` for a reserved one (R106). -/
def opcodeInstr (f : CmdFields) : Option Instr :=
  match f.opcode.toNat with
  | 0x01 => some .muladd
  | 0x02 => some .divmod
  | 0x03 => some .div64
  | 0x04 => some (.encode f.usePad)
  | 0x05 => some (.decode f.strict)
  | 0x06 => some .abuild
  | 0x07 => some .movrv
  | _ => none

/-- The command a word names, or why it names none (R105 to R108). -/
def decode (w : Word) : Except DecodeError Instr :=
  let f := fieldsOf w
  match opcodeInstr f with
  | none => .error .reservedOpcode
  | some i =>
    if !f.rsvdZero then .error .reservedBitsSet
    else if !f.strictOnlyDecode then .error .strictNotDecode
    else if !f.usePadOnlyEncode then .error .usePadNotEncode
    else .ok i

/-- The word with given fields (R101). -/
def wordOf (f : CmdFields) : Word :=
  f.rsvd ++ BitVec.ofBool f.usePad ++ BitVec.ofBool f.strict ++ f.opcode

/-- The command word of a command (R105). -/
def encode (i : Instr) : Word := wordOf i.fields

/-- The host's view of the decoder: `w` holds the `nbits` bits of an instruction, every bit above
them 0. A command is always one whole 32-bit word, so there is no byte order (R100, R76). -/
def decodeTableWord (nbits w : Nat) : Option Instr :=
  if w % 2 ^ nbits < 2 ^ 32 then
    match decode (BitVec.ofNat 32 (w % 2 ^ nbits)) with
    | .ok i => some i
    | .error _ => none
  else none

end Sys2Proof
end

