-- ==== Sys2Proof/Config.lean ====
section
/-! DEFINITION. The block's parameters (00_scope.md R8, 10_state.md R39), the default alphabet
(40_alphabet.md R140), and the values the spec leaves open, as opaque constants. -/

namespace Sys2Proof.Config

/-- Entries of the alphabet table (R8). -/
def alphaMax : Nat := 256

/-- Entries of the string buffer (R8). -/
def strMax : Nat := 256

/-- ID, the ASCII bytes "SUC1" (R39). -/
def idWord : Word := 0x53554331#32

/-- PARAM: STR_MAX in bits 31:16 and ALPHA_MAX in bits 15:0 (R39). -/
def paramWord : Word := BitVec.ofNat 16 strMax ++ BitVec.ofNat 16 alphaMax

/-- The default alphabet in index order (R140). -/
def defaultAlphabet : List Word :=
  -- 2 to 9
  [0x32#32, 0x33#32, 0x34#32, 0x35#32, 0x36#32, 0x37#32, 0x38#32, 0x39#32] ++
  -- A to Z without I and O
  [0x41#32, 0x42#32, 0x43#32, 0x44#32, 0x45#32, 0x46#32, 0x47#32, 0x48#32, 0x4A#32, 0x4B#32,
   0x4C#32, 0x4D#32, 0x4E#32] ++
  [0x50#32, 0x51#32, 0x52#32, 0x53#32, 0x54#32, 0x55#32, 0x56#32, 0x57#32, 0x58#32, 0x59#32,
   0x5A#32] ++
  -- a to z without l
  [0x61#32, 0x62#32, 0x63#32, 0x64#32, 0x65#32, 0x66#32, 0x67#32, 0x68#32, 0x69#32, 0x6A#32,
   0x6B#32, 0x6D#32, 0x6E#32, 0x6F#32] ++
  [0x70#32, 0x71#32, 0x72#32, 0x73#32, 0x74#32, 0x75#32, 0x76#32, 0x77#32, 0x78#32, 0x79#32,
   0x7A#32]

/-- NBASE after reset (R51). -/
def resetNbase : Word := 57#32

/-- DEFPAD after reset (R51). -/
def resetDefpad : Word := 11#32

/-- OPEN (R71, 93 U6): BASE_ADDR divided by 4096; the window is 4096-aligned. Log 13. -/
opaque basePage : Nat

/-- FREE VALUE (R248, 93 U1): what a host read of an unspecified location returns while BUSY.
Arguments: the number of the draw, the offset read, the block's words. Log 5. -/
opaque freeRead : Nat → Nat → List Word → Word

/-- FREE VALUE (R248, 93 U2): STATUS.FITS64 as a host read sees it while BUSY. Log 5. -/
opaque freeFits64 : Nat → List Word → Bool

/-- OPEN (R141, 93 U5): the steps of AB_SORT beyond the first. Log 12. -/
opaque sortExtraSteps : List Word → Nat

/-- OPEN (R141, 93 U5): the steps of AB_PAD beyond the first. Log 12. -/
opaque padExtraSteps : List Word → Nat

/-- OPEN (R165, 93 U5): the steps of D64_DIV beyond the first. Log 12. -/
opaque div64ExtraSteps : List Word → Nat

end Sys2Proof.Config
end

