-- ==== Sys2Proof/Machine/State.lean ====
section
/-! DEFINITION. The state of the block: its registers and files (10_state.md R22), the core engine's
hidden state (R49), the rst pin (R280), and the environment's pending steps; the reset state (R51);
why a step can stop. -/

namespace Sys2Proof.Machine

/-- The error of a completed command (60_exceptions.md R241). Codes 0x07 to 0xFF are never held
(93 U9), so they have no constructor. -/
inductive ErrCode where
  /-- 0x00, no error -/
  | noError
  /-- 0x01, reserved OPCODE, RSVD ≠ 0, or a mode bit on the wrong opcode -/
  | illegalOpcode
  /-- 0x02, DIVMOD or DIV64 with OPM = 0 -/
  | divByZero
  /-- 0x03, DIVMOD with RIN ≥ OPM -/
  | remRange
  /-- 0x04, ABUILD with fewer than 2 distinct symbols -/
  | invalidAlphabet
  /-- 0x05, strict DECODE of a symbol not in the alphabet -/
  | invalidCharacter
  /-- 0x06, PADLEN, STRLEN or ASTAGE_CNT above 256 -/
  | lengthRange
  deriving DecidableEq, Repr

/-- A mapped location of the register window (20_memory.md R79). -/
inductive Loc where
  | id | param | ctrl | cmd | status | errIdx | nbase | defpad
  | val (k : Fin 4)
  | res (k : Fin 4)
  | opm | opa | rin | rem | padlen | strlen | ndig | astageCnt
  | astage (i : Fin 256)
  | alpha (i : Fin 256)
  | strbuf (i : Fin 256)
  deriving DecidableEq, Repr

/-- One host access at the block's port: MemRead(off, n) or MemWrite(off, n, v) (00_scope.md R12), with
the byte strobes of the port (92 D2). Log 6. -/
inductive Access where
  | read (off : Offset) (bytes : Nat)
  | write (off : Offset) (bytes : Nat) (strobes : BitVec 4) (data : Word)
  deriving DecidableEq, Repr

/-- What the bus answers to an access (R12, 92 D2). -/
inductive BusResponse where
  /-- read data -/
  | data (v : Word)
  /-- a write that ended without a bus error -/
  | written
  /-- BusError(off) (20_memory.md R72, R73) -/
  | busError (off : Offset)
  deriving DecidableEq, Repr

/-- One step of an agent or an edge of the rst pin (00_scope.md R17, 70_reset_and_hazards.md R280). Log 1. -/
inductive Event where
  /-- a step of the host: one bus access -/
  | access (a : Access)
  /-- a step of the core engine that does not complete the command -/
  | work
  /-- the completion of the running command -/
  | complete
  /-- the rst pin goes to a level -/
  | rst (level : Bool)
  deriving DecidableEq, Repr

/-- The FSM states of the reference engine (R49; 41 R165, 42 R191, 43 R219, 40 R141; R245). `left` is how
many more steps an open-length state takes (log 12). -/
inductive Fsm where
  | idle
  | illegal
  | maLimb
  | dmCheck
  | dmLimb
  | d64Check
  | d64Div (left : Nat)
  | enInit
  | enD128
  | enD64
  | enPad
  | enOut
  | deInit
  | deLook
  | deMul
  | abCheck
  | abSort (left : Nat)
  | abCount
  | abPad (left : Nat)
  /-- the completion of a legal command: commit (noError) or report the error -/
  | completion (e : ErrCode)
  deriving DecidableEq, Repr

/-- The core engine's hidden state (R49). Log 11. -/
structure Engine where
  fsm    : Fsm
  /-- limb index k -/
  k      : Fin 4
  /-- running remainder r -/
  r      : Word
  /-- running carry -/
  carry  : Word
  /-- the encoder's working value W -/
  w      : Value
  /-- quotient Q -/
  q      : Value
  /-- MULADD's out_0 ++ out_1 ++ out_2 ++ out_3 -/
  out    : Value
  /-- the native quotient -/
  q64    : Wide
  /-- the decoder's accumulator -/
  acc    : Value
  /-- the digit buffer DIG -/
  dig    : Table
  /-- its count -/
  cnt    : Nat
  /-- the effective pad length -/
  p      : Nat
  /-- the output or string index -/
  j      : Nat
  /-- the digit count latched on entry to EN_PAD -/
  ndig   : Nat
  /-- the output length L -/
  len    : Nat
  /-- the digit DE_LOOK found -/
  d      : Word
  /-- the mapped symbols s_j -/
  syms   : Table
  /-- ABUILD's deduplicated sorted set -/
  sorted : List Word
  deriving DecidableEq, Repr

/-- IDLE with every variable 0 (R49, R51). -/
def Engine.reset : Engine where
  fsm := .idle
  k := 0
  r := 0#32
  carry := 0#32
  w := 0#128
  q := 0#128
  out := 0#128
  q64 := 0#64
  acc := 0#128
  dig := Table.zero
  cnt := 0
  p := 0
  j := 0
  ndig := 0
  len := 0
  d := 0#32
  syms := Table.zero
  sorted := []

/-- The state of the machine. ID and PARAM are constants (Config), reserved bits read 0 and SRST is an
action, so none of them is stored (R37, R39). -/
structure State where
  /-- CTRL.IRQ_EN (R37) -/
  irqEn     : Bool
  /-- CMD, the last accepted word (R38) -/
  cmd       : Word
  /-- STATUS.BUSY (R32) -/
  busy      : Bool
  /-- STATUS.DONE (R34) -/
  done      : Bool
  /-- STATUS.ERR (R35) -/
  err       : Bool
  /-- STATUS.FITS64 (R33) -/
  fits64    : Bool
  /-- STATUS.OVR (R36) -/
  ovr       : Bool
  /-- STATUS.ERRCODE (R35, R241) -/
  errcode   : ErrCode
  /-- ERRIDX (R46) -/
  errIdx    : Word
  /-- NBASE (R41) -/
  nbase     : Word
  /-- DEFPAD (R42) -/
  defpad    : Word
  /-- VAL0 ++ VAL1 ++ VAL2 ++ VAL3 (R23, R24) -/
  val       : Value
  /-- RES0 ++ RES1 ++ RES2 ++ RES3 (R25, R24) -/
  res       : Value
  /-- OPM (R26) -/
  opm       : Word
  /-- OPA (R27) -/
  opa       : Word
  /-- RIN (R28) -/
  rin       : Word
  /-- REM (R29) -/
  rem       : Word
  /-- PADLEN (R30) -/
  padlen    : Word
  /-- STRLEN (R44) -/
  strlen    : Word
  /-- NDIG (R45) -/
  ndig      : Word
  /-- ASTAGE_CNT (R43) -/
  astageCnt : Word
  /-- ASTAGE[0..255] (R43) -/
  astage    : Table
  /-- ALPHA[0..255] (R41) -/
  alpha     : Table
  /-- STRBUF[0..255] (R44) -/
  strbuf    : Table
  /-- the core engine's hidden state (R49) -/
  eng       : Engine
  /-- the level of the rst pin (R280). Log 8. -/
  rst       : Bool
  /-- the environment's pending steps, first to come first. The model's own field, log 1. -/
  events    : List Event
  /-- the bus's answer to the last access. The model's own field, log 6. -/
  resp      : Option BusResponse
  /-- how many free values have been drawn. The model's own field, log 5. -/
  draws     : Nat
  deriving DecidableEq, Repr

/-- The reset state (R51, R281). The spec gives every value but those of `rst`, `events`, `resp` and
`draws`, which are DESIGN CHOICES (log 7). -/
def State.reset : State where
  irqEn := false
  cmd := 0#32
  busy := false
  done := false
  err := false
  fits64 := false
  ovr := false
  errcode := .noError
  errIdx := 0#32
  nbase := Config.resetNbase
  defpad := Config.resetDefpad
  val := 0#128
  res := 0#128
  opm := 0#32
  opa := 0#32
  rin := 0#32
  rem := 0#32
  padlen := 0#32
  strlen := 0#32
  ndig := 0#32
  astageCnt := 0#32
  astage := Table.zero
  alpha := Table.zero.write Config.defaultAlphabet
  strbuf := Table.zero
  eng := Engine.reset
  rst := false
  events := []
  resp := none
  draws := 0

/-- Why the machine stops with a fault. -/
inductive Fault where
  /-- Raised by ENCODE alone, in a state that breaks 10_state.md R52 (NBASE below 2 or above 256, or DEFPAD
  above 256), where the procedure of R183 does not end or leaves its buffer. No run reaches such a state.
  SAFE: the model stops; log 9. -/
  | alphabetOutOfRange
  deriving DecidableEq, Repr

/-- Why the model gives a step no meaning. -/
inductive Refusal where
  /-- An instruction without a meaning, refused in exec's arm by name. Raised by no arm. SAFE. -/
  | notModelled (mnemonic : String)
  /-- Raised by the step for a host access while rst is asserted: "this spec defines no response to such an
  access" (70_reset_and_hazards.md R284, 93 U7 `refuse`). SAFE: the model stops; log 8. -/
  | accessDuringReset
  deriving DecidableEq, Repr

end Sys2Proof.Machine
end

