-- ==== Sys2Proof/Machine/Operands.lean ====
section
/-! DEFINITION. Views of the operands: limbs and bytes of a Value128 (00_scope.md R10, 10_state.md R24),
the staged set, the string and the alphabet (R41, R43, R44), the symbol lookups (40_alphabet.md R136) and
the effective pad length (42_encoder.md R181). -/

namespace Sys2Proof.Machine

/-- `limb_k(v) = v[127-32k : 96-32k]`, limb 0 the most significant (R10). -/
def limb (v : Value) (k : Fin 4) : Word := v.extractLsb' (96 - 32 * k.val) 32

/-- `byte_b(v) = v[127-8b : 120-8b]`, byte 0 the most significant (R10, R75). -/
def valueByte (v : Value) (b : Fin 16) : BitVec 8 := v.extractLsb' (120 - 8 * b.val) 8

/-- `l0 ++ l1 ++ l2 ++ l3` (R24). -/
def ofLimbs (l0 l1 l2 l3 : Word) : Value := l0 ++ l1 ++ l2 ++ l3

/-- A value with limb k replaced: a host write of VALk (R23, R24). -/
def setLimb (v : Value) (k : Fin 4) (x : Word) : Value :=
  match k with
  | 0 => ofLimbs x (limb v 1) (limb v 2) (limb v 3)
  | 1 => ofLimbs (limb v 0) x (limb v 2) (limb v 3)
  | 2 => ofLimbs (limb v 0) (limb v 1) x (limb v 3)
  | 3 => ofLimbs (limb v 0) (limb v 1) (limb v 2) x

/-- `v[63:0]`. -/
def low64 (v : Value) : Wide := v.extractLsb' 0 64

/-- `v[127:64]`. -/
def high64 (v : Value) : Wide := v.extractLsb' 64 64

/-- `ALPHA[0..NBASE-1]` (R41). -/
def State.symbols (s : State) : List Word := s.alpha.toList.take s.nbase.toNat

/-- `ASTAGE[0..ASTAGE_CNT-1]` (R43). -/
def State.staged (s : State) : List Word := s.astage.toList.take s.astageCnt.toNat

/-- `STRBUF[0..STRLEN-1]` (R44). -/
def State.string (s : State) : List Word := s.strbuf.toList.take s.strlen.toNat

/-- The position of the first entry equal to `c`, counting from `i`. -/
def findSymbol (c : Word) : List Word → Nat → Option Nat
  | [], _ => none
  | a :: rest, i => if a = c then some i else findSymbol c rest (i + 1)

/-- `index_of(c)` (R136); `none` is ABSENT. -/
def indexOf (s : State) (c : Word) : Option Nat := findSymbol c s.symbols 0

/-- `ALPHA[d]` for a digit index d (R136, R186). -/
def State.symbolAt (s : State) (d : Word) : Word := (s.alpha[d.toNat]?).getD 0#32

/-- The effective pad length p (R181); `none` where LENGTH_RANGE is raised (R182). -/
def effectivePad (s : State) (usePad : Bool) : Option Nat :=
  if usePad then
    if s.padlen.toNat > Config.strMax then none else some s.padlen.toNat
  else some s.defpad.toNat

/-- Every register and file entry of the block: what an open value may depend on (log 5). -/
def State.words (s : State) : List Word :=
  [s.cmd, s.errIdx, s.nbase, s.defpad, limb s.val 0, limb s.val 1, limb s.val 2, limb s.val 3,
   limb s.res 0, limb s.res 1, limb s.res 2, limb s.res 3, s.opm, s.opa, s.rin, s.rem, s.padlen,
   s.strlen, s.ndig, s.astageCnt] ++ s.astage.toList ++ s.alpha.toList ++ s.strbuf.toList

end Sys2Proof.Machine
end

