-- ==== Sys2Proof/Machine/Flags.lean ====
section
/-! DEFINITION. The STATUS and CTRL words (10_state.md R31, R37), the error codes (60_exceptions.md R241),
the FITS64 tag (41_limb_arith.md R159) and the interrupt line (R252). -/

namespace Sys2Proof.Machine

/-- The code ERRCODE holds for an error (R241). -/
def ErrCode.code : ErrCode → BitVec 8
  | .noError => 0x00#8
  | .illegalOpcode => 0x01#8
  | .divByZero => 0x02#8
  | .remRange => 0x03#8
  | .invalidAlphabet => 0x04#8
  | .invalidCharacter => 0x05#8
  | .lengthRange => 0x06#8

/-- STATUS from its fields; the reserved bits read 0 (R31). -/
def packStatus (busy done err fits64 ovr : Bool) (code : BitVec 8) : Word :=
  0#16 ++ code ++ 0#3 ++ BitVec.ofBool ovr ++ BitVec.ofBool fits64 ++ BitVec.ofBool err ++
    BitVec.ofBool done ++ BitVec.ofBool busy

/-- STATUS as a host reads it while BUSY = 0 (R31). -/
def State.statusWord (s : State) : Word :=
  packStatus s.busy s.done s.err s.fits64 s.ovr s.errcode.code

/-- STATUS as a host reads it while BUSY = 1, with FITS64 a free bit (R248). -/
def State.busyStatusWord (s : State) : Word :=
  packStatus true false false (Config.freeFits64 s.draws s.words) s.ovr ErrCode.noError.code

/-- CTRL: IRQ_EN in bit 0; SRST and the reserved bits read 0 (R37). -/
def State.ctrlWord (s : State) : Word := 0#31 ++ BitVec.ofBool s.irqEn

/-- The tag of a quotient: its two most significant limbs are both zero (R159). -/
def quotientFits64 (q : Value) : Bool := limb q 0 == 0#32 && limb q 1 == 0#32

/-- A host write to STATUS: write-1-to-clear of DONE (bit 1) and OVR (bit 4), nothing else (R31). -/
def State.clearStatus (s : State) (w : Word) : State :=
  { s with done := s.done && !w.getLsbD 1, ovr := s.ovr && !w.getLsbD 4 }

/-- `irq = CTRL.IRQ_EN and STATUS.DONE` (R252). -/
def State.irq (s : State) : Bool := s.irqEn && s.done

end Sys2Proof.Machine
end

