-- ==== Sys2Proof/Machine/Ops.lean ====
section
/-! DEFINITION. The shared operations: the accept step (60_exceptions.md R245), completion without and with
an error (R249, R250), reset (70_reset_and_hazards.md R280, R281), and reading and writing a mapped
location of the window (20_memory.md R74, R78; 60 R246, R247, R248). -/

namespace Sys2Proof.Machine

/-- The first state of the command a word names, or ILLEGAL (R245); with the variables that state uses. -/
def engineStart (w : Word) (e : Engine) : Engine :=
  match decode w with
  | .error _ => { e with fsm := .illegal }
  | .ok .muladd => { e with fsm := .maLimb, k := 3, carry := 0#32 }
  | .ok .divmod => { e with fsm := .dmCheck }
  | .ok .div64 => { e with fsm := .d64Check }
  | .ok (.encode _) => { e with fsm := .enInit }
  | .ok (.decode _) => { e with fsm := .deInit }
  | .ok .abuild => { e with fsm := .abCheck }
  | .ok .movrv => { e with fsm := .completion .noError }

/-- The accept step of a CMD write (R245). OVR and FITS64 stay. -/
def accept (s : State) (w : Word) : State :=
  { s with
    cmd := w
    busy := true
    done := false
    err := false
    errcode := .noError
    errIdx := 0#32
    eng := engineStart w s.eng }

/-- Completion without error, after the commit's own writes (R249). -/
def completeOk (s : State) : State :=
  { s with busy := false, done := true, eng := { s.eng with fsm := .idle } }

/-- Completion with error `e` (R250): the block's one way of taking an error. It saves no state and
transfers no control (R254). -/
def completeError (s : State) (e : ErrCode) : State :=
  { s with err := true, errcode := e, busy := false, done := true, eng := { s.eng with fsm := .idle } }

/-- Completion with INVALID_CHARACTER at string index `j` (R250, 43_decoder.md R216). -/
def completeInvalidCharacter (s : State) (j : Nat) : State :=
  completeError { s with errIdx := BitVec.ofNat 32 j } .invalidCharacter

/-- Reset, by the rst pin or by CTRL.SRST: every piece of the block's state takes its reset value
(R280, R281). The environment's side (the pin, the pending steps, the last answer, the draws) is not the
block's and stays. -/
def blockReset (s : State) : State :=
  { State.reset with rst := s.rst, events := s.events, resp := s.resp, draws := s.draws }

/-- The rst pin goes to a level; a high level resets the block (R280, R281). -/
def setRst (s : State) (level : Bool) : State :=
  if level then blockReset { s with rst := true } else { s with rst := false }

/-- The stored value of a location (R22, R39). -/
def State.peek (s : State) : Loc → Word
  | .id => Config.idWord
  | .param => Config.paramWord
  | .ctrl => s.ctrlWord
  | .cmd => s.cmd
  | .status => s.statusWord
  | .errIdx => s.errIdx
  | .nbase => s.nbase
  | .defpad => s.defpad
  | .val k => limb s.val k
  | .res k => limb s.res k
  | .opm => s.opm
  | .opa => s.opa
  | .rin => s.rin
  | .rem => s.rem
  | .padlen => s.padlen
  | .strlen => s.strlen
  | .ndig => s.ndig
  | .astageCnt => s.astageCnt
  | .astage i => s.astage[i]
  | .alpha i => s.alpha[i]
  | .strbuf i => s.strbuf[i]

/-- Locations whose reads are defined while BUSY = 1, STATUS apart (R248). -/
def Loc.readableBusy : Loc → Bool
  | .id | .param | .ctrl | .cmd => true
  | .status | .errIdx | .nbase | .defpad | .val _ | .res _ | .opm | .opa | .rin | .rem | .padlen
  | .strlen | .ndig | .astageCnt | .astage _ | .alpha _ | .strbuf _ => false

/-- What a host read of a location at offset `off` returns (R82, R88; while BUSY, R248). -/
def hostReadValue (s : State) (off : Offset) (l : Loc) : Word :=
  if !s.busy || l.readableBusy then s.peek l
  else if l = .status then s.busyStatusWord
  else Config.freeRead s.draws off.toNat s.words

/-- A host read: the answer is the value, and no register changes (R78). A read that returns a free value
moves the model's draw counter on (log 5). -/
def hostRead (s : State) (off : Offset) (l : Loc) : State :=
  { s with
    resp := some (.data (hostReadValue s off l))
    draws := if !s.busy || l.readableBusy then s.draws else s.draws + 1 }

/-- The write of a location while BUSY = 0, CTRL, CMD and STATUS apart: a read-write location stores the
word, a read-only one ignores it (R22, R74). -/
def State.poke (s : State) (l : Loc) (v : Word) : State :=
  match l with
  | .val k => { s with val := setLimb s.val k v }
  | .opm => { s with opm := v }
  | .opa => { s with opa := v }
  | .rin => { s with rin := v }
  | .padlen => { s with padlen := v }
  | .strlen => { s with strlen := v }
  | .astageCnt => { s with astageCnt := v }
  | .astage i => { s with astage := s.astage.set i v }
  | .strbuf i => { s with strbuf := s.strbuf.set i v }
  | .id | .param | .ctrl | .cmd | .status | .errIdx | .nbase | .defpad | .res _ | .rem | .ndig
  | .alpha _ => s

/-- A host write to CTRL: SRST resets the block and the other bits are discarded; else IRQ_EN is stored
(R37, 70 R283). -/
def writeCtrl (s : State) (v : Word) : State :=
  if v.getLsbD 1 then blockReset s else { s with irqEn := v.getLsbD 0 }

/-- What a host write of a location does to the block: CTRL and STATUS always (R31, R37, R247); any other
is dropped and sets OVR while BUSY (R246, R247); CMD accepts (R245); the rest store or ignore (R74). -/
def hostWriteEffect (s : State) (l : Loc) (v : Word) : State :=
  if l = .ctrl then writeCtrl s v
  else if l = .status then s.clearStatus v
  else if s.busy then { s with ovr := true }
  else if l = .cmd then accept s v
  else s.poke l v

/-- A host write, answered without a bus error (R74, 70 R283). -/
def hostWrite (s : State) (l : Loc) (v : Word) : State :=
  { hostWriteEffect s l v with resp := some .written }

end Sys2Proof.Machine
end

