-- ==== Sys2Proof/Machine/Bus.lean ====
section
/-! DEFINITION. The address map of the register window (20_memory.md R79, 10_state.md R22), the width and
alignment rules (R72, R73), one host access (R12, R88), and the window's host address (R71, R88). -/

namespace Sys2Proof.Machine

/-- The byte offset of a location (R79). -/
def Loc.offset : Loc → Offset
  | .id => 0x000#12
  | .param => 0x004#12
  | .ctrl => 0x008#12
  | .cmd => 0x00C#12
  | .status => 0x010#12
  | .errIdx => 0x014#12
  | .nbase => 0x018#12
  | .defpad => 0x01C#12
  | .val k => 0x020#12 + BitVec.ofNat 12 (4 * k.val)
  | .res k => 0x030#12 + BitVec.ofNat 12 (4 * k.val)
  | .opm => 0x040#12
  | .opa => 0x044#12
  | .rin => 0x048#12
  | .rem => 0x04C#12
  | .padlen => 0x050#12
  | .strlen => 0x054#12
  | .ndig => 0x058#12
  | .astageCnt => 0x05C#12
  | .astage i => 0x400#12 + BitVec.ofNat 12 (4 * i.val)
  | .alpha i => 0x800#12 + BitVec.ofNat 12 (4 * i.val)
  | .strbuf i => 0xC00#12 + BitVec.ofNat 12 (4 * i.val)

/-- The named register at word index `n` of the first quarter of the window; `none` from 0x060 on (R79). -/
def namedLoc (n : Nat) : Option Loc :=
  match n with
  | 0 => some .id
  | 1 => some .param
  | 2 => some .ctrl
  | 3 => some .cmd
  | 4 => some .status
  | 5 => some .errIdx
  | 6 => some .nbase
  | 7 => some .defpad
  | 8 => some (.val 0)
  | 9 => some (.val 1)
  | 10 => some (.val 2)
  | 11 => some (.val 3)
  | 12 => some (.res 0)
  | 13 => some (.res 1)
  | 14 => some (.res 2)
  | 15 => some (.res 3)
  | 16 => some .opm
  | 17 => some .opa
  | 18 => some .rin
  | 19 => some .rem
  | 20 => some .padlen
  | 21 => some .strlen
  | 22 => some .ndig
  | 23 => some .astageCnt
  | _ => none

/-- The location at an offset: `none` where the offset is not divisible by 4 (R72) or not mapped (R73). -/
def Loc.ofOffset (off : Offset) : Option Loc :=
  if off.toNat % 4 = 0 then
    let i : Fin 256 := (off.extractLsb' 2 8).toFin
    match (off.extractLsb' 10 2).toNat with
    | 0 => namedLoc i.val
    | 1 => some (.astage i)
    | 2 => some (.alpha i)
    | _ => some (.strbuf i)
  else none

/-- A bus error answers the access and changes no state of the block (R72, R73). -/
def busError (s : State) (off : Offset) : State := { s with resp := some (.busError off) }

/-- One host access (R12): a 32-bit access, with all byte strobes, at a mapped aligned offset is performed;
every other one is a BusError (R72, R73). -/
def hostAccess (s : State) (a : Access) : State :=
  match a with
  | .read off bytes =>
    if bytes = 4 then
      match Loc.ofOffset off with
      | some l => hostRead s off l
      | none => busError s off
    else busError s off
  | .write off bytes strobes data =>
    if bytes = 4 ∧ strobes = 0xF#4 then
      match Loc.ofOffset off with
      | some l => hostWrite s l data
      | none => busError s off
    else busError s off

/-- `BASE_ADDR`, 4096-aligned (R71). Log 13. -/
def baseAddr : Nat := 4096 * Config.basePage

/-- The effective host byte address of a register offset (R88). -/
def hostAddress (off : Offset) : Nat := baseAddr + off.toNat

/-- The offset a host byte address selects; `none` outside the window (R71, R79). -/
def windowOffset (addr : Nat) : Option Offset :=
  if baseAddr ≤ addr ∧ addr < baseAddr + 4096 then some (BitVec.ofNat 12 (addr - baseAddr)) else none

end Sys2Proof.Machine
end

