-- ==== Sys2Proof/Machine/Alphabet.lean ====
section
/-! DEFINITION. ABUILD: deduplication and sorting of the staged set, the default pad length, and the command
(40_alphabet.md R130 to R139). -/

namespace Sys2Proof.Machine

/-- A symbol put in its place in a strictly rising list; one already there is dropped (R131). -/
def insertSymbol (c : Word) : List Word → List Word
  | [] => [c]
  | a :: rest =>
    if c < a then c :: a :: rest
    else if c = a then a :: rest
    else a :: insertSymbol c rest

/-- The distinct symbols of a list in increasing unsigned order: s_0 < s_1 < … (R131). -/
def canonical (symbols : List Word) : List Word := symbols.foldr insertSymbol []

/-- The least P' ≥ P with `pow * N^(P' - P) ≥ 2^64`, where `pow = N^P`; 64 more factors suffice for N ≥ 2. -/
def padSearch (n : Nat) : Nat → Nat → Nat → Nat
  | 0, p, _ => p
  | fuel + 1, p, pow => if 2 ^ 64 ≤ pow then p else padSearch n fuel (p + 1) (pow * n)

/-- `defaultPadLength(N)`, the least P ≥ 0 with N^P ≥ 2^64 (R137). Log 10. -/
def defaultPadLength (n : Nat) : Nat := padSearch n 64 0 1

/-- The commit of ABUILD for a canonical list (R131). -/
def commitAlphabet (s : State) (symbols : List Word) : State :=
  completeOk { s with
    alpha := Table.zero.write symbols
    nbase := BitVec.ofNat 32 symbols.length
    defpad := BitVec.ofNat 32 (defaultPadLength symbols.length) }

/-- ABUILD (R130 to R134), its errors in the order of R132. -/
def execAbuild (s : State) : Host.Outcome State Fault Refusal :=
  if s.astageCnt.toNat > Config.alphaMax then .next (completeError s .lengthRange)
  else
    let symbols := canonical s.staged
    if symbols.length < 2 then .next (completeError s .invalidAlphabet)
    else .next (commitAlphabet s symbols)

end Sys2Proof.Machine
end

