-- ==== Sys2Proof/Machine/Limb.lean ====
section
/-! DEFINITION. Limb arithmetic: one limb step of `muladd32` and of `divmod32`, the two operations over four
limbs, and the commands MULADD, DIVMOD and DIV64 (41_limb_arith.md). -/

namespace Sys2Proof.Machine

/-- One iteration of R151: `t = x * m + carry + a` in 64 bits; the low and the high 32 bits of t. -/
def mulLimb (x m carry a : Word) : Word × Word :=
  let t : Wide := x.zeroExtend 64 * m.zeroExtend 64 + carry.zeroExtend 64 + a.zeroExtend 64
  (t.extractLsb' 0 32, t.extractLsb' 32 32)

/-- `muladd32` (R151): the result and the carry out of limb 0, which no command keeps. -/
def muladdCarry (v : Value) (m a : Word) : Value × Word :=
  let s3 := mulLimb (limb v 3) m 0#32 a
  let s2 := mulLimb (limb v 2) m s3.2 0#32
  let s1 := mulLimb (limb v 1) m s2.2 0#32
  let s0 := mulLimb (limb v 0) m s1.2 0#32
  (ofLimbs s0.1 s1.1 s2.1 s3.1, s0.2)

/-- `muladd32` (R151). -/
def muladd32 (v : Value) (m a : Word) : Value := (muladdCarry v m a).1

/-- One iteration of R157: `t = r ++ x` divided by d; the 32-bit quotient limb and the new remainder. -/
def divLimb (r x d : Word) : Word × Word :=
  let t : Wide := r ++ x
  ((t / d.zeroExtend 64).setWidth 32, (t % d.zeroExtend 64).setWidth 32)

/-- `divmod32` from incoming remainder `r` (R157): the quotient and the remainder. -/
def divmod32 (v : Value) (d r : Word) : Value × Word :=
  let s0 := divLimb r (limb v 0) d
  let s1 := divLimb s0.2 (limb v 1) d
  let s2 := divLimb s1.2 (limb v 2) d
  let s3 := divLimb s2.2 (limb v 3) d
  (ofLimbs s0.1 s1.1 s2.1 s3.1, s3.2)

/-- The native 64-bit divide step (R163): quotient and remainder. -/
def div64Step (n : Wide) (d : Word) : Wide × Word :=
  (n / d.zeroExtend 64, (n % d.zeroExtend 64).setWidth 32)

/-- The commit of MULADD (R151, R154). -/
def commitResult (s : State) (v : Value) : State := completeOk { s with res := v }

/-- The commit of DIVMOD and DIV64 (R157, R163). -/
def commitQuotient (s : State) (q : Value) (r : Word) (fits : Bool) : State :=
  completeOk { s with res := q, rem := r, fits64 := fits }

/-- The error DIVMOD raises, in the order of R158; `noError` when it raises none. -/
def divmodCheck (s : State) : ErrCode :=
  if s.opm = 0#32 then .divByZero
  else if s.opm ≤ s.rin then .remRange
  else .noError

/-- MULADD (R150 to R154). -/
def execMuladd (s : State) : Host.Outcome State Fault Refusal :=
  .next (commitResult s (muladd32 s.val s.opm s.opa))

/-- DIVMOD (R156 to R160). -/
def execDivmod (s : State) : Host.Outcome State Fault Refusal :=
  match divmodCheck s with
  | .noError =>
    let qr := divmod32 s.val s.opm s.rin
    .next (commitQuotient s qr.1 qr.2 (quotientFits64 qr.1))
  | e => .next (completeError s e)

/-- DIV64 (R162 to R164). -/
def execDiv64 (s : State) : Host.Outcome State Fault Refusal :=
  if s.opm = 0#32 then .next (completeError s .divByZero)
  else
    let qr := div64Step (low64 s.val) s.opm
    .next (commitQuotient s (qr.1.zeroExtend 128) qr.2 true)

end Sys2Proof.Machine
end

