-- ==== Sys2Proof/Machine/Decoder.lean ====
section
/-! DEFINITION. DECODE: Horner's method over the string, permissive and strict, and the command
(43_decoder.md R210 to R218). -/

namespace Sys2Proof.Machine

/-- The digit of a symbol on the permissive path: an absent symbol counts as 0 (R213). -/
def digitOf (s : State) (c : Word) : Word := BitVec.ofNat 32 ((indexOf s c).getD 0)

/-- Horner's loop (R212) from string index j: the accumulator, or the index of the first absent symbol in
strict mode (R216). -/
def decodeLoop (s : State) (strict : Bool) : Nat → List Word → Value → Except Nat Value
  | _, [], acc => .ok acc
  | j, c :: rest, acc =>
    if strict && (indexOf s c).isNone then .error j
    else decodeLoop s strict (j + 1) rest (muladd32 acc s.nbase (digitOf s c))

/-- DECODE (R210 to R216); LENGTH_RANGE is checked before any symbol is read (R211). -/
def execDecode (strict : Bool) (s : State) : Host.Outcome State Fault Refusal :=
  if s.strlen.toNat > Config.strMax then .next (completeError s .lengthRange)
  else
    match decodeLoop s strict 0 s.string 0#128 with
    | .ok acc => .next (commitResult s acc)
    | .error j => .next (completeInvalidCharacter s j)

end Sys2Proof.Machine
end

