-- ==== Sys2Proof/Machine/Encoder.lean ====
section
/-! DEFINITION. ENCODE: the two division phases, padding, reversal and mapping, and the command
(42_encoder.md R180 to R189). -/

namespace Sys2Proof.Machine

/-- Phase 1 (R183): `divmod32` by N until the quotient fits in 64 bits. The digits, least significant first,
and the quotient q64. Its fuel is spent in no case with N ≥ 2 (log 10). -/
def encodePhase1 (n : Word) : Nat → Value → List Word × Wide
  | 0, w => ([], low64 w)
  | fuel + 1, w =>
    let qr := divmod32 w n 0#32
    if quotientFits64 qr.1 then ([qr.2], low64 qr.1)
    else
      let rest := encodePhase1 n fuel qr.1
      (qr.2 :: rest.1, rest.2)

/-- Phase 2 (R184): native division until the quotient is 0, tested before each division. -/
def encodePhase2 (n : Word) : Nat → Wide → List Word
  | 0, _ => []
  | fuel + 1, q =>
    if q = 0#64 then []
    else
      let qr := div64Step q n
      qr.2 :: encodePhase2 n fuel qr.1

/-- The digits of both phases, least significant first (R183, R184). A value has at most 128 (R188). -/
def encodeDigits (n : Word) (v : Value) : List Word :=
  let first := encodePhase1 n 128 v
  first.1 ++ encodePhase2 n 128 first.2

/-- Phase 3 (R185): zero digits up to a count of p. -/
def padDigits (digits : List Word) (p : Nat) : List Word :=
  digits ++ List.replicate (p - digits.length) 0#32

/-- Phase 4 (R186): reversal and mapping to symbols. -/
def mapDigits (s : State) (digits : List Word) : List Word := digits.reverse.map s.symbolAt

/-- The commit of ENCODE (R187). -/
def commitString (s : State) (symbols : List Word) (ndig : Nat) : State :=
  completeOk { s with
    strbuf := s.strbuf.write symbols
    strlen := BitVec.ofNat 32 symbols.length
    ndig := BitVec.ofNat 32 ndig }

/-- The alphabet registers are within the bounds every reachable state keeps (10_state.md R52, R181). -/
def State.alphabetInRange (s : State) : Bool :=
  2 ≤ s.nbase.toNat && s.nbase.toNat ≤ Config.alphaMax && s.defpad.toNat ≤ Config.strMax

/-- ENCODE (R180 to R187); LENGTH_RANGE is checked before any digit is produced (R182). -/
def execEncode (usePad : Bool) (s : State) : Host.Outcome State Fault Refusal :=
  match effectivePad s usePad with
  | none => .next (completeError s .lengthRange)
  | some p =>
    if s.alphabetInRange then
      let digits := encodeDigits s.nbase s.val
      .next (commitString s (mapDigits s (padDigits digits p)) digits.length)
    else .fault .alphabetOutOfRange

end Sys2Proof.Machine
end

