-- ==== Sys2Proof/Machine/Move.lean ====
section
/-! DEFINITION. MOVRV (44_register_move.md R230, R231). -/

namespace Sys2Proof.Machine

/-- MOVRV (R231): VAL <- RES. -/
def execMovrv (s : State) : Host.Outcome State Fault Refusal :=
  .next (completeOk { s with val := s.res })

end Sys2Proof.Machine
end

