-- ==== Sys2Proof/Machine/Dispatch.lean ====
section
/-! DEFINITION. What each command does at its completion: one arm per constructor of Instr. -/

namespace Sys2Proof.Machine

def exec (i : Instr) (s : State) : Host.Outcome State Fault Refusal :=
  match i with
  | .muladd => Sys2Proof.Machine.execMuladd s
  | .divmod => Sys2Proof.Machine.execDivmod s
  | .div64 => Sys2Proof.Machine.execDiv64 s
  | .encode usePad => Sys2Proof.Machine.execEncode usePad s
  | .decode strict => Sys2Proof.Machine.execDecode strict s
  | .abuild => Sys2Proof.Machine.execAbuild s
  | .movrv => Sys2Proof.Machine.execMovrv s

end Sys2Proof.Machine
end

