-- ==== Sys2Proof/Machine/Engine.lean ====
section
/-! DEFINITION. The reference state machines of the core engine, one FSM step per engine step: the limb
commands (41_limb_arith.md R165), the encoder (42_encoder.md R191), the decoder (43_decoder.md R219) and
the alphabet builder (40_alphabet.md R141), with the completion each of them ends in. They work on the
hidden state alone (10_state.md R49, R50); the architectural effect of a command is exec's. -/

namespace Sys2Proof.Machine

/-- MA_LIMB(k), k from 3 to 0: one iteration of R151 (R165). -/
def engineMaLimb (s : State) (e : Engine) : Engine :=
  let t := mulLimb (limb s.val e.k) s.opm e.carry (if e.k = 3 then s.opa else 0#32)
  let e := { e with out := setLimb e.out e.k t.1, carry := t.2 }
  if e.k = 0 then { e with fsm := .completion .noError } else { e with k := e.k - 1 }

/-- DM_CHECK: the error tests of R158 (R165). -/
def engineDmCheck (s : State) (e : Engine) : Engine :=
  match divmodCheck s with
  | .noError => { e with fsm := .dmLimb, r := s.rin, k := 0 }
  | err => { e with fsm := .completion err }

/-- DM_LIMB(k), k from 0 to 3: one iteration of R157 (R165). -/
def engineDmLimb (s : State) (e : Engine) : Engine :=
  let t := divLimb e.r (limb s.val e.k) s.opm
  let e := { e with q := setLimb e.q e.k t.1, r := t.2 }
  if e.k = 3 then { e with fsm := .completion .noError } else { e with k := e.k + 1 }

/-- D64_CHECK (R165). -/
def engineD64Check (s : State) (e : Engine) : Engine :=
  if s.opm = 0#32 then { e with fsm := .completion .divByZero }
  else { e with fsm := .d64Div (Config.div64ExtraSteps s.words) }

/-- The last step of D64_DIV (R163, R165). -/
def engineD64Done (s : State) (e : Engine) : Engine :=
  let t := div64Step (low64 s.val) s.opm
  { e with fsm := .completion .noError, q64 := t.1, r := t.2 }

/-- EN_INIT: the pad length, or LENGTH_RANGE (R181, R191). -/
def engineEnInit (s : State) (usePad : Bool) (e : Engine) : Engine :=
  match effectivePad s usePad with
  | none => { e with fsm := .completion .lengthRange }
  | some p => { e with fsm := .enD128, p := p, w := s.val, cnt := 0, k := 0, r := 0#32 }

/-- A digit recorded in DIG[cnt] (R183). -/
def Engine.recordDigit (e : Engine) (d : Word) : Engine :=
  { e with dig := e.dig.setIfInBounds e.cnt d, cnt := e.cnt + 1 }

/-- EN_D128: one limb step of divmod32(W, N, r); after limb 3 the digit is recorded and the quotient goes to
EN_D64 if it fits in 64 bits, back to EN_D128 if not (R183, R191). -/
def engineEnD128 (s : State) (e : Engine) : Engine :=
  let t := divLimb e.r (limb e.w e.k) s.nbase
  let e := { e with q := setLimb e.q e.k t.1, r := t.2 }
  if e.k = 3 then
    let e := e.recordDigit e.r
    if quotientFits64 e.q then { e with fsm := .enD64, q64 := low64 e.q }
    else { e with w := e.q, k := 0, r := 0#32 }
  else { e with k := e.k + 1 }

/-- EN_D64: one native division, or on to EN_PAD with the digit count latched (R184, R191). -/
def engineEnD64 (s : State) (e : Engine) : Engine :=
  if e.q64 = 0#64 then { e with fsm := .enPad, ndig := e.cnt }
  else
    let t := div64Step e.q64 s.nbase
    { e.recordDigit t.2 with q64 := t.1 }

/-- EN_PAD: one zero digit, or on to EN_OUT (R185, R191). -/
def engineEnPad (e : Engine) : Engine :=
  if e.cnt < e.p then e.recordDigit 0#32 else { e with fsm := .enOut, len := e.cnt, j := 0 }

/-- EN_OUT: one symbol, or on to the completion (R186, R191). The symbols wait in a hidden buffer. -/
def engineEnOut (s : State) (e : Engine) : Engine :=
  if e.j < e.len then
    let d := (e.dig[e.len - 1 - e.j]?).getD 0#32
    { e with syms := e.syms.setIfInBounds e.j (s.symbolAt d), j := e.j + 1 }
  else { e with fsm := .completion .noError }

/-- DE_INIT: the LENGTH_RANGE test (R211, R219). -/
def engineDeInit (s : State) (e : Engine) : Engine :=
  if s.strlen.toNat > Config.strMax then { e with fsm := .completion .lengthRange }
  else { e with fsm := .deLook, acc := 0#128, j := 0 }

/-- DE_LOOK: the digit of the next symbol, or the completion (R212, R219). -/
def engineDeLook (s : State) (strict : Bool) (e : Engine) : Engine :=
  if e.j = s.strlen.toNat then { e with fsm := .completion .noError }
  else
    let c := (s.strbuf[e.j]?).getD 0#32
    if strict && (indexOf s c).isNone then { e with fsm := .completion .invalidCharacter }
    else { e with fsm := .deMul, d := digitOf s c, k := 3, carry := 0#32 }

/-- DE_MUL: one limb step of muladd32(acc, N, d), limb k of acc written in place (R219). -/
def engineDeMul (s : State) (e : Engine) : Engine :=
  let t := mulLimb (limb e.acc e.k) s.nbase e.carry (if e.k = 3 then e.d else 0#32)
  let e := { e with acc := setLimb e.acc e.k t.1, carry := t.2 }
  if e.k = 0 then { e with fsm := .deLook, j := e.j + 1 } else { e with k := e.k - 1 }

/-- AB_CHECK: the LENGTH_RANGE test (R132, R141). -/
def engineAbCheck (s : State) (e : Engine) : Engine :=
  if s.astageCnt.toNat > Config.alphaMax then { e with fsm := .completion .lengthRange }
  else { e with fsm := .abSort (Config.sortExtraSteps s.words) }

/-- AB_COUNT: the INVALID_ALPHABET test (R132, R141). -/
def engineAbCount (s : State) (e : Engine) : Engine :=
  if e.sorted.length < 2 then { e with fsm := .completion .invalidAlphabet }
  else { e with fsm := .abPad (Config.padExtraSteps s.words) }

/-- USE_PAD of the running command (R104). -/
def State.cmdUsePad (s : State) : Bool := s.cmd.getLsbD 9

/-- STRICT of the running command (R103). -/
def State.cmdStrict (s : State) : Bool := s.cmd.getLsbD 8

/-- One working step of the reference engine. At ILLEGAL and at completion it waits for the completion step. -/
def engineStep (s : State) : Engine :=
  let e := s.eng
  match e.fsm with
  | .idle | .illegal | .completion _ => e
  | .maLimb => engineMaLimb s e
  | .dmCheck => engineDmCheck s e
  | .dmLimb => engineDmLimb s e
  | .d64Check => engineD64Check s e
  | .d64Div (left + 1) => { e with fsm := .d64Div left }
  | .d64Div 0 => engineD64Done s e
  | .enInit => engineEnInit s s.cmdUsePad e
  | .enD128 => engineEnD128 s e
  | .enD64 => engineEnD64 s e
  | .enPad => engineEnPad e
  | .enOut => engineEnOut s e
  | .deInit => engineDeInit s e
  | .deLook => engineDeLook s s.cmdStrict e
  | .deMul => engineDeMul s e
  | .abCheck => engineAbCheck s e
  | .abSort (left + 1) => { e with fsm := .abSort left }
  | .abSort 0 => { e with fsm := .abCount, sorted := canonical s.staged }
  | .abCount => engineAbCount s e
  | .abPad (left + 1) => { e with fsm := .abPad left }
  | .abPad 0 => { e with fsm := .completion .noError, p := defaultPadLength e.sorted.length }

/-- A working step of the core engine: no architectural state is written (R50, R141, R165). -/
def engineWork (s : State) : State := { s with eng := engineStep s }

/-- `n` working steps. -/
def engineRun : Nat → State → State
  | 0, s => s
  | n + 1, s => engineRun n (engineWork s)

/-- The commit of the reference engine, from its hidden variables, for the command it ran. -/
def engineCommit (s : State) : Instr → State
  | .muladd => commitResult s s.eng.out
  | .divmod => commitQuotient s s.eng.q s.eng.r (quotientFits64 s.eng.q)
  | .div64 => commitQuotient s (s.eng.q64.zeroExtend 128) s.eng.r true
  | .encode _ => commitString s (s.eng.syms.toList.take s.eng.len) s.eng.ndig
  | .decode _ => commitResult s s.eng.acc
  | .abuild => completeOk { s with
      alpha := Table.zero.write s.eng.sorted
      nbase := BitVec.ofNat 32 s.eng.sorted.length
      defpad := BitVec.ofNat 32 s.eng.p }
  | .movrv => completeOk { s with val := s.res }

/-- The reference engine's completion step: `none` while the FSM is in no state that completes. -/
def engineComplete (s : State) : Option State :=
  match s.eng.fsm with
  | .illegal => some (completeError s .illegalOpcode)
  | .completion .noError =>
    match decode s.cmd with
    | .ok i => some (engineCommit s i)
    | .error _ => none
  | .completion .invalidCharacter => some (completeInvalidCharacter s s.eng.j)
  | .completion e => some (completeError s e)
  | _ => none

end Sys2Proof.Machine
end

