-- ==== Sys2Proof/Machine/Step.lean ====
section
/-! DEFINITION. One step of the machine: a step of the host, a working step or the completion of the core
engine, or an edge of the rst pin, as the pending events say (00_scope.md R17, R18, R19). -/

namespace Sys2Proof.Machine

/-- The completion of the running command: the command CMD names runs, and a word that names none completes
with ILLEGAL_OPCODE (30_encoding.md R106 to R108). -/
def runCommand (s : State) : Host.Outcome State Fault Refusal :=
  match decode s.cmd with
  | .ok i => exec i s
  | .error _ => .next (completeError s .illegalOpcode)

/-- What the core engine can do now: it runs a command and is not held in reset (10_state.md R32, 70 R281). -/
def State.engineBusy (s : State) : Bool := s.busy && !s.rst

/-- One event. A core-engine event while no command runs changes nothing (60_exceptions.md R262). -/
def handleEvent (s : State) (ev : Event) : Host.Outcome State Fault Refusal :=
  match ev with
  | .access a => if s.rst then .refused .accessDuringReset else .next (hostAccess s a)
  | .work => .next (if s.engineBusy then engineWork s else s)
  | .complete => if s.engineBusy then runCommand s else .next s
  | .rst level => .next (setRst s level)

/-- One step. With no event pending the running command completes (R300: a core step is always enabled while
BUSY = 1), and an idle block waits (R262). -/
def step (s : State) : Host.Outcome State Fault Refusal :=
  match s.events with
  | [] => if s.engineBusy then runCommand s else .next s
  | ev :: rest => handleEvent { s with events := rest } ev

/-- `s` with the command word `w` accepted and its completion due: the next step runs it. The block fetches
nothing (10_state.md R21); a command is the word the host writes to CMD. Log 4. -/
def State.withFetchWord (s : State) (nbits w : Nat) : State :=
  { accept { s with rst := false } (BitVec.ofNat 32 (w % 2 ^ nbits)) with
    events := .complete :: s.events }

end Sys2Proof.Machine
end

