-- ==== Sys2Proof/Machine/HostAsm.lean ====
section
/-! DEFINITION. SUC-asm, the host's listing of bus operations (30_encoding.md R112 to R114): its operations,
the bus transactions each makes, its command mnemonics and pseudo-instructions, and one step of a host that
runs such a listing. The host is the block's environment: none of this is state of the block (log 17). What the
model does with a string too long for its file is its own choice (log 21). -/

namespace Sys2Proof.Machine

/-- A cell of 32 bits a read can write: the variable `t` itself (R112), or the part `t0`, …, `t3` of a variable
`t` that `rd128` reads (R114). Variables are numbered (log 17). -/
inductive HostCell where
  | word (t : Nat)
  | part (t : Nat) (k : Fin 4)
  deriving DecidableEq, Repr

/-- A host variable as a branch names it: of 32 bits (R112), or of 128 bits, `t0 ++ t1 ++ t2 ++ t3` (R114), or one
of these four parts singly. DESIGN CHOICE (log 23): the spec does not say whether a branch may name a part. -/
inductive HostVar where
  | word (t : Nat)
  | wide (t : Nat)
  | part (t : Nat) (k : Fin 4)
  deriving DecidableEq, Repr

/-- A host operation (R112). A label is the index of the line it names; the immediate of a branch is as wide as
the widest variable. -/
inductive HostOp where
  /-- `wr REG, imm32` -/
  | wr (l : Loc) (imm : Word)
  /-- `rd REG -> t` -/
  | rd (l : Loc) (t : HostCell)
  /-- `poll REG, mask, val` -/
  | poll (l : Loc) (mask val : Word)
  /-- `expect REG, val` -/
  | expect (l : Loc) (val : Word)
  /-- `beq t, imm, label` -/
  | beq (t : HostVar) (imm : Value) (label : Nat)
  /-- `bne t, imm, label` -/
  | bne (t : HostVar) (imm : Value) (label : Nat)
  deriving DecidableEq, Repr

/-- `W <off> <imm32>`: an aligned 32-bit write (R112). -/
def writeOf (l : Loc) (v : Word) : Access := .write l.offset 4 0xF#4 v

/-- `R <off>`: an aligned 32-bit read (R112). -/
def readOf (l : Loc) : Access := .read l.offset 4

/-- The bus transactions of an operation; a poll reads `again` times before the read that ends it (R112). -/
def HostOp.accesses (again : Nat) : HostOp → List Access
  | .wr l imm => [writeOf l imm]
  | .rd l _ => [readOf l]
  | .poll l _ _ => List.replicate (again + 1) (readOf l)
  | .expect l _ => [readOf l]
  | .beq _ _ _ | .bne _ _ _ => []

/-- The command mnemonics (R113). -/
inductive Mnemonic where
  | muladd | divmod | div64 | encode | encodePad | decode | decodeStrict | abuild | movrv
  deriving DecidableEq, Repr

/-- The word a mnemonic writes to CMD (R113). -/
def Mnemonic.word : Mnemonic → Word
  | .muladd => 0x00000001#32
  | .divmod => 0x00000002#32
  | .div64 => 0x00000003#32
  | .encode => 0x00000004#32
  | .encodePad => 0x00000204#32
  | .decode => 0x00000005#32
  | .decodeStrict => 0x00000105#32
  | .abuild => 0x00000006#32
  | .movrv => 0x00000007#32

/-- Writes of the words of a list to consecutive entries of a file, from entry `i` on (R114). DESIGN CHOICE
(log 21): the spec names no entry past index 255 and does not say what `ldstr` or `ldalpha` of more than 256
characters does; the model makes no access for those characters. -/
def storeFrom (file : Fin 256 → Loc) : Nat → List Word → List HostOp
  | _, [] => []
  | i, c :: rest =>
    (if h : i < 256 then [.wr (file ⟨i, h⟩) c] else []) ++ storeFrom file (i + 1) rest

/-- The pseudo-instructions (R113, R114). Characters are given as their code points. -/
inductive Pseudo where
  | command (m : Mnemonic)
  | wait
  | ack
  | clrovr
  | ld128 (v : Value)
  | rd128 (t : Nat)
  | ldstr (codes : List Word)
  | ldalpha (codes : List Word)
  | softReset
  deriving DecidableEq, Repr

/-- What a pseudo-instruction expands to (R113, R114); `rd128` reads the four parts of the variable t. DESIGN
CHOICE (log 21): the count `ldstr` and `ldalpha` write is the number of characters given, above 256 too. -/
def Pseudo.expand : Pseudo → List HostOp
  | .command m => [.wr .cmd m.word]
  | .wait => [.poll .status 0x00000001#32 0x00000000#32]
  | .ack => [.wr .status 0x00000002#32]
  | .clrovr => [.wr .status 0x00000010#32]
  | .ld128 v => [.wr (.val 0) (limb v 0), .wr (.val 1) (limb v 1), .wr (.val 2) (limb v 2),
      .wr (.val 3) (limb v 3)]
  | .rd128 t => [.rd (.res 0) (.part t 0), .rd (.res 1) (.part t 1), .rd (.res 2) (.part t 2),
      .rd (.res 3) (.part t 3)]
  | .ldstr codes => storeFrom .strbuf 0 codes ++ [.wr .strlen (BitVec.ofNat 32 codes.length)]
  | .ldalpha codes => storeFrom .astage 0 codes ++ [.wr .astageCnt (BitVec.ofNat 32 codes.length)]
  | .softReset => [.wr .ctrl 0x00000002#32]

/-- A host that runs a listing: its line, the cells of its variables, and whether an `expect` has failed
(R112). -/
structure HostState where
  line  : Nat
  vars  : List (HostCell × Word)
  wrong : Bool
  deriving DecidableEq, Repr

/-- A cell; one never set holds 0 (log 17). -/
def HostState.cell (h : HostState) (c : HostCell) : Word :=
  ((h.vars.find? (fun p => p.1 == c)).map Prod.snd).getD 0#32

/-- A host variable: `t`, or `t = t0 ++ t1 ++ t2 ++ t3`, or one part of it (R112, R114; log 23). -/
def HostState.var (h : HostState) : HostVar → Value
  | .word t => (h.cell (.word t)).zeroExtend 128
  | .part t k => (h.cell (.part t k)).zeroExtend 128
  | .wide t => ofLimbs (h.cell (.part t 0)) (h.cell (.part t 1)) (h.cell (.part t 2)) (h.cell (.part t 3))

/-- The word the last access read, 0 where it read none. -/
def State.readData (s : State) : Word :=
  match s.resp with
  | some (.data v) => v
  | some .written | some (.busError _) | none => 0#32

/-- One step of such a host (R112): one bus access or one branch. The core engine's steps may come between
any two of them (00_scope.md R17). DESIGN CHOICE (log 22): it makes its access whatever the level of rst, though
R284 defines no response while rst is high; the machine's own step refuses such an access (log 8). -/
def hostStep (listing : List HostOp) (h : HostState) (s : State) : HostState × State :=
  match listing[h.line]? with
  | none => (h, s)
  | some (.wr l imm) => ({ h with line := h.line + 1 }, hostAccess s (writeOf l imm))
  | some (.rd l t) =>
    let s' := hostAccess s (readOf l)
    ({ h with line := h.line + 1, vars := (t, s'.readData) :: h.vars }, s')
  | some (.poll l mask val) =>
    let s' := hostAccess s (readOf l)
    (if s'.readData &&& mask = val then { h with line := h.line + 1 } else h, s')
  | some (.expect l val) =>
    let s' := hostAccess s (readOf l)
    ({ h with line := h.line + 1, wrong := h.wrong || s'.readData != val }, s')
  | some (.beq t imm label) => ({ h with line := if h.var t = imm then label else h.line + 1 }, s)
  | some (.bne t imm label) => ({ h with line := if h.var t = imm then h.line + 1 else label }, s)

/-- `n` steps of such a host, with no step of the core engine between them. -/
def hostRun (listing : List HostOp) : Nat → HostState × State → HostState × State
  | 0, hs => hs
  | n + 1, hs => hostRun listing n (hostStep listing hs.1 hs.2)

end Sys2Proof.Machine
end

