-- ==== Sys2Proof/Safety.lean ====
section
/-! DEFINITION. What the claims are stated in: the invariant of every reachable state (10_state.md R52 and
the protocol's), the points at which a step accepts, completes or resets, and the safe outcomes. -/

namespace Sys2Proof.Machine

/-- R41, R52: the canonical alphabet. NBASE is 2 to 256, ALPHA is strictly increasing below it and 0 from it
on, and DEFPAD is its default pad length. -/
abbrev State.AlphabetInv (s : State) : Prop :=
  2 ≤ s.nbase.toNat ∧ s.nbase.toNat ≤ 256 ∧
  s.symbols.Pairwise (· < ·) ∧
  (∀ i : Fin 256, s.nbase.toNat ≤ i.val → s.alpha[i] = 0#32) ∧
  s.defpad.toNat = defaultPadLength s.nbase.toNat

/-- R34, R35, R46: what the report fields of STATUS and ERRIDX hold. While a command runs they are all
clear; ERR is set exactly with a non-zero ERRCODE; ERRIDX is non-zero only with INVALID_CHARACTER. -/
abbrev State.ReportInv (s : State) : Prop :=
  (s.busy = true → s.done = false ∧ s.err = false ∧ s.errIdx = 0#32) ∧
  (s.err = true ↔ s.errcode ≠ .noError) ∧
  (s.errIdx ≠ 0#32 → s.errcode = .invalidCharacter) ∧
  s.errIdx.toNat < 256

/-- R32, R49: the FSM is out of IDLE exactly while BUSY = 1. -/
abbrev State.EngineInv (s : State) : Prop := s.busy = true ↔ s.eng.fsm ≠ .idle

/-- R281, R284: while rst is high the block stays in its reset state. -/
abbrev State.RstInv (s : State) : Prop := s.rst = true → s = blockReset s

/-- The invariant every step keeps. -/
abbrev State.Inv (s : State) : Prop :=
  s.AlphabetInv ∧ s.ReportInv ∧ s.EngineInv ∧ s.RstInv

/-- The next step is a host access. -/
def State.accessDue (s : State) (a : Access) : Prop :=
  s.rst = false ∧ ∃ rest, s.events = .access a :: rest

/-- The next step is a 32-bit host write of `v` at offset `off`. -/
def State.writeDue (s : State) (off : Offset) (v : Word) : Prop :=
  s.accessDue (.write off 4 0xF#4 v)

/-- The next step accepts the command word `w` (R245). -/
def State.acceptDue (s : State) (w : Word) : Prop := s.busy = false ∧ s.writeDue 0x00C#12 w

/-- The next step is the completion of the running command (R249, R250). -/
def State.completionDue (s : State) : Prop :=
  s.busy = true ∧ s.rst = false ∧ (s.events = [] ∨ ∃ rest, s.events = .complete :: rest)

/-- The next step resets the block (R280). -/
def State.resetDue (s : State) : Prop :=
  (∃ rest, s.events = .rst true :: rest) ∨ ∃ v, v.getLsbD 1 = true ∧ s.writeDue 0x008#12 v

/-- The next step drops a host write because BUSY = 1 (R246, R247). -/
def State.dropDue (s : State) : Prop :=
  s.busy = true ∧ ∃ (l : Loc) (v : Word), l ≠ .ctrl ∧ l ≠ .status ∧ s.writeDue l.offset v

/-- The accesses that write 1 to CTRL.SRST. -/
def Access.isSoftReset : Access → Bool
  | .write off bytes strobes data =>
    off == 0x008#12 && bytes == 4 && strobes == 0xF#4 && data.getLsbD 1
  | .read _ _ => false

/-- Every state of the block is `t`'s; what may differ is the core engine's hidden state (R50). -/
def sameButEngine (u t : State) : Prop := { u with eng := t.eng } = t

/-- A step that ends well: a next state, or the refusal of a host access while rst is high (R284). -/
def safeOutcome (s : State) : Host.Outcome State Fault Refusal → Prop
  | .next _ => True
  | .fault _ => False
  | .refused r => r = .accessDuringReset ∧ s.rst = true

/-- A completion without error: BUSY 0, DONE 1, the FSM in IDLE (R249). -/
def State.finished (s : State) : State :=
  { s with busy := false, done := true, eng := { s.eng with fsm := .idle } }

/-- A completion with error `e`: the report and nothing else (R250). -/
def State.failed (s : State) (e : ErrCode) : State := { s with err := true, errcode := e }.finished

/-- The error a command ends in, the first that applies in the order of R244; `noError` for none. -/
def commandError (s : State) : Instr → ErrCode
  | .muladd | .movrv => .noError
  | .divmod =>
    if s.opm = 0#32 then .divByZero
    else if s.opm.toNat ≤ s.rin.toNat then .remRange
    else .noError
  | .div64 => if s.opm = 0#32 then .divByZero else .noError
  | .encode usePad => if usePad = true ∧ 256 < s.padlen.toNat then .lengthRange else .noError
  | .decode strict =>
    if 256 < s.strlen.toNat then .lengthRange
    else if strict = true ∧ s.string.any (fun c => !s.symbols.contains c) = true then .invalidCharacter
    else .noError
  | .abuild =>
    if 256 < s.astageCnt.toNat then .lengthRange
    else if s.staged.dedup.length < 2 then .invalidAlphabet
    else .noError

/-- The error the running command word ends in: ILLEGAL_OPCODE first (R244). -/
def State.wordError (s : State) : ErrCode :=
  match decode s.cmd with
  | .error _ => .illegalOpcode
  | .ok i => commandError s i

/-- The FSM state a word's command starts in (R245). -/
def firstFsm (w : Word) : Fsm :=
  match decode w with
  | .error _ => .illegal
  | .ok .muladd => .maLimb
  | .ok .divmod => .dmCheck
  | .ok .div64 => .d64Check
  | .ok (.encode _) => .enInit
  | .ok (.decode _) => .deInit
  | .ok .abuild => .abCheck
  | .ok .movrv => .completion .noError

/-- The offset of an access. -/
def Access.off : Access → Offset
  | .read off _ => off
  | .write off _ _ _ => off

/-- The accesses R72 and R73 answer with BusError: not 32 bits, a partial strobe, not divisible by 4, or
at an offset in 0x060 to 0x3FF. -/
def Access.bad (a : Access) : Prop :=
  (match a with
    | .read _ bytes => bytes ≠ 4
    | .write _ bytes strobes _ => bytes ≠ 4 ∨ strobes ≠ 0xF#4) ∨
  a.off.toNat % 4 ≠ 0 ∨ (0x060 ≤ a.off.toNat ∧ a.off.toNat < 0x400)

/-- The read-only locations (R74). -/
def Loc.readOnly : Loc → Bool
  | .id | .param | .errIdx | .nbase | .defpad | .res _ | .rem | .ndig | .alpha _ => true
  | .ctrl | .cmd | .status | .val _ | .opm | .opa | .rin | .padlen | .strlen | .astageCnt | .astage _
  | .strbuf _ => false

/-- The read-write locations a write only stores to (R22, R78). -/
def Loc.stores : Loc → Bool
  | .val _ | .opm | .opa | .rin | .padlen | .strlen | .astageCnt | .astage _ | .strbuf _ => true
  | .id | .param | .ctrl | .cmd | .status | .errIdx | .nbase | .defpad | .res _ | .rem | .ndig
  | .alpha _ => false

/-- The reference engine, started on the command of `s`, completes after exactly `n` working steps, and its
completion leaves every state of the block as the command's own does (R19, R50, R301). -/
def engineCompletesAfter (s : State) (n : Nat) : Prop :=
  (∀ m, m < n → engineComplete (engineRun m s) = none) ∧
  ∃ u t, engineComplete (engineRun n s) = some u ∧ runCommand s = .next t ∧ sameButEngine u t

/-- `s` as the accept of its command word left the engine (R245); `e` is what the engine held before. -/
def State.started (s : State) (e : Engine) : State := { s with eng := engineStart s.cmd e }

/-- The base-N digits of a value, least significant first, and one digit 0 for the value 0 (R188). -/
def valueDigits (n : Word) (v : Value) : List Nat :=
  if v = 0#128 then [0] else Nat.digits n.toNat v.toNat

/-- The pad length ENCODE uses where it raises no error (R181). -/
def State.pad (s : State) (usePad : Bool) : Nat := if usePad then s.padlen.toNat else s.defpad.toNat

/-- The nine legal command words (30_encoding.md R105). -/
def legalWords : List Word :=
  [0x00000001#32, 0x00000002#32, 0x00000003#32, 0x00000006#32, 0x00000007#32, 0x00000004#32,
   0x00000204#32, 0x00000005#32, 0x00000105#32]

end Sys2Proof.Machine
end

