-- ==== Sys2Proof/Certificates/Slice0/Obligations.lean ====
section
/-! DEFINITION. The statements for the provers. Each docstring names the rule of spec/ it formalises; a
`derived` one names what it rests on. -/

open Sys2Proof Sys2Proof.Machine

/-! ## Encoding -/

/-- 30_encoding.md section 2 (R105), derived: the nine legal words, written out from the table, name their
commands. -/
def Obligations.LegalWordsNameTheirCommands : Prop :=
  decode 0x00000001#32 = .ok .muladd ∧ decode 0x00000002#32 = .ok .divmod ∧
  decode 0x00000003#32 = .ok .div64 ∧ decode 0x00000004#32 = .ok (.encode false) ∧
  decode 0x00000204#32 = .ok (.encode true) ∧ decode 0x00000005#32 = .ok (.decode false) ∧
  decode 0x00000105#32 = .ok (.decode true) ∧ decode 0x00000006#32 = .ok .abuild ∧
  decode 0x00000007#32 = .ok .movrv

/-- 30_encoding.md sections 1 to 3, derived: the decoder accepts exactly the words the encoder gives, so no
bit of a word is dropped. -/
def Obligations.DecodeAcceptsExactlyEncodedWords : Prop :=
  ∀ (w : Word) (i : Instr), decode w = .ok i ↔ w = encode i

/-- R107: `legal(w)` bit by bit; a word that is not legal completes with ILLEGAL_OPCODE and no other effect.
-/
def Obligations.IllegalWordsCompleteWithIllegalOpcode : Prop :=
  ∀ s : State, s.completionDue →
    let w := s.cmd
    let legal := w.extractLsb' 10 22 = 0#22 ∧
      w.extractLsb' 0 8 ∈ [0x01#8, 0x02#8, 0x03#8, 0x04#8, 0x05#8, 0x06#8, 0x07#8] ∧
      (w.getLsbD 8 = false ∨ w.extractLsb' 0 8 = 0x05#8) ∧
      (w.getLsbD 9 = false ∨ w.extractLsb' 0 8 = 0x04#8)
    (legal ↔ ∃ i, decode w = .ok i) ∧
    (¬ legal → step s = .next ({ s with events := s.events.tail }.failed .illegalOpcode))

/-- R108: decoding is total; a word is one of the nine legal ones and runs its command, or completes with
ILLEGAL_OPCODE. -/
def Obligations.EveryWordIsLegalOrIllegalOpcode : Prop :=
  ∀ s : State, s.completionDue →
    (s.cmd ∈ legalWords ∧
      ∃ i, encode i = s.cmd ∧ step s = exec i { s with events := s.events.tail }) ∨
    (s.cmd ∉ legalWords ∧ step s = .next ({ s with events := s.events.tail }.failed .illegalOpcode))

/-- R106: a word with a reserved OPCODE is accepted like any command and then completes with ILLEGAL_OPCODE,
changing nothing else. -/
def Obligations.ReservedOpcodeIsAcceptedThenFails : Prop :=
  ∀ (s : State) (w : Word) (rest : List Event), s.busy = false → s.rst = false →
    s.events = .access (.write 0x00C#12 4 0xF#4 w) :: .complete :: rest →
    (w.extractLsb' 0 8 = 0x00#8 ∨ 0x08#8 ≤ w.extractLsb' 0 8) →
    ∃ t u, step s = .next t ∧ t.busy = true ∧ t.cmd = w ∧ step t = .next u ∧
      u = { s with
        cmd := w, done := true, err := true, errcode := .illegalOpcode, errIdx := 0#32, eng := u.eng,
        resp := some .written, events := rest } ∧
      u.busy = false ∧ u.eng.fsm = .idle

/-! ## The step -/

/-- 60_exceptions.md section 2, derived: at its completion the word in CMD runs as the command it decodes to.
That the step of a busy block with no event pending IS the completion is the model's choice (log 3, on the
event list of log 1). The last clause is the frame of every other step of the engine or of an idle block (R50,
R262, R282; log 20 for an engine event while no command runs, log 8 for the pin): a step that is no host access,
no completion and no reset keeps every register, file and flag; the hidden state stays too unless a command runs
outside rst; the pin changes at its release alone. -/
def Obligations.StepRunsDecodedCommand : Prop :=
  (∀ (s : State) (i : Instr), s.busy = true → s.rst = false → decode s.cmd = .ok i →
    (s.events = [] → step s = exec i s) ∧
    (∀ rest, s.events = .complete :: rest → step s = exec i { s with events := rest })) ∧
  (∀ s : State, (∀ a rest, s.events ≠ .access a :: rest) → ¬ s.completionDue → ¬ s.resetDue →
    ∃ t, step s = .next t ∧
      t = { s with eng := t.eng, rst := t.rst, events := s.events.tail } ∧
      (s.busy = false ∨ s.rst = true → t.eng = s.eng) ∧
      ((∀ rest, s.events ≠ .rst false :: rest) → t.rst = s.rst))

/-- 30_encoding.md section 1 with log 4, derived: a command word placed by withFetchWord is what the next
step runs, in the state its accept leaves (the placing is the model's choice). -/
def Obligations.PlacedWordRunsNext : Prop :=
  ∀ (s : State) (i : Instr),
    step (s.withFetchWord 32 (encode i).toNat) =
      exec i { accept { s with rst := false } (encode i) with events := s.events }

/-- 60_exceptions.md section 1 (R244's order), derived: every command completes, with exactly the error its
inputs call for, and the same at the level of a step, where an illegal word comes first. -/
def Obligations.EveryCommandCompletesWithItsError : Prop :=
  ∀ s : State, s.AlphabetInv → s.err = false → s.errcode = .noError →
    (∀ i, ∃ t, exec i s = .next t ∧ t.errcode = commandError s i ∧
      (t.err = true ↔ commandError s i ≠ .noError) ∧ t.busy = false ∧ t.done = true) ∧
    (s.completionDue → ∃ t, step s = .next t ∧ t.errcode = s.wordError ∧
      (t.err = true ↔ s.wordError ≠ .noError) ∧ t.busy = false ∧ t.done = true)

/-- R47, R249, R250: what each command writes at its completion, without and with an error, and nothing
else; the last clause is what it writes of STATUS at its accept. -/
def Obligations.CommandsWriteExactlyTheirTable : Prop :=
  (∀ (i : Instr) (s t : State), s.err = false → exec i s = .next t →
    (t.err = false →
      t = (match i with
        | .muladd => { s with res := t.res }
        | .divmod => { s with res := t.res, rem := t.rem, fits64 := t.fits64 }
        | .div64 => { s with res := t.res, rem := t.rem, fits64 := true }
        | .encode _ => { s with strbuf := t.strbuf, strlen := t.strlen, ndig := t.ndig }
        | .decode _ => { s with res := t.res }
        | .abuild => { s with alpha := t.alpha, nbase := t.nbase, defpad := t.defpad }
        | .movrv => { s with val := t.val } : State).finished ∧
      (∀ usePad, i = .encode usePad → ∀ j, t.strlen.toNat ≤ j → t.strbuf[j]? = s.strbuf[j]?)) ∧
    (t.err = true →
      t = { s with errIdx := t.errIdx }.failed t.errcode ∧ t.errcode ≠ .noError ∧
      (t.errcode ≠ .invalidCharacter → t.errIdx = s.errIdx) ∧
      (t.errcode = .invalidCharacter → ∃ c, s.string[t.errIdx.toNat]? = some c ∧ indexOf s c = none ∧
        ∀ j a, j < t.errIdx.toNat → s.string[j]? = some a → indexOf s a ≠ none))) ∧
  (∀ (s t : State) (w : Word), s.acceptDue w → step s = .next t →
    t.busy = true ∧ t.done = false ∧ t.err = false ∧ t.errcode = .noError ∧ t.fits64 = s.fits64)

/-! ## Limb arithmetic -/

/-- R10: bytes and limbs of a Value128, most significant first. -/
def Obligations.BytesAndLimbsAreBigEndian : Prop :=
  ∀ v : Value,
    (∀ b : Fin 16, (valueByte v b).toNat = v.toNat / 2 ^ (120 - 8 * b.val) % 256) ∧
    (∀ k : Fin 4, (limb v k).toNat = v.toNat / 2 ^ (96 - 32 * k.val) % 2 ^ 32) ∧
    limb v 0 = valueByte v 0 ++ valueByte v 1 ++ valueByte v 2 ++ valueByte v 3 ∧
    limb v 1 = valueByte v 4 ++ valueByte v 5 ++ valueByte v 6 ++ valueByte v 7 ∧
    limb v 2 = valueByte v 8 ++ valueByte v 9 ++ valueByte v 10 ++ valueByte v 11 ∧
    limb v 3 = valueByte v 12 ++ valueByte v 13 ++ valueByte v 14 ++ valueByte v 15

/-- R152: a limb step's sum is at most 2^64 - 2^32, so its 64 bits lose nothing. -/
def Obligations.MulLimbStepLosesNothing : Prop :=
  ∀ x m carry a : Word, carry = 0#32 ∨ a = 0#32 →
    x.toNat * m.toNat + carry.toNat + a.toNat ≤ 2 ^ 64 - 2 ^ 32 ∧
    (mulLimb x m carry a).2.toNat * 2 ^ 32 + (mulLimb x m carry a).1.toNat =
      x.toNat * m.toNat + carry.toNat + a.toNat

/-- R153: MULADD in closed form, and the carry it discards. -/
def Obligations.MuladdComputesClosedForm : Prop :=
  ∀ s : State, ∃ t, exec .muladd s = .next t ∧
    t.res.toNat = (s.val.toNat * s.opm.toNat + s.opa.toNat) % 2 ^ 128 ∧
    (muladdCarry s.val s.opm s.opa).2.toNat =
      (s.val.toNat * s.opm.toNat + s.opa.toNat) / 2 ^ 128 ∧
    (s.val.toNat * s.opm.toNat + s.opa.toNat) / 2 ^ 128 < 2 ^ 32 ∧
    t = { s with res := t.res }.finished

/-- R160, R159: DIVMOD in closed form, with the FITS64 tag. -/
def Obligations.DivmodComputesClosedForm : Prop :=
  ∀ s : State, s.opm ≠ 0#32 → s.rin < s.opm → ∃ t, exec .divmod s = .next t ∧
    t.res.toNat = (s.rin.toNat * 2 ^ 128 + s.val.toNat) / s.opm.toNat ∧
    t.rem.toNat = (s.rin.toNat * 2 ^ 128 + s.val.toNat) % s.opm.toNat ∧
    (t.fits64 = true ↔ limb t.res 0 = 0#32 ∧ limb t.res 1 = 0#32) ∧
    (t.fits64 = true → t.res.toNat = (limb t.res 2).toNat * 2 ^ 32 + (limb t.res 3).toNat) ∧
    t = { s with res := t.res, rem := t.rem, fits64 := t.fits64 }.finished

/-- R158: DIVMOD's errors, in order; nothing is committed. -/
def Obligations.DivmodErrorsInOrder : Prop :=
  ∀ s : State,
    (s.opm = 0#32 → exec .divmod s = .next (s.failed .divByZero)) ∧
    (s.opm ≠ 0#32 → s.opm ≤ s.rin → exec .divmod s = .next (s.failed .remRange))

/-- R163: DIV64. -/
def Obligations.DivSixtyFourDividesLowHalf : Prop :=
  ∀ s : State,
    (s.opm = 0#32 → exec .div64 s = .next (s.failed .divByZero)) ∧
    (s.opm ≠ 0#32 → ∃ t, exec .div64 s = .next t ∧
      t.res.toNat = s.val.toNat % 2 ^ 64 / s.opm.toNat ∧
      t.rem.toNat = s.val.toNat % 2 ^ 64 % s.opm.toNat ∧
      t = { s with res := t.res, rem := t.rem, fits64 := true }.finished)

/-- R231: MOVRV copies RES to VAL, register by register, and changes nothing else. -/
def Obligations.MovrvCopiesResToVal : Prop :=
  ∀ s : State, ∃ t, exec .movrv s = .next t ∧
    (∀ k, t.peek (.val k) = s.peek (.res k)) ∧ t = { s with val := t.val }.finished

/-! ## ENCODE -/

/-- R188: the digits of the two phases are the base-N digits of VAL, and there are at most 128. -/
def Obligations.EncodeDigitsAreBaseN : Prop :=
  ∀ (n : Word) (v : Value), 2 ≤ n.toNat →
    let ds := (encodeDigits n v).map BitVec.toNat
    ds = valueDigits n v ∧
    Nat.ofDigits n.toNat ds = v.toNat ∧
    (v ≠ 0#128 → ds.getLast? ≠ some 0 ∧ ∀ m, v.toNat < n.toNat ^ m ↔ ds.length ≤ m) ∧
    (v = 0#128 → ds.length = 1) ∧
    ds.length ≤ 128 ∧
    (n = 2#32 → 2 ^ 127 ≤ v.toNat → ds.length = 128)

/-- R190: how often the two phases run. -/
def Obligations.EncodePhaseCounts : Prop :=
  (∀ (n : Word) (v : Value), 2 ≤ n.toNat →
    let k1 := (encodePhase1 n 128 v).1.length
    let k2 := (encodePhase2 n 128 (encodePhase1 n 128 v).2).length
    1 ≤ k1 ∧ v.toNat / n.toNat ^ k1 < 2 ^ 64 ∧
    (∀ k, 1 ≤ k → v.toNat / n.toNat ^ k < 2 ^ 64 → k1 ≤ k) ∧
    k1 + k2 = (encodeDigits n v).length ∧ k2 ≤ 64 ∧
    (v.toNat < 2 ^ 64 * n.toNat → k1 = 1)) ∧
  (∀ p ∈ [(2, 64), (3, 41), (10, 20), (16, 16), (57, 11), (85, 10), (256, 8)],
    (encodePhase1 (BitVec.ofNat 32 p.1) 128 (BitVec.allOnes 128)).1.length = p.2)

/-- R187, R189: ENCODE's output: L = max(p, ndig) symbols, zero digits first, then the digits of VAL; the
rest of STRBUF and every other state of the block stay. -/
def Obligations.EncodeCommitsPaddedDigits : Prop :=
  ∀ (s : State) (usePad : Bool), s.AlphabetInv → (usePad = true → s.padlen.toNat ≤ 256) →
    let ds := valueDigits s.nbase s.val
    let len := max (s.pad usePad) ds.length
    ∃ t, exec (.encode usePad) s = .next t ∧
      t.strlen.toNat = len ∧ t.ndig.toNat = ds.length ∧ 1 ≤ len ∧ len ≤ 256 ∧
      (∀ j, j < len - ds.length → t.strbuf[j]? = s.alpha[0]?) ∧
      (∀ i d, ds[i]? = some d → t.strbuf[len - 1 - i]? = s.alpha[d]?) ∧
      (∀ j, len ≤ j → t.strbuf[j]? = s.strbuf[j]?) ∧
      (s.nbase = 57#32 → usePad = false →
        (s.val.toNat < 57 ^ 11 → len = 11) ∧ (57 ^ 11 ≤ s.val.toNat → len = ds.length ∧ len ≤ 22)) ∧
      t = { s with strbuf := t.strbuf, strlen := t.strlen, ndig := t.ndig }.finished

/-- R182: LENGTH_RANGE is ENCODE's only error, raised exactly for an explicit pad length above 256, and
nothing is written then. -/
def Obligations.EncodeFailsOnlyOnPadLength : Prop :=
  ∀ (s : State) (usePad : Bool),
    (usePad = true → 256 < s.padlen.toNat → exec (.encode usePad) s = .next (s.failed .lengthRange)) ∧
    (s.AlphabetInv → (usePad = true → s.padlen.toNat ≤ 256) →
      ∃ t, exec (.encode usePad) s = .next t ∧ t.err = s.err ∧ t.errcode = s.errcode)

/-! ## DECODE -/

/-- R215, R213, R214: DECODE in closed form modulo 2^128; an absent symbol counts as digit 0 on the
permissive path; only RES is written. The strict path gives the same where every symbol is in the alphabet
(R216). -/
def Obligations.DecodeComputesPositionalValue : Prop :=
  ∀ (s : State) (strict : Bool), s.strlen.toNat ≤ 256 →
    (strict = true → ∀ c ∈ s.string, c ∈ s.symbols) →
    ∃ t, exec (.decode strict) s = .next t ∧
      t.res.toNat =
        Nat.ofDigits s.nbase.toNat (s.string.map fun c => (indexOf s c).getD 0).reverse % 2 ^ 128 ∧
      t = { s with res := t.res }.finished

/-- R216: strict DECODE stops at the first symbol that is not in the alphabet and reports its index;
LENGTH_RANGE comes before it; with every symbol present it is the permissive DECODE. -/
def Obligations.StrictDecodeReportsFirstAbsentSymbol : Prop :=
  ∀ s : State,
    (256 < s.strlen.toNat → exec (.decode true) s = .next (s.failed .lengthRange)) ∧
    (s.strlen.toNat ≤ 256 → (∀ c ∈ s.string, indexOf s c ≠ none) →
      exec (.decode true) s = exec (.decode false) s) ∧
    (s.strlen.toNat ≤ 256 → ∀ j c, s.string[j]? = some c → indexOf s c = none →
      (∀ i a, i < j → s.string[i]? = some a → indexOf s a ≠ none) →
      exec (.decode true) s =
        .next ({ s with errIdx := BitVec.ofNat 32 j }.failed .invalidCharacter))

/-- R211: a STRLEN above 256 raises LENGTH_RANGE, and RES is unchanged. -/
def Obligations.DecodeChecksLengthFirst : Prop :=
  ∀ (s : State) (strict : Bool), 256 < s.strlen.toNat →
    exec (.decode strict) s = .next (s.failed .lengthRange)

/-- R217: ENCODE, then DECODE of its output under the same alphabet, gives VAL back, in both decode modes
and for every pad length. -/
def Obligations.EncodeDecodeRoundTrip : Prop :=
  ∀ (s : State) (usePad strict : Bool), s.AlphabetInv → (usePad = true → s.padlen.toNat ≤ 256) →
    ∃ t, exec (.encode usePad) s = .next t ∧
      ∀ u : State, u.strbuf = t.strbuf → u.strlen = t.strlen → u.alpha = t.alpha → u.nbase = t.nbase →
        exec (.decode strict) u = .next { u with res := s.val }.finished

/-- R218: leading zero digits do not change what DECODE gives, so two pad lengths decode to one value. -/
def Obligations.LeadingZeroDigitsAreNeutral : Prop :=
  (∀ (s s' : State) (z : Nat), s.AlphabetInv → s'.alpha = s.alpha → s'.nbase = s.nbase →
    s.strlen.toNat ≤ 256 → s'.strlen.toNat ≤ 256 →
    s'.string = List.replicate z (s.symbolAt 0#32) ++ s.string →
    ∃ t t', exec (.decode false) s = .next t ∧ exec (.decode false) s' = .next t' ∧ t'.res = t.res) ∧
  (∀ (s : State) (p1 p2 : Word), s.AlphabetInv → p1 < p2 → p2.toNat ≤ 256 →
    ∃ t1 t2 u1 u2, exec (.encode true) { s with padlen := p1 } = .next t1 ∧
      exec (.encode true) { s with padlen := p2 } = .next t2 ∧
      exec (.decode false) t1 = .next u1 ∧ exec (.decode false) t2 = .next u2 ∧ u1.res = u2.res)

/-- R136: the lookup finds the one position of a symbol, or ABSENT; it inverts ALPHA[d]. -/
def Obligations.IndexOfFindsTheOnePosition : Prop :=
  ∀ s : State, s.AlphabetInv →
    (∀ (c : Word) (i : Nat), indexOf s c = some i ↔ i < s.nbase.toNat ∧ s.alpha[i]? = some c) ∧
    (∀ c : Word, indexOf s c = none ↔ ∀ i, i < s.nbase.toNat → s.alpha[i]? ≠ some c) ∧
    (∀ d : Word, d.toNat < s.nbase.toNat →
      s.alpha[d.toNat]? = some (s.symbolAt d) ∧ indexOf s (s.symbolAt d) = some d.toNat)

/-! ## ABUILD -/

/-- R131: ABUILD commits the distinct staged symbols in increasing order, zeros after them, their number and
its default pad length, and nothing else; or it raises one of its two errors. -/
def Obligations.AbuildCommitsCanonicalAlphabet : Prop :=
  ∀ s : State,
    (256 < s.astageCnt.toNat → exec .abuild s = .next (s.failed .lengthRange)) ∧
    (s.astageCnt.toNat ≤ 256 → s.staged.dedup.length < 2 →
      exec .abuild s = .next (s.failed .invalidAlphabet)) ∧
    (s.astageCnt.toNat ≤ 256 → 2 ≤ s.staged.dedup.length → ∃ t, exec .abuild s = .next t ∧
      t.nbase.toNat = s.staged.dedup.length ∧
      t.symbols.Pairwise (· < ·) ∧ (∀ c, c ∈ t.symbols ↔ c ∈ s.staged) ∧
      (∀ i, t.nbase.toNat ≤ i → i < 256 → t.alpha[i]? = some 0#32) ∧
      t.defpad.toNat = defaultPadLength t.nbase.toNat ∧
      t = { s with alpha := t.alpha, nbase := t.nbase, defpad := t.defpad }.finished)

/-- R132, R133: ABUILD's errors, in order; the previous alphabet stays, and with it the invariant of R52. -/
def Obligations.AbuildErrorsKeepTheAlphabet : Prop :=
  ∀ s : State,
    (256 < s.astageCnt.toNat → exec .abuild s = .next (s.failed .lengthRange)) ∧
    (s.astageCnt.toNat ≤ 256 → s.staged.dedup.length < 2 →
      exec .abuild s = .next (s.failed .invalidAlphabet)) ∧
    (s.astageCnt.toNat ≤ 256 → 2 ≤ s.staged.dedup.length →
      ∃ t, exec .abuild s = .next t ∧ t.err = s.err ∧ t.errcode = s.errcode) ∧
    (∀ t, exec .abuild s = .next t → s.err = false → t.err = true →
      t.alpha = s.alpha ∧ t.nbase = s.nbase ∧ t.defpad = s.defpad ∧ (s.AlphabetInv → t.AlphabetInv))

/-- 40_alphabet.md section 1, derived: ABUILD's outcome depends only on the set of staged symbols, not on
their order or how often each is staged. -/
def Obligations.AbuildDependsOnlyOnTheSet : Prop :=
  ∀ (s : State) (file : Table) (count : Word),
    let s' := { s with astage := file, astageCnt := count }
    s.astageCnt.toNat ≤ 256 → count.toNat ≤ 256 → (∀ c, c ∈ s'.staged ↔ c ∈ s.staged) →
    ∃ t, exec .abuild s = .next t ∧
      exec .abuild s' = .next { t with astage := file, astageCnt := count }

/-- R137: the default pad length is the least P with N^P ≥ 2^64, which is the real-valued formula. -/
def Obligations.DefaultPadLengthIsLeast : Prop :=
  ∀ n : Nat, 2 ≤ n → n ≤ 256 →
    2 ^ 64 ≤ n ^ defaultPadLength n ∧ (∀ p, 2 ^ 64 ≤ n ^ p → defaultPadLength n ≤ p) ∧
    defaultPadLength n = ⌈Real.log (2 ^ 64) / Real.log n⌉₊

/-- R138: the table of default pad lengths. -/
def Obligations.DefaultPadLengthTable : Prop :=
  ∀ row ∈ [(2, 2, 64), (3, 3, 41), (4, 4, 32), (5, 5, 28), (6, 6, 25), (7, 7, 23), (8, 8, 22), (9, 9, 21),
      (10, 10, 20), (11, 11, 19), (12, 13, 18), (14, 15, 17), (16, 19, 16), (20, 23, 15), (24, 30, 14),
      (31, 40, 13), (41, 56, 12), (57, 84, 11), (85, 138, 10), (139, 255, 9), (256, 256, 8)],
    ∀ n, n < 257 → row.1 ≤ n → n ≤ row.2.1 → defaultPadLength n = row.2.2

/-! ## STATUS, the protocol and the interrupt -/

/-- R245: the accept step. -/
def Obligations.AcceptStartsTheCommand : Prop :=
  ∀ (s : State) (w : Word), s.acceptDue w →
    ∃ t, step s = .next t ∧ t.eng.fsm = firstFsm w ∧ t.irq = false ∧
      t = { s with
        cmd := w, busy := true, done := false, err := false, errcode := .noError, errIdx := 0#32,
        eng := t.eng, resp := some .written, events := s.events.tail }

/-- R246, R247: a write while BUSY is dropped and sets OVR; STATUS and CTRL writes are always performed, BUSY or
not, and change nothing else (a soft reset by CTRL is ResetRestoresEveryState's). -/
def Obligations.WritesWhileBusyAreDropped : Prop :=
  ∀ (s : State) (l : Loc) (v : Word), s.writeDue l.offset v →
    (s.busy = true → l ≠ .ctrl → l ≠ .status →
      step s = .next { s with ovr := true, resp := some .written, events := s.events.tail }) ∧
    (l = .status →
      step s = .next { s with
        done := s.done && !v.getLsbD 1, ovr := s.ovr && !v.getLsbD 4,
        resp := some .written, events := s.events.tail }) ∧
    (l = .ctrl → v.getLsbD 1 = false →
      step s = .next { s with
        irqEn := v.getLsbD 0, resp := some .written, events := s.events.tail })

/-- R248: what a read returns while BUSY; where the rule says unspecified, nothing is claimed of the value.
No register changes (log 5: the draw count may). -/
def Obligations.ReadsWhileBusy : Prop :=
  ∀ (s : State) (l : Loc), s.busy = true → s.accessDue (.read l.offset 4) →
    ∃ t v, step s = .next t ∧
      t = { s with resp := some (.data v), draws := t.draws, events := s.events.tail } ∧
      (l = .id → v = 0x53554331#32) ∧ (l = .param → v = 0x01000100#32) ∧
      (l = .ctrl → v = s.ctrlWord) ∧ (l = .cmd → v = s.cmd) ∧
      (l = .status →
        v.getLsbD 0 = true ∧ v.getLsbD 1 = false ∧ v.getLsbD 2 = false ∧ v.getLsbD 4 = s.ovr ∧
        v.extractLsb' 5 3 = 0#3 ∧ v.extractLsb' 8 8 = 0#8 ∧ v.extractLsb' 16 16 = 0#16)

/-- 10_state.md section 4 (R31, R37) with 60_exceptions.md section 1 (the codes of R241), derived: STATUS and
CTRL bit by bit as a host reads them while BUSY = 0. -/
def Obligations.StatusAndCtrlReadTheirFields : Prop :=
  ∀ s : State, s.busy = false →
    (s.accessDue (.read 0x010#12 4) → ∃ t v, step s = .next t ∧ t.resp = some (.data v) ∧
      v.getLsbD 0 = false ∧ v.getLsbD 1 = s.done ∧ v.getLsbD 2 = s.err ∧ v.getLsbD 3 = s.fits64 ∧
      v.getLsbD 4 = s.ovr ∧ v.extractLsb' 5 3 = 0#3 ∧
      v.extractLsb' 8 8 = (match s.errcode with
        | .noError => 0x00#8
        | .illegalOpcode => 0x01#8
        | .divByZero => 0x02#8
        | .remRange => 0x03#8
        | .invalidAlphabet => 0x04#8
        | .invalidCharacter => 0x05#8
        | .lengthRange => 0x06#8) ∧
      v.extractLsb' 16 16 = 0#16) ∧
    (s.accessDue (.read 0x008#12 4) → ∃ t v, step s = .next t ∧ t.resp = some (.data v) ∧
      v.getLsbD 0 = s.irqEn ∧ v.extractLsb' 1 31 = 0#31)

/-- R32: BUSY changes at an accept, a completion and a reset, and at no other step; and the engine stays out
of IDLE, in one command, exactly while BUSY = 1. -/
def Obligations.BusyChangesOnlyAtThreePoints : Prop :=
  ∀ s t : State, step s = .next t →
    (∀ w, s.acceptDue w → t.busy = true) ∧
    (s.completionDue ∨ s.resetDue → t.busy = false) ∧
    ((∀ w, ¬ s.acceptDue w) → ¬ s.completionDue → ¬ s.resetDue → t.busy = s.busy) ∧
    (s.EngineInv → t.EngineInv)

/-- R33: FITS64 is written by a successful DIVMOD, by a successful DIV64 and by reset, and by no other step;
RES holds the full quotient, and where the tag becomes 1 its high half is 0 and its low half the quotient.
-/
def Obligations.FitsTagWrittenOnlyByDivisions : Prop :=
  ∀ s t : State, step s = .next t →
    (s.completionDue → decode s.cmd = .ok .divmod → s.opm ≠ 0#32 → s.rin < s.opm →
      (t.fits64 = true ↔ limb t.res 0 = 0#32 ∧ limb t.res 1 = 0#32) ∧
      t.res.toNat = (s.rin.toNat * 2 ^ 128 + s.val.toNat) / s.opm.toNat ∧
      (t.fits64 = true → high64 t.res = 0#64 ∧ t.res.toNat = (low64 t.res).toNat)) ∧
    (s.completionDue → decode s.cmd = .ok .div64 → s.opm ≠ 0#32 →
      t.fits64 = true ∧ t.res.toNat = s.val.toNat % 2 ^ 64 / s.opm.toNat ∧ high64 t.res = 0#64 ∧
      t.res.toNat = (low64 t.res).toNat) ∧
    (s.resetDue → t.fits64 = false) ∧
    (¬ s.resetDue →
      ¬ (s.completionDue ∧ s.opm ≠ 0#32 ∧
        (decode s.cmd = .ok .div64 ∨ decode s.cmd = .ok .divmod ∧ s.rin < s.opm)) →
      t.fits64 = s.fits64)

/-- R34: DONE is set by every completion, cleared by an accept, a STATUS write with bit 1 and a reset, and
kept by every other step; with IRQ_EN it drives irq. -/
def Obligations.DoneIsSetByEveryCompletion : Prop :=
  ∀ s t : State, step s = .next t →
    (s.completionDue → t.done = true) ∧
    ((∃ w, s.acceptDue w) ∨ (∃ v, v.getLsbD 1 = true ∧ s.writeDue 0x010#12 v) ∨ s.resetDue →
      t.done = false) ∧
    (¬ s.completionDue → (∀ w, ¬ s.acceptDue w) → (∀ v, v.getLsbD 1 = true → ¬ s.writeDue 0x010#12 v) →
      ¬ s.resetDue → t.done = s.done) ∧
    (t.irq = true ↔ t.irqEn = true ∧ t.done = true)

/-- R35: ERR and ERRCODE are cleared by an accept and a reset, written together by a completion with an
error, and kept by every other step. -/
def Obligations.ErrorReportIsWrittenTogether : Prop :=
  ∀ s t : State, step s = .next t →
    ((∃ w, s.acceptDue w) ∨ s.resetDue → t.err = false ∧ t.errcode = .noError) ∧
    (s.completionDue → s.wordError = .noError → t.err = s.err ∧ t.errcode = s.errcode) ∧
    (s.completionDue → s.wordError ≠ .noError → t.err = true ∧ t.errcode = s.wordError) ∧
    ((∀ w, ¬ s.acceptDue w) → ¬ s.completionDue → ¬ s.resetDue → t.err = s.err ∧ t.errcode = s.errcode)

/-- R46: ERRIDX is cleared by an accept and a reset, takes the index of the first absent symbol at the
failure of a strict DECODE, and is kept by every other step. -/
def Obligations.ErridxNamesTheFirstAbsentSymbol : Prop :=
  ∀ s t : State, step s = .next t →
    ((∃ w, s.acceptDue w) ∨ s.resetDue → t.errIdx = 0#32) ∧
    (s.completionDue → s.wordError = .invalidCharacter →
      ∃ c, s.string[t.errIdx.toNat]? = some c ∧ c ∉ s.symbols ∧
        ∀ i a, i < t.errIdx.toNat → s.string[i]? = some a → a ∈ s.symbols) ∧
    ((∀ w, ¬ s.acceptDue w) → ¬ s.resetDue →
      ¬ (s.completionDue ∧ s.wordError = .invalidCharacter) → t.errIdx = s.errIdx)

/-- R36: OVR is set by a dropped write, cleared by a STATUS write with bit 4 and by reset, and kept by every
other step, an accept among them. -/
def Obligations.OverrunFlagIsSticky : Prop :=
  ∀ s t : State, step s = .next t →
    (s.dropDue → t.ovr = true) ∧
    ((∃ v, v.getLsbD 4 = true ∧ s.writeDue 0x010#12 v) ∨ s.resetDue → t.ovr = false) ∧
    (¬ s.dropDue → (∀ v, v.getLsbD 4 = true → ¬ s.writeDue 0x010#12 v) → ¬ s.resetDue → t.ovr = s.ovr)

/-- R253: what lowers the interrupt; a completion raises it where it is enabled. -/
def Obligations.InterruptIsClearedThreeWays : Prop :=
  ∀ s t : State, step s = .next t →
    ((∃ w, s.acceptDue w) ∨ (∃ v, v.getLsbD 1 = true ∧ s.writeDue 0x010#12 v) ∨ s.resetDue →
      t.irq = false) ∧
    (s.completionDue → t.irq = s.irqEn) ∧
    (∀ v, v.getLsbD 0 = false → v.getLsbD 1 = false → s.writeDue 0x008#12 v →
      t.irq = false ∧ t.done = s.done)

/-! ## The register window -/

/-- 20_memory.md section 5 (R79), derived: the offset of every location as the table gives it; the address map
is one to one, and unmapped is exactly what R72 and R73 say. -/
def Obligations.AddressMapIsOneToOne : Prop :=
  (∀ (off : Offset) (l : Loc), Loc.ofOffset off = some l ↔ off = l.offset) ∧
  (∀ off : Offset, Loc.ofOffset off = none ↔
    off.toNat % 4 ≠ 0 ∨ (0x060 ≤ off.toNat ∧ off.toNat < 0x400)) ∧
  [Loc.id, .param, .ctrl, .cmd, .status, .errIdx, .nbase, .defpad].map Loc.offset =
    [0x000#12, 0x004#12, 0x008#12, 0x00C#12, 0x010#12, 0x014#12, 0x018#12, 0x01C#12] ∧
  [Loc.opm, .opa, .rin, .rem, .padlen, .strlen, .ndig, .astageCnt].map Loc.offset =
    [0x040#12, 0x044#12, 0x048#12, 0x04C#12, 0x050#12, 0x054#12, 0x058#12, 0x05C#12] ∧
  (∀ k : Fin 4, (Loc.val k).offset.toNat = 0x020 + 4 * k.val ∧ (Loc.res k).offset.toNat = 0x030 + 4 * k.val) ∧
  (∀ i : Fin 256, (Loc.astage i).offset.toNat = 0x400 + 4 * i.val ∧
    (Loc.alpha i).offset.toNat = 0x800 + 4 * i.val ∧ (Loc.strbuf i).offset.toNat = 0xC00 + 4 * i.val)

/-- R72, R73: every access that is not an aligned 32-bit access at a mapped offset is a BusError and changes
no state; every other one is accepted. -/
def Obligations.BadAccessesAreBusErrors : Prop :=
  ∀ (s : State) (a : Access), s.accessDue a →
    (a.bad → step s = .next { s with resp := some (.busError a.off), events := s.events.tail }) ∧
    (¬ a.bad → ∃ t, step s = .next t ∧ ∀ off, t.resp ≠ some (.busError off))

/-- 20_memory.md sections 2 and 4 with 10_state.md section 2 (R22), derived: while BUSY = 0 a read returns the
stored word and changes nothing, and a write to a read-only location is answered and ignored; the last clause
says which register each location is. -/
def Obligations.IdleReadsReturnAndReadOnlyWritesIgnore : Prop :=
  (∀ (s : State) (l : Loc), s.busy = false →
    (s.accessDue (.read l.offset 4) →
      step s = .next { s with resp := some (.data (s.peek l)), events := s.events.tail }) ∧
    (l.readOnly = true → ∀ v, s.writeDue l.offset v →
      step s = .next { s with resp := some .written, events := s.events.tail })) ∧
  (∀ s : State,
    s.peek .cmd = s.cmd ∧ s.peek .errIdx = s.errIdx ∧ s.peek .nbase = s.nbase ∧ s.peek .defpad = s.defpad ∧
    s.peek .opm = s.opm ∧ s.peek .opa = s.opa ∧ s.peek .rin = s.rin ∧ s.peek .rem = s.rem ∧
    s.peek .padlen = s.padlen ∧ s.peek .strlen = s.strlen ∧ s.peek .ndig = s.ndig ∧
    s.peek .astageCnt = s.astageCnt ∧
    (∀ k : Fin 4, (s.peek (.val k)).toNat = s.val.toNat / 2 ^ (96 - 32 * k.val) % 2 ^ 32 ∧
      (s.peek (.res k)).toNat = s.res.toNat / 2 ^ (96 - 32 * k.val) % 2 ^ 32) ∧
    (∀ i : Fin 256, s.peek (.astage i) = s.astage[i] ∧ s.peek (.alpha i) = s.alpha[i] ∧
      s.peek (.strbuf i) = s.strbuf[i]))

/-- 20_memory.md section 7, derived: a word written to a read-write location while BUSY = 0 is what the next
read of it returns, and no other location changes. -/
def Obligations.WrittenWordIsReadBack : Prop :=
  ∀ (s : State) (l : Loc) (v : Word) (rest : List Event), s.busy = false → s.rst = false →
    l.stores = true →
    s.events = .access (.write l.offset 4 0xF#4 v) :: .access (.read l.offset 4) :: rest →
    ∃ t u, step s = .next t ∧ step t = .next u ∧ u.resp = some (.data v) ∧
      (∀ l', l' ≠ l → t.peek l' = s.peek l') ∧
      t = { s with
        val := t.val, opm := t.opm, opa := t.opa, rin := t.rin, padlen := t.padlen, strlen := t.strlen,
        astageCnt := t.astageCnt, astage := t.astage, strbuf := t.strbuf,
        resp := some .written, events := .access (.read l.offset 4) :: rest }

/-- 20_memory.md sections 1 and 8 with log 13, derived: the window's host addresses and the offsets they
select. -/
def Obligations.WindowAddressesSelectOffsets : Prop :=
  (∀ off : Offset, windowOffset (hostAddress off) = some off) ∧
  (∀ (addr : Nat) (off : Offset), windowOffset addr = some off → addr = hostAddress off) ∧
  baseAddr % 4096 = 0

/-! ## Reset -/

/-- R51: the reset value of every piece of state (the alphabet's 57 words as R140 lists them), which a step that resets the block leaves. The last
clause's four fields are the model's own environment side (log 7). -/
def Obligations.ResetValues : Prop :=
  let s := State.reset
  let alphabet : List Word := [0x32#32, 0x33#32, 0x34#32, 0x35#32, 0x36#32, 0x37#32, 0x38#32, 0x39#32] ++
    [0x41#32, 0x42#32, 0x43#32, 0x44#32, 0x45#32, 0x46#32, 0x47#32, 0x48#32] ++
    [0x4A#32, 0x4B#32, 0x4C#32, 0x4D#32, 0x4E#32] ++
    [0x50#32, 0x51#32, 0x52#32, 0x53#32, 0x54#32, 0x55#32, 0x56#32, 0x57#32, 0x58#32, 0x59#32, 0x5A#32] ++
    [0x61#32, 0x62#32, 0x63#32, 0x64#32, 0x65#32, 0x66#32, 0x67#32, 0x68#32, 0x69#32, 0x6A#32, 0x6B#32] ++
    [0x6D#32, 0x6E#32, 0x6F#32, 0x70#32, 0x71#32, 0x72#32, 0x73#32, 0x74#32, 0x75#32, 0x76#32, 0x77#32, 0x78#32, 0x79#32, 0x7A#32]
  s.peek .id = 0x53554331#32 ∧ s.peek .param = 0x01000100#32 ∧ s.peek .ctrl = 0#32 ∧
  s.peek .cmd = 0#32 ∧ s.peek .status = 0#32 ∧ s.peek .errIdx = 0#32 ∧ s.peek .nbase = 57#32 ∧
  s.peek .defpad = 11#32 ∧ (∀ k, s.peek (.val k) = 0#32 ∧ s.peek (.res k) = 0#32) ∧
  s.peek .opm = 0#32 ∧ s.peek .opa = 0#32 ∧ s.peek .rin = 0#32 ∧ s.peek .rem = 0#32 ∧
  s.peek .padlen = 0#32 ∧ s.peek .strlen = 0#32 ∧ s.peek .ndig = 0#32 ∧ s.peek .astageCnt = 0#32 ∧
  (∀ i, s.peek (.astage i) = 0#32 ∧ s.peek (.strbuf i) = 0#32) ∧
  alphabet.length = 57 ∧ (∀ i : Fin 256, s.peek (.alpha i) = (alphabet[i.val]?).getD 0#32) ∧
  s.eng = ⟨.idle, 0, 0#32, 0#32, 0#128, 0#128, 0#128, 0#64, 0#128, Vector.replicate 256 0#32, 0, 0, 0, 0, 0,
    0#32, Vector.replicate 256 0#32, []⟩ ∧
  s.irq = false ∧
  (∀ u t : State, u.resetDue → step u = .next t →
    t = { State.reset with rst := t.rst, events := t.events, resp := t.resp, draws := t.draws })

/-- R281, R283: the rst pin and CTRL.SRST reset every piece of the block's state, BUSY or not; the other
bits of the CTRL write are discarded. What is kept is the model's own environment side (log 7). -/
def Obligations.ResetRestoresEveryState : Prop :=
  (∀ (s : State) (v : Word), v.getLsbD 1 = true → s.writeDue 0x008#12 v →
    step s = .next { State.reset with
      events := s.events.tail, resp := some .written, draws := s.draws }) ∧
  (∀ (s : State) (rest : List Event), s.events = .rst true :: rest →
    step s = .next { State.reset with rst := true, events := rest, resp := s.resp, draws := s.draws }) ∧
  State.reset.peek .ctrl = 0#32 ∧ State.reset.irq = false ∧ State.reset.eng.fsm = .idle ∧
  (∀ s : State, (s.peek .ctrl).getLsbD 1 = false) ∧
  (∀ (s : State) (v : Word), v.getLsbD 1 = false → s.writeDue 0x008#12 v →
    ∃ t, step s = .next t ∧ t.irqEn = v.getLsbD 0)

/-- 70_reset_and_hazards.md section 1 (R282, R284), derived: the machine starts in its reset state, with rst low
(the model's choice, log 7); a host access while rst is high is refused (log 8); the release of rst keeps every
other piece of state, and a host write to CMD that follows it after a reset is accepted. -/
def Obligations.NoHostStepDuringRst : Prop :=
  Sys2Proof.core.reset = State.reset ∧ State.reset.rst = false ∧
  (∀ (s : State) (a : Access) (rest : List Event), s.rst = true → s.events = .access a :: rest →
    step s = .refused .accessDuringReset) ∧
  (∀ (s : State) (rest : List Event), s.events = .rst false :: rest →
    step s = .next { s with rst := false, events := rest }) ∧
  (∀ (s : State) (w : Word) (rest : List Event),
    s.events = .rst true :: .rst false :: .access (.write 0x00C#12 4 0xF#4 w) :: rest →
    ∃ t : State, Sys2Proof.core.run 3 s = .next t ∧ t.busy = true ∧ t.cmd = w ∧ t.events = rest)

/-! ## Invariants and the whole machine -/

/-- 10_state.md section 8, derived: the reset state meets State.Inv. -/
def Obligations.InvariantHoldsAtReset : Prop := State.reset.Inv

/-- 10_state.md section 8 (R52), with R32, R35, R46 and R281, derived: every step keeps the canonical
alphabet and the protocol's invariant. -/
def Obligations.StepKeepsInvariant : Prop :=
  ∀ s t : State, s.Inv → step s = .next t → t.Inv

/-- 10_state.md section 8 with 42_encoder.md section 1, derived: from a state that meets the invariant no
step faults, and the only step refused is a host access while rst is high. -/
def Obligations.InvariantStatesAreSafe : Prop :=
  ∀ s : State, s.Inv → safeOutcome s (step s)

/-- R19: a command's result is a function of the state at its accept and its word: any host accesses (but a
soft reset) and working steps that come before the completion change nothing of it. What they do change is
IRQ_EN, OVR, the bus's answer, the draws and the hidden state. -/
def Obligations.ResultIndependentOfInterleaving : Prop :=
  ∀ (s : State) (es : List Event), s.AlphabetInv → s.busy = true → s.rst = false →
    (∀ e ∈ es, e = .work ∨ ∃ a, e = .access a ∧ a.isSoftReset = false) →
    ∃ t u : State, Sys2Proof.core.run (es.length + 1) { s with events := es ++ [.complete] } = .next t ∧
      Sys2Proof.core.run 1 { s with events := [.complete] } = .next u ∧
      { t with irqEn := u.irqEn, ovr := u.ovr, resp := u.resp, draws := u.draws, eng := u.eng } = u

/-! ## The reference engine -/

/-- 41_limb_arith.md section 4 (R165) with 70_reset_and_hazards.md section 4, derived: the reference
engine's limb commands, MOVRV and an illegal word end as the commands do, after the reference number of steps;
that of D64_DIV is open, one step and Config.div64ExtraSteps more (the model's choice, log 12). -/
def Obligations.ReferenceLimbEngineAgrees : Prop :=
  ∀ (s : State) (e : Engine),
    (decode s.cmd = .ok .muladd → engineCompletesAfter (s.started e) 4) ∧
    (decode s.cmd = .ok .divmod →
      engineCompletesAfter (s.started e) (if s.opm = 0#32 ∨ s.opm ≤ s.rin then 1 else 5)) ∧
    (decode s.cmd = .ok .div64 →
      engineCompletesAfter (s.started e) (if s.opm = 0#32 then 1 else 2 + Config.div64ExtraSteps s.words)) ∧
    (decode s.cmd = .ok .movrv → engineCompletesAfter (s.started e) 0) ∧
    ((∀ i, decode s.cmd ≠ .ok i) → engineCompletesAfter (s.started e) 0)

/-- 43_decoder.md section 2 (R219) with 70_reset_and_hazards.md section 4, derived: the reference decoder
FSM ends as DECODE does; 3 + 5n cycles for a string of n symbols, the last of them the completion. -/
def Obligations.ReferenceDecoderAgrees : Prop :=
  ∀ (s : State) (e : Engine) (strict : Bool), decode s.cmd = .ok (.decode strict) →
    (256 < s.strlen.toNat → engineCompletesAfter (s.started e) 1) ∧
    (s.strlen.toNat ≤ 256 → (strict = true → ∀ c ∈ s.string, c ∈ s.symbols) →
      engineCompletesAfter (s.started e) (2 + 5 * s.strlen.toNat)) ∧
    (s.strlen.toNat ≤ 256 → strict = true → ∀ j c, s.string[j]? = some c → c ∉ s.symbols →
      (∀ i a, i < j → s.string[i]? = some a → a ∈ s.symbols) →
      engineCompletesAfter (s.started e) (2 + 5 * j))

/-- 42_encoder.md section 2 (R191) with 70_reset_and_hazards.md section 4, derived: the reference encoder
FSM ends as ENCODE does; 5 + 3 k1 + 2 L cycles, the last of them the completion. -/
def Obligations.ReferenceEncoderAgrees : Prop :=
  ∀ (s : State) (e : Engine) (usePad : Bool), decode s.cmd = .ok (.encode usePad) → s.AlphabetInv →
    (usePad = true → 256 < s.padlen.toNat → engineCompletesAfter (s.started e) 1) ∧
    ((usePad = true → s.padlen.toNat ≤ 256) →
      engineCompletesAfter (s.started e)
        (4 + 3 * (encodePhase1 s.nbase 128 s.val).1.length +
          2 * max (s.pad usePad) (valueDigits s.nbase s.val).length))

/-- 40_alphabet.md section 5 (R141) with log 12, derived: the reference FSM of ABUILD ends as ABUILD does,
its open step counts free. -/
def Obligations.ReferenceAlphabetBuilderAgrees : Prop :=
  ∀ (s : State) (e : Engine), decode s.cmd = .ok .abuild →
    (256 < s.astageCnt.toNat → engineCompletesAfter (s.started e) 1) ∧
    (s.astageCnt.toNat ≤ 256 → s.staged.dedup.length < 2 →
      engineCompletesAfter (s.started e) (3 + Config.sortExtraSteps s.words)) ∧
    (s.astageCnt.toNat ≤ 256 → 2 ≤ s.staged.dedup.length →
      engineCompletesAfter (s.started e)
        (4 + Config.sortExtraSteps s.words + Config.padExtraSteps s.words))

/-! ## SUC-asm -/

/-- R113: each command mnemonic expands to one write of its word to CMD, and the word names a command. -/
def Obligations.MnemonicsExpandToCommandWrites : Prop :=
  (∀ m : Mnemonic, (Pseudo.command m).expand.flatMap (HostOp.accesses 0) =
    [.write 0x00C#12 4 0xF#4 m.word]) ∧
  [Mnemonic.muladd, .divmod, .div64, .encode, .encodePad, .decode, .decodeStrict, .abuild, .movrv].map
      (fun m => (m.word, decode m.word)) =
    [(0x00000001#32, .ok .muladd), (0x00000002#32, .ok .divmod), (0x00000003#32, .ok .div64),
     (0x00000004#32, .ok (.encode false)), (0x00000204#32, .ok (.encode true)),
     (0x00000005#32, .ok (.decode false)), (0x00000105#32, .ok (.decode true)),
     (0x00000006#32, .ok .abuild), (0x00000007#32, .ok .movrv)]

/-- 30_encoding.md section 6 (R112, R114), derived: ld128, ldstr and ldalpha, run on an idle block, load VAL, the
string and the staged set (of at most 256 characters; for more see log 21), and change nothing else. A rd128
sets the 128-bit variable to RES, and a branch on it compares all 128 bits (host variables: log 17). That these accesses are performed with rst
high too is the model's choice (log 22). -/
def Obligations.LoadPseudosLoadTheirTargets : Prop :=
  ∀ s : State, s.busy = false →
    (∀ v : Value, ((Pseudo.ld128 v).expand.flatMap (HostOp.accesses 0)).foldl hostAccess s =
      { s with val := v, resp := some .written }) ∧
    (∀ codes : List Word, codes.length ≤ 256 →
      ∃ t, ((Pseudo.ldstr codes).expand.flatMap (HostOp.accesses 0)).foldl hostAccess s = t ∧
        t.string = codes ∧ t.strlen.toNat = codes.length ∧
        (∀ j, codes.length ≤ j → t.strbuf[j]? = s.strbuf[j]?) ∧
        t = { s with strbuf := t.strbuf, strlen := t.strlen, resp := some .written }) ∧
    (∀ codes : List Word, codes.length ≤ 256 →
      ∃ t, ((Pseudo.ldalpha codes).expand.flatMap (HostOp.accesses 0)).foldl hostAccess s = t ∧
        t.staged = codes ∧ t.astageCnt.toNat = codes.length ∧
        (∀ j, codes.length ≤ j → t.astage[j]? = s.astage[j]?) ∧
        t = { s with astage := t.astage, astageCnt := t.astageCnt, resp := some .written }) ∧
    (∀ (h : HostState) (q : Nat) (imm : Value) (label : Nat), h.line = 0 →
      let read := hostRun (Pseudo.rd128 q).expand 4 (h, s)
      let beq := hostRun ((Pseudo.rd128 q).expand ++ [.beq (.wide q) imm label]) 5 (h, s)
      let bne := hostRun ((Pseudo.rd128 q).expand ++ [.bne (.wide q) imm label]) 5 (h, s)
      read.1.var (.wide q) = s.res ∧ read.1.line = 4 ∧
      read.2 = { s with resp := some (.data (s.peek (.res 3))) } ∧
      beq.1.line = (if s.res = imm then label else 5) ∧ beq.2 = read.2 ∧
      bne.1.line = (if s.res = imm then 5 else label) ∧ bne.2 = read.2)
end

