-- ==== Sys2Proof/Laws/Limb.lean ====
section
/-! SUPPORT. Limbs as numbers, and what a limb step of the division computes. -/

namespace Sys2Proof.Machine

/-- R10, as a number. -/
theorem limb_toNat (v : Value) (k : Fin 4) :
    (limb v k).toNat = v.toNat / 2 ^ (96 - 32 * k.val) % 2 ^ 32 := by
  simp [limb, BitVec.extractLsb'_toNat, Nat.shiftRight_eq_div_pow]

theorem append_toNat {m n : Nat} (x : BitVec m) (y : BitVec n) :
    (x ++ y).toNat = x.toNat * 2 ^ n + y.toNat := by
  rw [BitVec.toNat_append, Nat.shiftLeft_eq, Nat.mul_comm, Nat.two_pow_add_eq_or_of_lt y.isLt]

/-- R24, as a number. -/
theorem ofLimbs_toNat (a b c d : Word) :
    (ofLimbs a b c d).toNat =
      a.toNat * 2 ^ 96 + b.toNat * 2 ^ 64 + c.toNat * 2 ^ 32 + d.toNat := by
  simp only [ofLimbs, append_toNat]
  omega

@[simp] theorem limb_ofLimbs_0 (a b c d : Word) : limb (ofLimbs a b c d) 0 = a := by
  apply BitVec.eq_of_toNat_eq
  rw [limb_toNat, ofLimbs_toNat]
  have := a.isLt; have := b.isLt; have := c.isLt; have := d.isLt
  simp; omega

@[simp] theorem limb_ofLimbs_1 (a b c d : Word) : limb (ofLimbs a b c d) 1 = b := by
  apply BitVec.eq_of_toNat_eq
  rw [limb_toNat, ofLimbs_toNat]
  have := a.isLt; have := b.isLt; have := c.isLt; have := d.isLt
  simp; omega

@[simp] theorem limb_ofLimbs_2 (a b c d : Word) : limb (ofLimbs a b c d) 2 = c := by
  apply BitVec.eq_of_toNat_eq
  rw [limb_toNat, ofLimbs_toNat]
  have := a.isLt; have := b.isLt; have := c.isLt; have := d.isLt
  simp; omega

@[simp] theorem limb_ofLimbs_3 (a b c d : Word) : limb (ofLimbs a b c d) 3 = d := by
  apply BitVec.eq_of_toNat_eq
  rw [limb_toNat, ofLimbs_toNat]
  have := a.isLt; have := b.isLt; have := c.isLt; have := d.isLt
  simp; omega

/-- A value is its four limbs (R24). -/
theorem ofLimbs_limb (v : Value) : ofLimbs (limb v 0) (limb v 1) (limb v 2) (limb v 3) = v := by
  apply BitVec.eq_of_toNat_eq
  rw [ofLimbs_toNat, limb_toNat, limb_toNat, limb_toNat, limb_toNat]
  have := v.isLt
  simp; omega

/-- The written limb of a register write. -/
theorem limb_setLimb_same (v : Value) (k : Fin 4) (x : Word) : limb (setLimb v k x) k = x := by
  fin_cases k <;> simp [setLimb]

/-- The other limbs of a register write. -/
theorem limb_setLimb_other (v : Value) (k i : Fin 4) (x : Word) (h : i ≠ k) :
    limb (setLimb v k x) i = limb v i := by
  fin_cases k <;> fin_cases i <;> simp_all [setLimb]

theorem low64_toNat (v : Value) : (low64 v).toNat = v.toNat % 2 ^ 64 := by
  simp [low64, BitVec.extractLsb'_toNat]

/-- The tag of R159 as a bound on the number. -/
theorem quotientFits64_iff (q : Value) : quotientFits64 q = true ↔ q.toNat < 2 ^ 64 := by
  simp only [quotientFits64, Bool.and_eq_true, beq_iff_eq, ← BitVec.toNat_inj, limb_toNat]
  have := q.isLt
  simp; omega

/-- One limb step of the division (R157): exact while the running remainder is below the divisor. -/
theorem divLimb_spec (r x d : Word) (h : r < d) :
    (divLimb r x d).1.toNat = (r.toNat * 2 ^ 32 + x.toNat) / d.toNat ∧
    (divLimb r x d).2.toNat = (r.toNat * 2 ^ 32 + x.toNat) % d.toNat := by
  have hr : r.toNat < d.toNat := h
  have hd : 0 < d.toNat := by omega
  have hq : (r.toNat * 2 ^ 32 + x.toNat) / d.toNat < 2 ^ 32 := by
    rw [Nat.div_lt_iff_lt_mul hd]
    have hx := x.isLt
    nlinarith
  have hm := Nat.mod_lt (r.toNat * 2 ^ 32 + x.toNat) hd
  have hd' := d.isLt
  have hdw : d.toNat % 2 ^ 64 = d.toNat := Nat.mod_eq_of_lt (by omega)
  constructor
  · simp only [divLimb, BitVec.toNat_setWidth, BitVec.toNat_udiv, BitVec.truncate_eq_setWidth,
      append_toNat, hdw]
    exact Nat.mod_eq_of_lt hq
  · simp only [divLimb, BitVec.toNat_setWidth, BitVec.toNat_umod, BitVec.truncate_eq_setWidth,
      append_toNat, hdw]
    exact Nat.mod_eq_of_lt (by omega)

/-- The native divide step (R163). -/
theorem div64Step_spec (n : Wide) (d : Word) (h : d ≠ 0#32) :
    (div64Step n d).1.toNat = n.toNat / d.toNat ∧ (div64Step n d).2.toNat = n.toNat % d.toNat := by
  have hd : 0 < d.toNat := by
    rcases Nat.eq_zero_or_pos d.toNat with h0 | h0
    · exact absurd (BitVec.eq_of_toNat_eq (by simpa using h0)) h
    · exact h0
  have hdl := d.isLt
  have hdw : d.toNat % 2 ^ 64 = d.toNat := Nat.mod_eq_of_lt (by omega)
  have hm := Nat.mod_lt n.toNat hd
  simp only [div64Step, BitVec.toNat_setWidth, BitVec.toNat_udiv, BitVec.toNat_umod,
    BitVec.truncate_eq_setWidth, hdw, true_and]
  exact Nat.mod_eq_of_lt (by omega)

/-- A value as the sum of its limbs (R10). -/
theorem value_toNat (v : Value) :
    v.toNat = (limb v 0).toNat * 2 ^ 96 + (limb v 1).toNat * 2 ^ 64 + (limb v 2).toNat * 2 ^ 32 +
      (limb v 3).toNat := by
  conv_lhs => rw [← ofLimbs_limb v]
  rw [ofLimbs_toNat]

/-- One limb step of the multiply-add (R151): exact while its sum fits in 64 bits. -/
theorem mulLimb_spec (x m c a : Word) (h : x.toNat * m.toNat + c.toNat + a.toNat < 2 ^ 64) :
    (mulLimb x m c a).2.toNat * 2 ^ 32 + (mulLimb x m c a).1.toNat =
      x.toNat * m.toNat + c.toNat + a.toNat := by
  have hx := x.isLt; have hm := m.isLt; have hc := c.isLt; have ha := a.isLt
  have ht : (x.zeroExtend 64 * m.zeroExtend 64 + c.zeroExtend 64 + a.zeroExtend 64).toNat =
      x.toNat * m.toNat + c.toNat + a.toNat := by
    simp only [BitVec.toNat_add, BitVec.toNat_mul, BitVec.toNat_setWidth, BitVec.truncate_eq_setWidth]
    rw [Nat.mod_eq_of_lt (a := x.toNat) (by omega), Nat.mod_eq_of_lt (a := m.toNat) (by omega),
      Nat.mod_eq_of_lt (a := c.toNat) (by omega), Nat.mod_eq_of_lt (a := a.toNat) (by omega)]
    omega
  simp only [mulLimb, BitVec.extractLsb'_toNat, ht, Nat.shiftRight_eq_div_pow]
  omega

/-- The product of two words leaves room for one more word. -/
theorem word_mul_le (x m : Word) : x.toNat * m.toNat ≤ (2 ^ 32 - 1) * (2 ^ 32 - 1) :=
  Nat.mul_le_mul (by have := x.isLt; omega) (by have := m.isLt; omega)

/-- `muladd32` with the carry it drops (R151). -/
theorem muladdCarry_spec (v : Value) (m a : Word) :
    (muladdCarry v m a).2.toNat * 2 ^ 128 + (muladdCarry v m a).1.toNat = v.toNat * m.toNat + a.toNat := by
  have hz : (0#32 : Word).toNat = 0 := rfl
  have one : ∀ x c : Word, x.toNat * m.toNat + c.toNat < 2 ^ 64 := fun x c => by
    have := word_mul_le x m; have := c.isLt; omega
  have one' : ∀ x c : Word, x.toNat * m.toNat + (0#32 : Word).toNat + c.toNat < 2 ^ 64 := fun x c => by
    have := one x c; omega
  have one'' : ∀ x c : Word, x.toNat * m.toNat + c.toNat + (0#32 : Word).toNat < 2 ^ 64 := fun x c => by
    have := one x c; omega
  rw [value_toNat v]
  simp only [muladdCarry]
  have e3 := mulLimb_spec (limb v 3) m 0#32 a (one' _ _)
  generalize mulLimb (limb v 3) m 0#32 a = s3 at *
  have e2 := mulLimb_spec (limb v 2) m s3.2 0#32 (one'' _ _)
  generalize mulLimb (limb v 2) m s3.2 0#32 = s2 at *
  have e1 := mulLimb_spec (limb v 1) m s2.2 0#32 (one'' _ _)
  generalize mulLimb (limb v 1) m s2.2 0#32 = s1 at *
  have e0 := mulLimb_spec (limb v 0) m s1.2 0#32 (one'' _ _)
  generalize mulLimb (limb v 0) m s1.2 0#32 = s0 at *
  rw [ofLimbs_toNat]
  rw [hz] at e3 e2 e1 e0
  nlinarith [e3, e2, e1, e0]

/-- `muladd32` modulo 2^128 (R151). -/
theorem muladd32_toNat (v : Value) (m a : Word) :
    (muladd32 v m a).toNat = (v.toNat * m.toNat + a.toNat) % 2 ^ 128 := by
  have h := muladdCarry_spec v m a
  have := (muladdCarry v m a).1.isLt
  unfold muladd32
  omega

/-- `divmod32` (R157), from an incoming remainder below the divisor. -/
theorem divmod32_spec (v : Value) (d r : Word) (h : r < d) :
    (divmod32 v d r).1.toNat = (r.toNat * 2 ^ 128 + v.toNat) / d.toNat ∧
    (divmod32 v d r).2.toNat = (r.toNat * 2 ^ 128 + v.toNat) % d.toNat := by
  have hd : 0 < d.toNat := by have : r.toNat < d.toNat := h; omega
  have one : ∀ r x : Word, r < d → (divLimb r x d).2 < d ∧
      (divLimb r x d).1.toNat * d.toNat + (divLimb r x d).2.toNat = r.toNat * 2 ^ 32 + x.toNat := by
    intro r x hr
    obtain ⟨h1, h2⟩ := divLimb_spec r x d hr
    constructor
    · rw [BitVec.lt_def, h2]; exact Nat.mod_lt _ hd
    · rw [h1, h2]; exact Nat.div_add_mod' _ _
  rw [value_toNat v]
  simp only [divmod32]
  obtain ⟨l0, e0⟩ := one r (limb v 0) h
  generalize divLimb r (limb v 0) d = s0 at *
  obtain ⟨l1, e1⟩ := one s0.2 (limb v 1) l0
  generalize divLimb s0.2 (limb v 1) d = s1 at *
  obtain ⟨l2, e2⟩ := one s1.2 (limb v 2) l1
  generalize divLimb s1.2 (limb v 2) d = s2 at *
  obtain ⟨l3, e3⟩ := one s2.2 (limb v 3) l2
  generalize divLimb s2.2 (limb v 3) d = s3 at *
  rw [ofLimbs_toNat]
  have hl : s3.2.toNat < d.toNat := l3
  have key : r.toNat * 2 ^ 128 + ((limb v 0).toNat * 2 ^ 96 + (limb v 1).toNat * 2 ^ 64 +
      (limb v 2).toNat * 2 ^ 32 + (limb v 3).toNat) =
      (s0.1.toNat * 2 ^ 96 + s1.1.toNat * 2 ^ 64 + s2.1.toNat * 2 ^ 32 + s3.1.toNat) * d.toNat +
        s3.2.toNat := by nlinarith
  rw [key]
  generalize s0.1.toNat * 2 ^ 96 + s1.1.toNat * 2 ^ 64 + s2.1.toNat * 2 ^ 32 + s3.1.toNat = q
  constructor
  · rw [Nat.add_comm, Nat.add_mul_div_right _ _ hd, Nat.div_eq_of_lt hl]; omega
  · rw [Nat.add_comm, Nat.add_mul_mod_self_right, Nat.mod_eq_of_lt hl]

/-- `divmod32` from remainder 0, as the encoder uses it (R183). -/
theorem divmod32_zero (v : Value) (n : Word) (h : 2 ≤ n.toNat) :
    (divmod32 v n 0#32).1.toNat = v.toNat / n.toNat ∧ (divmod32 v n 0#32).2.toNat = v.toNat % n.toNat := by
  have hz : (0#32 : Word).toNat = 0 := rfl
  have := divmod32_spec v n 0#32 (by rw [BitVec.lt_def]; omega)
  simpa [hz] using this

end Sys2Proof.Machine
end

