-- ==== Sys2Proof/Laws/Tables.lean ====
section
/-! SUPPORT. Files of words, the symbol lookup, and the canonical list of a set of symbols. -/

namespace Sys2Proof

/-- An entry of an overlaid list. -/
theorem overlay_getElem? (new old : List Word) (i : Nat) (h : i < old.length) :
    (overlay new old)[i]? = if i < new.length then new[i]? else old[i]? := by
  induction new generalizing old i with
  | nil => simp [overlay]
  | cons w new ih =>
    cases old with
    | nil => simp at h
    | cons o old =>
      cases i with
      | zero => simp [overlay]
      | succ i => simpa [overlay] using ih old i (by simpa using h)

/-- An entry of a written file: new below the list's length, as before from it on. -/
theorem Table.write_getElem? (t : Table) (new : List Word) (i : Nat) (h : i < 256) :
    (Table.write t new)[i]? = if i < new.length then new[i]? else t[i]? := by
  have hl : t.toList.length = 256 := by simp
  have := overlay_getElem? new t.toList i (by omega)
  simpa [Table.write] using this

/-- The list of a file written with no more words than it holds. -/
theorem overlay_eq_append (new old : List Word) (h : new.length ≤ old.length) :
    overlay new old = new ++ old.drop new.length := by
  induction new generalizing old with
  | nil => simp [overlay]
  | cons w new ih =>
    cases old with
    | nil => simp at h
    | cons o old => simp [overlay, ih old (by simpa using h)]

theorem Table.write_toList (t : Table) (new : List Word) (h : new.length ≤ 256) :
    (Table.write t new).toList = new ++ t.toList.drop new.length := by
  have := overlay_eq_append new t.toList (by simpa using h)
  simpa [Table.write] using this

namespace Machine

/-- What a lookup returns: the first position of the symbol (R136). -/
theorem findSymbol_eq_some (c : Word) (l : List Word) (i n : Nat) :
    findSymbol c l i = some n ↔
      ∃ k, n = i + k ∧ l[k]? = some c ∧ ∀ m, m < k → l[m]? ≠ some c := by
  induction l generalizing i with
  | nil => simp [findSymbol]
  | cons a l ih =>
    by_cases h : a = c
    · simp only [findSymbol, h, if_true, Option.some.injEq]
      constructor
      · rintro rfl
        exact ⟨0, by simp, by simp, by simp⟩
      · rintro ⟨k, rfl, -, hk⟩
        cases k with
        | zero => rfl
        | succ k => exact absurd (by simp) (hk 0 (by omega))
    · simp only [findSymbol, h, if_false, ih]
      constructor
      · rintro ⟨k, rfl, hk, hm⟩
        refine ⟨k + 1, by omega, by simpa using hk, ?_⟩
        intro m hlt
        cases m with
        | zero => simpa using h
        | succ m => simpa using hm m (by omega)
      · rintro ⟨k, rfl, hk, hm⟩
        cases k with
        | zero => simp [h] at hk
        | succ k =>
          exact ⟨k, by omega, by simpa using hk, fun m hlt => by simpa using hm (m + 1) (by omega)⟩

/-- A lookup fails exactly for a symbol that is not in the list (R136). -/
theorem findSymbol_eq_none (c : Word) (l : List Word) (i : Nat) :
    findSymbol c l i = none ↔ c ∉ l := by
  induction l generalizing i with
  | nil => simp [findSymbol]
  | cons a l ih =>
    by_cases h : a = c
    · simp [findSymbol, h]
    · simp [findSymbol, h, ih, Ne.symm h]

/-- A position found is inside the list. -/
theorem findSymbol_lt (c : Word) (l : List Word) (i n : Nat) (h : findSymbol c l i = some n) :
    n < i + l.length := by
  obtain ⟨k, rfl, hk, -⟩ := (findSymbol_eq_some c l i n).1 h
  have := (List.getElem?_eq_some_iff.1 hk).1
  omega

theorem mem_insertSymbol (c x : Word) (l : List Word) : x ∈ insertSymbol c l ↔ x = c ∨ x ∈ l := by
  induction l with
  | nil => simp [insertSymbol]
  | cons a l ih =>
    simp only [insertSymbol]
    split
    · simp
    · split
      · rename_i h; subst h; simp
      · simp only [List.mem_cons, ih]; tauto

theorem insertSymbol_pairwise (c : Word) (l : List Word) (h : l.Pairwise (· < ·)) :
    (insertSymbol c l).Pairwise (· < ·) := by
  induction l with
  | nil => simp [insertSymbol]
  | cons a l ih =>
    obtain ⟨ha, hl⟩ := List.pairwise_cons.1 h
    simp only [insertSymbol]
    split
    · rename_i hc
      refine List.pairwise_cons.2 ⟨?_, h⟩
      intro x hx
      rcases List.mem_cons.1 hx with rfl | hx
      · exact hc
      · exact BitVec.lt_trans hc (ha x hx)
    · split
      · exact h
      · rename_i h1 h2
        refine List.pairwise_cons.2 ⟨?_, ih hl⟩
        intro x hx
        rcases (mem_insertSymbol c x l).1 hx with rfl | hx
        · have h3 : a.toNat ≠ x.toNat := fun h => h2 (BitVec.eq_of_toNat_eq h.symm)
          simp only [BitVec.lt_def] at h1 ⊢
          omega
        · exact ha x hx

/-- The canonical list holds exactly the symbols given (R131). -/
theorem mem_canonical (x : Word) (l : List Word) : x ∈ canonical l ↔ x ∈ l := by
  induction l with
  | nil => simp [canonical]
  | cons a l ih =>
    have : canonical (a :: l) = insertSymbol a (canonical l) := rfl
    simp [this, mem_insertSymbol, ih]

/-- The canonical list is strictly increasing (R131). -/
theorem canonical_pairwise (l : List Word) : (canonical l).Pairwise (· < ·) := by
  induction l with
  | nil => simp [canonical]
  | cons a l ih => exact insertSymbol_pairwise a _ ih

/-- A strictly increasing list has no repeats. -/
theorem nodup_of_pairwise_lt (l : List Word) (h : l.Pairwise (· < ·)) : l.Nodup :=
  h.imp fun {a b} hab => by rintro rfl; exact absurd hab (BitVec.lt_irrefl a)

/-- The canonical list has one entry for each distinct symbol. -/
theorem canonical_length (l : List Word) : (canonical l).length = l.dedup.length := by
  have h1 : (canonical l).Nodup := nodup_of_pairwise_lt _ (canonical_pairwise l)
  have h2 : l.dedup.Nodup := List.nodup_dedup l
  exact ((List.perm_ext_iff_of_nodup h1 h2).2 fun x => by simp [mem_canonical]).length_eq

theorem canonical_length_le (l : List Word) : (canonical l).length ≤ l.length := by
  rw [canonical_length]
  exact (List.dedup_sublist l).length_le

end Machine

end Sys2Proof
end

