-- ==== Sys2Proof/Laws/Decoder.lean ====
section
/-! SUPPORT. What the decoder's loop computes (43_decoder.md R212 to R216), and how far the search for the
default pad length goes (40_alphabet.md R137). -/

namespace Sys2Proof.Machine

/-- ABSENT is not being in the alphabet (R136). -/
theorem indexOf_eq_none (s : State) (c : Word) : indexOf s c = none ↔ c ∉ s.symbols :=
  findSymbol_eq_none _ _ _

theorem indexOf_lt (s : State) (c : Word) (i : Nat) (h : indexOf s c = some i) : i < 256 := by
  have := findSymbol_lt _ _ _ _ h
  have : s.symbols.length ≤ 256 := by simp [State.symbols]
  omega

/-- A digit as a number (R213). -/
theorem digitOf_toNat (s : State) (c : Word) : (digitOf s c).toNat = (indexOf s c).getD 0 := by
  unfold digitOf
  cases h : indexOf s c with
  | none => rfl
  | some i => have := indexOf_lt s c i h; simp; omega

/-- Horner's loop where it raises no error: the accumulator moved up by the string, plus the string's value,
modulo 2^128 (R212, R215). -/
theorem decodeLoop_ok (s : State) (strict : Bool) (l : List Word) (j : Nat) (acc : Value)
    (hs : strict = true → ∀ c ∈ l, indexOf s c ≠ none) :
    ∃ v : Value, decodeLoop s strict j l acc = .ok v ∧
      v.toNat = (acc.toNat * s.nbase.toNat ^ l.length +
        Nat.ofDigits s.nbase.toNat (l.map fun c => (indexOf s c).getD 0).reverse) % 2 ^ 128 := by
  induction l generalizing j acc with
  | nil => exact ⟨acc, rfl, by simp; exact (Nat.mod_eq_of_lt acc.isLt).symm⟩
  | cons c l ih =>
    have hno : (strict && (indexOf s c).isNone) = false := by
      cases strict with
      | false => rfl
      | true =>
        have := hs rfl c (by simp)
        cases h : indexOf s c with
        | none => exact absurd h this
        | some _ => rfl
    obtain ⟨v, h1, h2⟩ := ih (j + 1) (muladd32 acc s.nbase (digitOf s c))
      (fun hh c hc => hs hh c (by simp [hc]))
    refine ⟨v, by simp [decodeLoop, hno, h1], ?_⟩
    rw [h2, muladd32_toNat, digitOf_toNat]
    simp only [List.map_cons, List.reverse_cons, Nat.ofDigits_append, List.length_reverse,
      List.length_map, List.length_cons, Nat.ofDigits_singleton]
    have := Nat.ModEq.add_right (Nat.ofDigits s.nbase.toNat (l.map fun c => (indexOf s c).getD 0).reverse)
      (Nat.ModEq.mul_right (s.nbase.toNat ^ l.length)
        (Nat.mod_modEq (acc.toNat * s.nbase.toNat + (indexOf s c).getD 0) (2 ^ 128)))
    unfold Nat.ModEq at this
    rw [this]
    congr 1
    ring

/-- The strict loop stops at the first absent symbol (R216). -/
theorem decodeLoop_error (s : State) (l : List Word) (j n : Nat) (acc : Value) (c : Word)
    (h1 : l[n]? = some c) (h2 : indexOf s c = none)
    (h3 : ∀ i a, i < n → l[i]? = some a → indexOf s a ≠ none) :
    decodeLoop s true j l acc = .error (j + n) := by
  induction l generalizing j n acc with
  | nil => simp at h1
  | cons x l ih =>
    cases n with
    | zero => simp at h1; subst h1; simp [decodeLoop, h2]
    | succ n =>
      have hx : (indexOf s x).isNone = false := by
        cases h : indexOf s x with
        | none => exact absurd h (h3 0 x (by omega) (by simp))
        | some _ => rfl
      simp only [decodeLoop, hx, Bool.and_false, Bool.false_eq_true, if_false]
      rw [ih (j + 1) n _ (by simpa using h1) (fun i a hi ha => h3 (i + 1) a (by omega) (by simpa using ha))]
      congr 1; omega

/-- The search for the default pad length stops at the first power of at least 2^64 its fuel reaches (R137). -/
theorem padSearch_spec (n fuel p : Nat) (low : ∀ q, q < p → n ^ q < 2 ^ 64)
    (reach : 2 ^ 64 ≤ n ^ (p + fuel)) :
    2 ^ 64 ≤ n ^ padSearch n fuel p (n ^ p) ∧ ∀ q, q < padSearch n fuel p (n ^ p) → n ^ q < 2 ^ 64 := by
  induction fuel generalizing p with
  | zero => exact ⟨by simpa [padSearch] using reach, by simpa [padSearch] using low⟩
  | succ f ih =>
    simp only [padSearch]
    split
    · rename_i h; exact ⟨h, low⟩
    · rename_i h
      rw [← pow_succ]
      refine ih (p + 1) ?_ (by rw [show p + 1 + f = p + (f + 1) by omega]; exact reach)
      intro q hq
      rcases Nat.lt_succ_iff_lt_or_eq.1 hq with h' | rfl
      · exact low q h'
      · omega

/-- The default pad length is at most 64 for any N (R137). -/
theorem defaultPadLength_le (n : Nat) : defaultPadLength n ≤ 64 := by
  have key : ∀ fuel p pow, padSearch n fuel p pow ≤ p + fuel := by
    intro fuel
    induction fuel with
    | zero => intro p pow; simp [padSearch]
    | succ f ih =>
      intro p pow
      simp only [padSearch]
      split
      · omega
      · have := ih (p + 1) (pow * n); omega
  have := key 64 0 1
  unfold defaultPadLength
  omega

end Sys2Proof.Machine
end

