-- ==== Sys2Proof/Laws/Encoder.lean ====
section
/-! SUPPORT. What the two division phases of the encoder compute (42_encoder.md R183, R184). -/

namespace Sys2Proof.Machine

/-- Phase 2 gives the base-N digits of its value (R184). -/
theorem encodePhase2_digits (n : Word) (h : 2 ≤ n.toNat) (fuel : Nat) (q : Wide)
    (hf : q.toNat < n.toNat ^ fuel) :
    (encodePhase2 n fuel q).map BitVec.toNat = Nat.digits n.toNat q.toNat := by
  have hn : n ≠ 0#32 := by rintro rfl; exact absurd h (by decide)
  induction fuel generalizing q with
  | zero =>
    have : q.toNat = 0 := by simpa using hf
    simp [encodePhase2, this]
  | succ fuel ih =>
    simp only [encodePhase2]
    split
    · rename_i h0; subst h0; simp
    · rename_i h0
      have hq : q.toNat ≠ 0 := fun hh => h0 (BitVec.eq_of_toNat_eq (by simpa using hh))
      obtain ⟨e1, e2⟩ := div64Step_spec q n hn
      rw [Nat.digits_def' (by omega) (by omega)]
      simp only [List.map_cons, e2]
      rw [ih _ (by rw [e1, Nat.div_lt_iff_lt_mul (by omega), ← pow_succ]; exact hf), e1]

/-- Phase 1 (R183) peels off low digits: with the digits of the quotient it leaves, they are the digits of the
value. -/
theorem encodePhase1_digits (n : Word) (h : 2 ≤ n.toNat) (fuel : Nat) (v : Value) (hv : v ≠ 0#128)
    (hf : v.toNat < 2 ^ 64 * n.toNat ^ fuel) (hf0 : 0 < fuel) :
    (encodePhase1 n fuel v).1.map BitVec.toNat ++ Nat.digits n.toNat (encodePhase1 n fuel v).2.toNat =
      Nat.digits n.toNat v.toNat := by
  induction fuel generalizing v with
  | zero => omega
  | succ fuel ih =>
    obtain ⟨e1, e2⟩ := divmod32_zero v n h
    have hv' : v.toNat ≠ 0 := fun hh => hv (BitVec.eq_of_toNat_eq (by simpa using hh))
    simp only [encodePhase1]
    rw [Nat.digits_def' (b := n.toNat) (n := v.toNat) (by omega) (by omega)]
    split
    · rename_i hfit
      have := (quotientFits64_iff _).1 hfit
      simp only [List.map_cons, List.map_nil, List.singleton_append, e2]
      rw [low64_toNat, Nat.mod_eq_of_lt this, e1]
    · rename_i hfit
      have hq : ¬ (divmod32 v n 0#32).1.toNat < 2 ^ 64 := fun hh => hfit ((quotientFits64_iff _).2 hh)
      have hlt : (divmod32 v n 0#32).1.toNat < 2 ^ 64 * n.toNat ^ fuel := by
        rw [e1, Nat.div_lt_iff_lt_mul (by omega), mul_assoc, ← pow_succ]; exact hf
      simp only [List.map_cons, List.cons_append, e2]
      rw [ih _ _ hlt, e1]
      · rcases Nat.eq_zero_or_pos fuel with rfl | hh
        · simp at hlt; omega
        · exact hh
      · intro hz; rw [hz] at hq; exact hq (by decide)

/-- The padded and mapped string has L = max(p, count) symbols (R185, R186). -/
theorem mapDigits_padDigits_length (s : State) (digits : List Word) (p : Nat) :
    (mapDigits s (padDigits digits p)).length = max p digits.length := by
  simp [mapDigits, padDigits]; omega

/-- `ALPHA[d]` inside the file (R136). -/
theorem symbolAt_eq (s : State) (d : Word) (h : d.toNat < 256) :
    s.alpha[d.toNat]? = some (s.symbolAt d) := by
  unfold State.symbolAt
  rw [Vector.getElem?_eq_getElem h]; rfl

end Sys2Proof.Machine
end

