-- ==== Sys2Proof/Laws/State.lean ====
section
/-! SUPPORT. One lemma per field per shared update of State, each true by rfl, so that no proof unfolds a
record update. -/

namespace Sys2Proof.Machine

/-! completeOk (R249) -/

@[simp] theorem completeOk_irqEn (s : State) : (completeOk s).irqEn = s.irqEn := rfl
@[simp] theorem completeOk_cmd (s : State) : (completeOk s).cmd = s.cmd := rfl
@[simp] theorem completeOk_busy (s : State) : (completeOk s).busy = false := rfl
@[simp] theorem completeOk_done (s : State) : (completeOk s).done = true := rfl
@[simp] theorem completeOk_err (s : State) : (completeOk s).err = s.err := rfl
@[simp] theorem completeOk_fits64 (s : State) : (completeOk s).fits64 = s.fits64 := rfl
@[simp] theorem completeOk_ovr (s : State) : (completeOk s).ovr = s.ovr := rfl
@[simp] theorem completeOk_errcode (s : State) : (completeOk s).errcode = s.errcode := rfl
@[simp] theorem completeOk_errIdx (s : State) : (completeOk s).errIdx = s.errIdx := rfl
@[simp] theorem completeOk_nbase (s : State) : (completeOk s).nbase = s.nbase := rfl
@[simp] theorem completeOk_defpad (s : State) : (completeOk s).defpad = s.defpad := rfl
@[simp] theorem completeOk_val (s : State) : (completeOk s).val = s.val := rfl
@[simp] theorem completeOk_res (s : State) : (completeOk s).res = s.res := rfl
@[simp] theorem completeOk_opm (s : State) : (completeOk s).opm = s.opm := rfl
@[simp] theorem completeOk_opa (s : State) : (completeOk s).opa = s.opa := rfl
@[simp] theorem completeOk_rin (s : State) : (completeOk s).rin = s.rin := rfl
@[simp] theorem completeOk_rem (s : State) : (completeOk s).rem = s.rem := rfl
@[simp] theorem completeOk_padlen (s : State) : (completeOk s).padlen = s.padlen := rfl
@[simp] theorem completeOk_strlen (s : State) : (completeOk s).strlen = s.strlen := rfl
@[simp] theorem completeOk_ndig (s : State) : (completeOk s).ndig = s.ndig := rfl
@[simp] theorem completeOk_astageCnt (s : State) : (completeOk s).astageCnt = s.astageCnt := rfl
@[simp] theorem completeOk_astage (s : State) : (completeOk s).astage = s.astage := rfl
@[simp] theorem completeOk_alpha (s : State) : (completeOk s).alpha = s.alpha := rfl
@[simp] theorem completeOk_strbuf (s : State) : (completeOk s).strbuf = s.strbuf := rfl
@[simp] theorem completeOk_eng (s : State) : (completeOk s).eng = { s.eng with fsm := .idle } := rfl
@[simp] theorem completeOk_rst (s : State) : (completeOk s).rst = s.rst := rfl
@[simp] theorem completeOk_events (s : State) : (completeOk s).events = s.events := rfl
@[simp] theorem completeOk_resp (s : State) : (completeOk s).resp = s.resp := rfl
@[simp] theorem completeOk_draws (s : State) : (completeOk s).draws = s.draws := rfl

/-! completeError (R250) -/

@[simp] theorem completeError_irqEn (s : State) (e : ErrCode) : (completeError s e).irqEn = s.irqEn := rfl
@[simp] theorem completeError_cmd (s : State) (e : ErrCode) : (completeError s e).cmd = s.cmd := rfl
@[simp] theorem completeError_busy (s : State) (e : ErrCode) : (completeError s e).busy = false := rfl
@[simp] theorem completeError_done (s : State) (e : ErrCode) : (completeError s e).done = true := rfl
@[simp] theorem completeError_err (s : State) (e : ErrCode) : (completeError s e).err = true := rfl
@[simp] theorem completeError_fits64 (s : State) (e : ErrCode) : (completeError s e).fits64 = s.fits64 := rfl
@[simp] theorem completeError_ovr (s : State) (e : ErrCode) : (completeError s e).ovr = s.ovr := rfl
@[simp] theorem completeError_errcode (s : State) (e : ErrCode) : (completeError s e).errcode = e := rfl
@[simp] theorem completeError_errIdx (s : State) (e : ErrCode) : (completeError s e).errIdx = s.errIdx := rfl
@[simp] theorem completeError_nbase (s : State) (e : ErrCode) : (completeError s e).nbase = s.nbase := rfl
@[simp] theorem completeError_defpad (s : State) (e : ErrCode) : (completeError s e).defpad = s.defpad := rfl
@[simp] theorem completeError_val (s : State) (e : ErrCode) : (completeError s e).val = s.val := rfl
@[simp] theorem completeError_res (s : State) (e : ErrCode) : (completeError s e).res = s.res := rfl
@[simp] theorem completeError_opm (s : State) (e : ErrCode) : (completeError s e).opm = s.opm := rfl
@[simp] theorem completeError_opa (s : State) (e : ErrCode) : (completeError s e).opa = s.opa := rfl
@[simp] theorem completeError_rin (s : State) (e : ErrCode) : (completeError s e).rin = s.rin := rfl
@[simp] theorem completeError_rem (s : State) (e : ErrCode) : (completeError s e).rem = s.rem := rfl
@[simp] theorem completeError_padlen (s : State) (e : ErrCode) : (completeError s e).padlen = s.padlen := rfl
@[simp] theorem completeError_strlen (s : State) (e : ErrCode) : (completeError s e).strlen = s.strlen := rfl
@[simp] theorem completeError_ndig (s : State) (e : ErrCode) : (completeError s e).ndig = s.ndig := rfl
@[simp] theorem completeError_astageCnt (s : State) (e : ErrCode) : (completeError s e).astageCnt = s.astageCnt := rfl
@[simp] theorem completeError_astage (s : State) (e : ErrCode) : (completeError s e).astage = s.astage := rfl
@[simp] theorem completeError_alpha (s : State) (e : ErrCode) : (completeError s e).alpha = s.alpha := rfl
@[simp] theorem completeError_strbuf (s : State) (e : ErrCode) : (completeError s e).strbuf = s.strbuf := rfl
@[simp] theorem completeError_eng (s : State) (e : ErrCode) : (completeError s e).eng = { s.eng with fsm := .idle } := rfl
@[simp] theorem completeError_rst (s : State) (e : ErrCode) : (completeError s e).rst = s.rst := rfl
@[simp] theorem completeError_events (s : State) (e : ErrCode) : (completeError s e).events = s.events := rfl
@[simp] theorem completeError_resp (s : State) (e : ErrCode) : (completeError s e).resp = s.resp := rfl
@[simp] theorem completeError_draws (s : State) (e : ErrCode) : (completeError s e).draws = s.draws := rfl

/-! accept (R245) -/

@[simp] theorem accept_irqEn (s : State) (w : Word) : (accept s w).irqEn = s.irqEn := rfl
@[simp] theorem accept_cmd (s : State) (w : Word) : (accept s w).cmd = w := rfl
@[simp] theorem accept_busy (s : State) (w : Word) : (accept s w).busy = true := rfl
@[simp] theorem accept_done (s : State) (w : Word) : (accept s w).done = false := rfl
@[simp] theorem accept_err (s : State) (w : Word) : (accept s w).err = false := rfl
@[simp] theorem accept_fits64 (s : State) (w : Word) : (accept s w).fits64 = s.fits64 := rfl
@[simp] theorem accept_ovr (s : State) (w : Word) : (accept s w).ovr = s.ovr := rfl
@[simp] theorem accept_errcode (s : State) (w : Word) : (accept s w).errcode = .noError := rfl
@[simp] theorem accept_errIdx (s : State) (w : Word) : (accept s w).errIdx = 0#32 := rfl
@[simp] theorem accept_nbase (s : State) (w : Word) : (accept s w).nbase = s.nbase := rfl
@[simp] theorem accept_defpad (s : State) (w : Word) : (accept s w).defpad = s.defpad := rfl
@[simp] theorem accept_val (s : State) (w : Word) : (accept s w).val = s.val := rfl
@[simp] theorem accept_res (s : State) (w : Word) : (accept s w).res = s.res := rfl
@[simp] theorem accept_opm (s : State) (w : Word) : (accept s w).opm = s.opm := rfl
@[simp] theorem accept_opa (s : State) (w : Word) : (accept s w).opa = s.opa := rfl
@[simp] theorem accept_rin (s : State) (w : Word) : (accept s w).rin = s.rin := rfl
@[simp] theorem accept_rem (s : State) (w : Word) : (accept s w).rem = s.rem := rfl
@[simp] theorem accept_padlen (s : State) (w : Word) : (accept s w).padlen = s.padlen := rfl
@[simp] theorem accept_strlen (s : State) (w : Word) : (accept s w).strlen = s.strlen := rfl
@[simp] theorem accept_ndig (s : State) (w : Word) : (accept s w).ndig = s.ndig := rfl
@[simp] theorem accept_astageCnt (s : State) (w : Word) : (accept s w).astageCnt = s.astageCnt := rfl
@[simp] theorem accept_astage (s : State) (w : Word) : (accept s w).astage = s.astage := rfl
@[simp] theorem accept_alpha (s : State) (w : Word) : (accept s w).alpha = s.alpha := rfl
@[simp] theorem accept_strbuf (s : State) (w : Word) : (accept s w).strbuf = s.strbuf := rfl
@[simp] theorem accept_eng (s : State) (w : Word) : (accept s w).eng = engineStart w s.eng := rfl
@[simp] theorem accept_rst (s : State) (w : Word) : (accept s w).rst = s.rst := rfl
@[simp] theorem accept_events (s : State) (w : Word) : (accept s w).events = s.events := rfl
@[simp] theorem accept_resp (s : State) (w : Word) : (accept s w).resp = s.resp := rfl
@[simp] theorem accept_draws (s : State) (w : Word) : (accept s w).draws = s.draws := rfl

/-! clearStatus (R31) -/

@[simp] theorem clearStatus_irqEn (s : State) (w : Word) : (s.clearStatus w).irqEn = s.irqEn := rfl
@[simp] theorem clearStatus_cmd (s : State) (w : Word) : (s.clearStatus w).cmd = s.cmd := rfl
@[simp] theorem clearStatus_busy (s : State) (w : Word) : (s.clearStatus w).busy = s.busy := rfl
@[simp] theorem clearStatus_done (s : State) (w : Word) : (s.clearStatus w).done = (s.done && !w.getLsbD 1) := rfl
@[simp] theorem clearStatus_err (s : State) (w : Word) : (s.clearStatus w).err = s.err := rfl
@[simp] theorem clearStatus_fits64 (s : State) (w : Word) : (s.clearStatus w).fits64 = s.fits64 := rfl
@[simp] theorem clearStatus_ovr (s : State) (w : Word) : (s.clearStatus w).ovr = (s.ovr && !w.getLsbD 4) := rfl
@[simp] theorem clearStatus_errcode (s : State) (w : Word) : (s.clearStatus w).errcode = s.errcode := rfl
@[simp] theorem clearStatus_errIdx (s : State) (w : Word) : (s.clearStatus w).errIdx = s.errIdx := rfl
@[simp] theorem clearStatus_nbase (s : State) (w : Word) : (s.clearStatus w).nbase = s.nbase := rfl
@[simp] theorem clearStatus_defpad (s : State) (w : Word) : (s.clearStatus w).defpad = s.defpad := rfl
@[simp] theorem clearStatus_val (s : State) (w : Word) : (s.clearStatus w).val = s.val := rfl
@[simp] theorem clearStatus_res (s : State) (w : Word) : (s.clearStatus w).res = s.res := rfl
@[simp] theorem clearStatus_opm (s : State) (w : Word) : (s.clearStatus w).opm = s.opm := rfl
@[simp] theorem clearStatus_opa (s : State) (w : Word) : (s.clearStatus w).opa = s.opa := rfl
@[simp] theorem clearStatus_rin (s : State) (w : Word) : (s.clearStatus w).rin = s.rin := rfl
@[simp] theorem clearStatus_rem (s : State) (w : Word) : (s.clearStatus w).rem = s.rem := rfl
@[simp] theorem clearStatus_padlen (s : State) (w : Word) : (s.clearStatus w).padlen = s.padlen := rfl
@[simp] theorem clearStatus_strlen (s : State) (w : Word) : (s.clearStatus w).strlen = s.strlen := rfl
@[simp] theorem clearStatus_ndig (s : State) (w : Word) : (s.clearStatus w).ndig = s.ndig := rfl
@[simp] theorem clearStatus_astageCnt (s : State) (w : Word) : (s.clearStatus w).astageCnt = s.astageCnt := rfl
@[simp] theorem clearStatus_astage (s : State) (w : Word) : (s.clearStatus w).astage = s.astage := rfl
@[simp] theorem clearStatus_alpha (s : State) (w : Word) : (s.clearStatus w).alpha = s.alpha := rfl
@[simp] theorem clearStatus_strbuf (s : State) (w : Word) : (s.clearStatus w).strbuf = s.strbuf := rfl
@[simp] theorem clearStatus_eng (s : State) (w : Word) : (s.clearStatus w).eng = s.eng := rfl
@[simp] theorem clearStatus_rst (s : State) (w : Word) : (s.clearStatus w).rst = s.rst := rfl
@[simp] theorem clearStatus_events (s : State) (w : Word) : (s.clearStatus w).events = s.events := rfl
@[simp] theorem clearStatus_resp (s : State) (w : Word) : (s.clearStatus w).resp = s.resp := rfl
@[simp] theorem clearStatus_draws (s : State) (w : Word) : (s.clearStatus w).draws = s.draws := rfl

/-! busError (R72, R73) -/

@[simp] theorem busError_irqEn (s : State) (off : Offset) : (busError s off).irqEn = s.irqEn := rfl
@[simp] theorem busError_cmd (s : State) (off : Offset) : (busError s off).cmd = s.cmd := rfl
@[simp] theorem busError_busy (s : State) (off : Offset) : (busError s off).busy = s.busy := rfl
@[simp] theorem busError_done (s : State) (off : Offset) : (busError s off).done = s.done := rfl
@[simp] theorem busError_err (s : State) (off : Offset) : (busError s off).err = s.err := rfl
@[simp] theorem busError_fits64 (s : State) (off : Offset) : (busError s off).fits64 = s.fits64 := rfl
@[simp] theorem busError_ovr (s : State) (off : Offset) : (busError s off).ovr = s.ovr := rfl
@[simp] theorem busError_errcode (s : State) (off : Offset) : (busError s off).errcode = s.errcode := rfl
@[simp] theorem busError_errIdx (s : State) (off : Offset) : (busError s off).errIdx = s.errIdx := rfl
@[simp] theorem busError_nbase (s : State) (off : Offset) : (busError s off).nbase = s.nbase := rfl
@[simp] theorem busError_defpad (s : State) (off : Offset) : (busError s off).defpad = s.defpad := rfl
@[simp] theorem busError_val (s : State) (off : Offset) : (busError s off).val = s.val := rfl
@[simp] theorem busError_res (s : State) (off : Offset) : (busError s off).res = s.res := rfl
@[simp] theorem busError_opm (s : State) (off : Offset) : (busError s off).opm = s.opm := rfl
@[simp] theorem busError_opa (s : State) (off : Offset) : (busError s off).opa = s.opa := rfl
@[simp] theorem busError_rin (s : State) (off : Offset) : (busError s off).rin = s.rin := rfl
@[simp] theorem busError_rem (s : State) (off : Offset) : (busError s off).rem = s.rem := rfl
@[simp] theorem busError_padlen (s : State) (off : Offset) : (busError s off).padlen = s.padlen := rfl
@[simp] theorem busError_strlen (s : State) (off : Offset) : (busError s off).strlen = s.strlen := rfl
@[simp] theorem busError_ndig (s : State) (off : Offset) : (busError s off).ndig = s.ndig := rfl
@[simp] theorem busError_astageCnt (s : State) (off : Offset) : (busError s off).astageCnt = s.astageCnt := rfl
@[simp] theorem busError_astage (s : State) (off : Offset) : (busError s off).astage = s.astage := rfl
@[simp] theorem busError_alpha (s : State) (off : Offset) : (busError s off).alpha = s.alpha := rfl
@[simp] theorem busError_strbuf (s : State) (off : Offset) : (busError s off).strbuf = s.strbuf := rfl
@[simp] theorem busError_eng (s : State) (off : Offset) : (busError s off).eng = s.eng := rfl
@[simp] theorem busError_rst (s : State) (off : Offset) : (busError s off).rst = s.rst := rfl
@[simp] theorem busError_events (s : State) (off : Offset) : (busError s off).events = s.events := rfl
@[simp] theorem busError_resp (s : State) (off : Offset) : (busError s off).resp = some (.busError off) := rfl
@[simp] theorem busError_draws (s : State) (off : Offset) : (busError s off).draws = s.draws := rfl

/-! engineWork (R50) -/

@[simp] theorem engineWork_irqEn (s : State) : (engineWork s).irqEn = s.irqEn := rfl
@[simp] theorem engineWork_cmd (s : State) : (engineWork s).cmd = s.cmd := rfl
@[simp] theorem engineWork_busy (s : State) : (engineWork s).busy = s.busy := rfl
@[simp] theorem engineWork_done (s : State) : (engineWork s).done = s.done := rfl
@[simp] theorem engineWork_err (s : State) : (engineWork s).err = s.err := rfl
@[simp] theorem engineWork_fits64 (s : State) : (engineWork s).fits64 = s.fits64 := rfl
@[simp] theorem engineWork_ovr (s : State) : (engineWork s).ovr = s.ovr := rfl
@[simp] theorem engineWork_errcode (s : State) : (engineWork s).errcode = s.errcode := rfl
@[simp] theorem engineWork_errIdx (s : State) : (engineWork s).errIdx = s.errIdx := rfl
@[simp] theorem engineWork_nbase (s : State) : (engineWork s).nbase = s.nbase := rfl
@[simp] theorem engineWork_defpad (s : State) : (engineWork s).defpad = s.defpad := rfl
@[simp] theorem engineWork_val (s : State) : (engineWork s).val = s.val := rfl
@[simp] theorem engineWork_res (s : State) : (engineWork s).res = s.res := rfl
@[simp] theorem engineWork_opm (s : State) : (engineWork s).opm = s.opm := rfl
@[simp] theorem engineWork_opa (s : State) : (engineWork s).opa = s.opa := rfl
@[simp] theorem engineWork_rin (s : State) : (engineWork s).rin = s.rin := rfl
@[simp] theorem engineWork_rem (s : State) : (engineWork s).rem = s.rem := rfl
@[simp] theorem engineWork_padlen (s : State) : (engineWork s).padlen = s.padlen := rfl
@[simp] theorem engineWork_strlen (s : State) : (engineWork s).strlen = s.strlen := rfl
@[simp] theorem engineWork_ndig (s : State) : (engineWork s).ndig = s.ndig := rfl
@[simp] theorem engineWork_astageCnt (s : State) : (engineWork s).astageCnt = s.astageCnt := rfl
@[simp] theorem engineWork_astage (s : State) : (engineWork s).astage = s.astage := rfl
@[simp] theorem engineWork_alpha (s : State) : (engineWork s).alpha = s.alpha := rfl
@[simp] theorem engineWork_strbuf (s : State) : (engineWork s).strbuf = s.strbuf := rfl
@[simp] theorem engineWork_eng (s : State) : (engineWork s).eng = engineStep s := rfl
@[simp] theorem engineWork_rst (s : State) : (engineWork s).rst = s.rst := rfl
@[simp] theorem engineWork_events (s : State) : (engineWork s).events = s.events := rfl
@[simp] theorem engineWork_resp (s : State) : (engineWork s).resp = s.resp := rfl
@[simp] theorem engineWork_draws (s : State) : (engineWork s).draws = s.draws := rfl

/-! blockReset (R281) -/

@[simp] theorem blockReset_irqEn (s : State) : (blockReset s).irqEn = State.reset.irqEn := rfl
@[simp] theorem blockReset_cmd (s : State) : (blockReset s).cmd = State.reset.cmd := rfl
@[simp] theorem blockReset_busy (s : State) : (blockReset s).busy = State.reset.busy := rfl
@[simp] theorem blockReset_done (s : State) : (blockReset s).done = State.reset.done := rfl
@[simp] theorem blockReset_err (s : State) : (blockReset s).err = State.reset.err := rfl
@[simp] theorem blockReset_fits64 (s : State) : (blockReset s).fits64 = State.reset.fits64 := rfl
@[simp] theorem blockReset_ovr (s : State) : (blockReset s).ovr = State.reset.ovr := rfl
@[simp] theorem blockReset_errcode (s : State) : (blockReset s).errcode = State.reset.errcode := rfl
@[simp] theorem blockReset_errIdx (s : State) : (blockReset s).errIdx = State.reset.errIdx := rfl
@[simp] theorem blockReset_nbase (s : State) : (blockReset s).nbase = State.reset.nbase := rfl
@[simp] theorem blockReset_defpad (s : State) : (blockReset s).defpad = State.reset.defpad := rfl
@[simp] theorem blockReset_val (s : State) : (blockReset s).val = State.reset.val := rfl
@[simp] theorem blockReset_res (s : State) : (blockReset s).res = State.reset.res := rfl
@[simp] theorem blockReset_opm (s : State) : (blockReset s).opm = State.reset.opm := rfl
@[simp] theorem blockReset_opa (s : State) : (blockReset s).opa = State.reset.opa := rfl
@[simp] theorem blockReset_rin (s : State) : (blockReset s).rin = State.reset.rin := rfl
@[simp] theorem blockReset_rem (s : State) : (blockReset s).rem = State.reset.rem := rfl
@[simp] theorem blockReset_padlen (s : State) : (blockReset s).padlen = State.reset.padlen := rfl
@[simp] theorem blockReset_strlen (s : State) : (blockReset s).strlen = State.reset.strlen := rfl
@[simp] theorem blockReset_ndig (s : State) : (blockReset s).ndig = State.reset.ndig := rfl
@[simp] theorem blockReset_astageCnt (s : State) : (blockReset s).astageCnt = State.reset.astageCnt := rfl
@[simp] theorem blockReset_astage (s : State) : (blockReset s).astage = State.reset.astage := rfl
@[simp] theorem blockReset_alpha (s : State) : (blockReset s).alpha = State.reset.alpha := rfl
@[simp] theorem blockReset_strbuf (s : State) : (blockReset s).strbuf = State.reset.strbuf := rfl
@[simp] theorem blockReset_eng (s : State) : (blockReset s).eng = State.reset.eng := rfl
@[simp] theorem blockReset_rst (s : State) : (blockReset s).rst = s.rst := rfl
@[simp] theorem blockReset_events (s : State) : (blockReset s).events = s.events := rfl
@[simp] theorem blockReset_resp (s : State) : (blockReset s).resp = s.resp := rfl
@[simp] theorem blockReset_draws (s : State) : (blockReset s).draws = s.draws := rfl

/-- A host read changes the answer and the draw count alone (R78). -/
theorem hostRead_eq (s : State) (off : Offset) (l : Loc) :
    hostRead s off l = { s with resp := (hostRead s off l).resp, draws := (hostRead s off l).draws } := rfl

/-- A host write answers and has its effect (R74). -/
theorem hostWrite_eq (s : State) (l : Loc) (v : Word) :
    hostWrite s l v = { hostWriteEffect s l v with resp := some .written } := rfl

/-- The commit of MULADD and DECODE, as one update. -/
theorem commitResult_eq (s : State) (v : Value) :
    commitResult s v = { s with res := v, busy := false, done := true, eng := { s.eng with fsm := .idle } } := rfl

/-- The commit of DIVMOD and DIV64, as one update. -/
theorem commitQuotient_eq (s : State) (q : Value) (r : Word) (f : Bool) :
    commitQuotient s q r f = { s with
      res := q, rem := r, fits64 := f, busy := false, done := true, eng := { s.eng with fsm := .idle } } := rfl

/-- The commit of ENCODE, as one update. -/
theorem commitString_eq (s : State) (symbols : List Word) (n : Nat) :
    commitString s symbols n = { s with
      strbuf := s.strbuf.write symbols, strlen := BitVec.ofNat 32 symbols.length, ndig := BitVec.ofNat 32 n,
      busy := false, done := true, eng := { s.eng with fsm := .idle } } := rfl

/-- The commit of ABUILD, as one update. -/
theorem commitAlphabet_eq (s : State) (symbols : List Word) :
    commitAlphabet s symbols = { s with
      alpha := Table.zero.write symbols, nbase := BitVec.ofNat 32 symbols.length,
      defpad := BitVec.ofNat 32 (defaultPadLength symbols.length),
      busy := false, done := true, eng := { s.eng with fsm := .idle } } := rfl

end Sys2Proof.Machine
end

