-- ==== Sys2Proof/Laws/Step.lean ====
section
/-! SUPPORT. What each shared operation and one step can do, said once: the outcomes of exec, of a host
access, of an event and of a step, and that the engine leaves IDLE to no other state. -/

namespace Sys2Proof.Machine

/-- The effects a command can have at its completion: a commit or an error report (R249, R250). -/
inductive Completes (s : State) : State → Prop where
  | result (v : Value) : Completes s (commitResult s v)
  | quotient (q : Value) (r : Word) (f : Bool) : Completes s (commitQuotient s q r f)
  | string (symbols : List Word) (n : Nat) : Completes s (commitString s symbols n)
  | alphabet (symbols : List Word) (h2 : 2 ≤ symbols.length) (h256 : symbols.length ≤ 256)
      (hs : symbols.Pairwise (· < ·)) : Completes s (commitAlphabet s symbols)
  | move : Completes s (completeOk { s with val := s.res })
  | error (e : ErrCode) (h : e ≠ .noError) (h' : e ≠ .invalidCharacter) : Completes s (completeError s e)
  | badChar (j : Nat) (h : j < 256) : Completes s (completeInvalidCharacter s j)

theorem divmodCheck_ne (s : State) : divmodCheck s ≠ .invalidCharacter := by
  unfold divmodCheck; split
  · simp
  · split <;> simp

/-- The index strict mode reports is one of the string's (R216). -/
theorem decodeLoop_error_lt (s : State) (strict : Bool) (j : Nat) (l : List Word) (acc : Value) (n : Nat)
    (h : decodeLoop s strict j l acc = .error n) : n < j + l.length := by
  induction l generalizing j acc with
  | nil => simp [decodeLoop] at h
  | cons c l ih =>
    simp only [decodeLoop] at h
    split at h
    · cases h; simp
    · have := ih _ _ h
      simp only [List.length_cons]
      omega

theorem string_length_le (s : State) : s.string.length ≤ 256 := by simp [State.string]

theorem staged_length_le (s : State) : s.staged.length ≤ 256 := by simp [State.staged]

theorem symbols_length_le (s : State) : s.symbols.length ≤ 256 := by simp [State.symbols]

/-- Every next state of exec is a commit or an error report. -/
theorem exec_completes (i : Instr) (s t : State) (h : exec i s = .next t) : Completes s t := by
  cases i with
  | muladd => cases h; exact .result _
  | divmod =>
    simp only [exec, execDivmod] at h
    split at h
    · cases h; exact .quotient _ _ _
    · rename_i e he
      cases h
      exact .error _ (fun hn => he hn) (divmodCheck_ne s)
  | div64 =>
    simp only [exec, execDiv64] at h
    split at h
    · cases h; exact .error _ (by simp) (by simp)
    · cases h; exact .quotient _ _ _
  | encode usePad =>
    simp only [exec, execEncode] at h
    split at h
    · cases h; exact .error _ (by simp) (by simp)
    · split at h
      · cases h; exact .string _ _
      · cases h
  | decode strict =>
    simp only [exec, execDecode] at h
    split at h
    · cases h; exact .error _ (by simp) (by simp)
    · split at h
      · cases h; exact .result _
      · rename_i j hj
        cases h
        have := decodeLoop_error_lt _ _ _ _ _ _ hj
        have := string_length_le s
        exact .badChar _ (by omega)
  | abuild =>
    simp only [exec, execAbuild] at h
    split at h
    · cases h; exact .error _ (by simp) (by simp)
    · split at h
      · cases h; exact .error _ (by simp) (by simp)
      · cases h
        have := canonical_length_le s.staged
        have := staged_length_le s
        exact .alphabet _ (by omega) (by omega) (canonical_pairwise _)
  | movrv => cases h; exact .move

/-- exec stops in one case alone: ENCODE outside the bounds of the alphabet (log 9). -/
theorem exec_next_or_fault (i : Instr) (s : State) :
    (∃ t, exec i s = .next t) ∨
      ((∃ usePad, i = .encode usePad) ∧ s.alphabetInRange = false ∧ exec i s = .fault .alphabetOutOfRange) := by
  cases i with
  | muladd => exact .inl ⟨_, rfl⟩
  | divmod => simp only [exec, execDivmod]; split <;> exact .inl ⟨_, rfl⟩
  | div64 => simp only [exec, execDiv64]; split <;> exact .inl ⟨_, rfl⟩
  | encode usePad =>
    simp only [exec, execEncode]
    split
    · exact .inl ⟨_, rfl⟩
    · split
      · exact .inl ⟨_, rfl⟩
      · rename_i h
        exact .inr ⟨⟨usePad, rfl⟩, by simpa using h, rfl⟩
  | decode strict =>
    simp only [exec, execDecode]
    split
    · exact .inl ⟨_, rfl⟩
    · split <;> exact .inl ⟨_, rfl⟩
  | abuild =>
    simp only [exec, execAbuild]
    split
    · exact .inl ⟨_, rfl⟩
    · split <;> exact .inl ⟨_, rfl⟩
  | movrv => exact .inl ⟨_, rfl⟩

/-- What the completion of the running command can do. -/
theorem runCommand_completes (s t : State) (h : runCommand s = .next t) : Completes s t := by
  unfold runCommand at h
  split at h
  · exact exec_completes _ _ _ h
  · cases h; exact .error _ (by simp) (by simp)

/-- What one event can do when it answers a next state. -/
theorem handleEvent_cases (s t : State) (ev : Event) (h : handleEvent s ev = .next t) :
    (∃ a, ev = .access a ∧ s.rst = false ∧ t = hostAccess s a) ∨
    (ev = .work ∧ t = if s.engineBusy then engineWork s else s) ∨
    (ev = .complete ∧ s.engineBusy = true ∧ runCommand s = .next t) ∨
    (ev = .complete ∧ s.engineBusy = false ∧ t = s) ∨
    (∃ level, ev = .rst level ∧ t = setRst s level) := by
  cases ev with
  | access a =>
    simp only [handleEvent] at h
    split at h
    · cases h
    · rename_i hr
      cases h
      exact .inl ⟨a, rfl, by simpa using hr, rfl⟩
  | work => cases h; exact .inr (.inl ⟨rfl, rfl⟩)
  | complete =>
    simp only [handleEvent] at h
    split at h
    · rename_i hb; exact .inr (.inr (.inl ⟨rfl, hb, h⟩))
    · rename_i hb; cases h
      exact .inr (.inr (.inr (.inl ⟨rfl, by simpa using hb, rfl⟩)))
  | rst level => cases h; exact .inr (.inr (.inr (.inr ⟨level, rfl, rfl⟩)))

/-- What one host access can do (R12, R72 to R74, R245 to R248): a bus error, a read, or a write. -/
theorem hostAccess_cases (s : State) (a : Access) :
    (∃ off, hostAccess s a = busError s off) ∨
    (∃ off l, Loc.ofOffset off = some l ∧ a = .read off 4 ∧ hostAccess s a = hostRead s off l) ∨
    (∃ off l v, Loc.ofOffset off = some l ∧ a = .write off 4 0xF#4 v ∧ hostAccess s a = hostWrite s l v) := by
  cases a with
  | read off bytes =>
    simp only [hostAccess]
    split
    · rename_i hb
      split
      · rename_i l hl; exact .inr (.inl ⟨off, l, hl, by simp [hb], rfl⟩)
      · exact .inl ⟨off, rfl⟩
    · exact .inl ⟨off, rfl⟩
  | write off bytes strobes data =>
    simp only [hostAccess]
    split
    · rename_i hb
      split
      · rename_i l hl; exact .inr (.inr ⟨off, l, data, hl, by simp [hb], rfl⟩)
      · exact .inl ⟨off, rfl⟩
    · exact .inl ⟨off, rfl⟩

/-- What a host write can do to the block. -/
theorem hostWriteEffect_cases (s : State) (l : Loc) (v : Word) :
    (l = .ctrl ∧ v.getLsbD 1 = true ∧ hostWriteEffect s l v = blockReset s) ∨
    (l = .ctrl ∧ v.getLsbD 1 = false ∧ hostWriteEffect s l v = { s with irqEn := v.getLsbD 0 }) ∨
    (l = .status ∧ hostWriteEffect s l v = s.clearStatus v) ∨
    (l ≠ .ctrl ∧ l ≠ .status ∧ s.busy = true ∧ hostWriteEffect s l v = { s with ovr := true }) ∨
    (l = .cmd ∧ s.busy = false ∧ hostWriteEffect s l v = accept s v) ∨
    (l ≠ .ctrl ∧ l ≠ .status ∧ l ≠ .cmd ∧ s.busy = false ∧ hostWriteEffect s l v = s.poke l v) := by
  by_cases h1 : l = .ctrl
  · subst h1
    by_cases h2 : v.getLsbD 1 = true
    · exact .inl ⟨rfl, h2, by simp only [hostWriteEffect, writeCtrl, h2, if_true]⟩
    · exact .inr (.inl ⟨rfl, by simpa using h2, by
        simp only [hostWriteEffect, writeCtrl, h2, if_true]; rfl⟩)
  · by_cases h3 : l = .status
    · subst h3; exact .inr (.inr (.inl ⟨rfl, by simp [hostWriteEffect]⟩))
    · by_cases h4 : s.busy = true
      · exact .inr (.inr (.inr (.inl ⟨h1, h3, h4, by simp [hostWriteEffect, h1, h3, h4]⟩)))
      · by_cases h5 : l = .cmd
        · subst h5
          exact .inr (.inr (.inr (.inr (.inl ⟨rfl, by simpa using h4, by simp [hostWriteEffect, h4]⟩))))
        · exact .inr (.inr (.inr (.inr (.inr ⟨h1, h3, h5, by simpa using h4,
            by simp [hostWriteEffect, h1, h3, h4, h5]⟩))))

/-- Each state function of the engine, from a state that is not IDLE, leaves it at a state that is not IDLE. -/
theorem engineFns_ne_idle (s : State) (e : Engine) (strict usePad : Bool) (h : e.fsm ≠ .idle) :
    (engineMaLimb s e).fsm ≠ .idle ∧ (engineDmCheck s e).fsm ≠ .idle ∧ (engineDmLimb s e).fsm ≠ .idle ∧
    (engineD64Check s e).fsm ≠ .idle ∧ (engineD64Done s e).fsm ≠ .idle ∧
    (engineEnInit s usePad e).fsm ≠ .idle ∧ (engineEnD128 s e).fsm ≠ .idle ∧
    (engineEnD64 s e).fsm ≠ .idle ∧ (engineEnPad e).fsm ≠ .idle ∧ (engineEnOut s e).fsm ≠ .idle ∧
    (engineDeInit s e).fsm ≠ .idle ∧ (engineDeLook s strict e).fsm ≠ .idle ∧
    (engineDeMul s e).fsm ≠ .idle ∧ (engineAbCheck s e).fsm ≠ .idle ∧ (engineAbCount s e).fsm ≠ .idle := by
  refine ⟨?_, ?_, ?_, ?_, ?_, ?_, ?_, ?_, ?_, ?_, ?_, ?_, ?_, ?_, ?_⟩
  · unfold engineMaLimb; dsimp only; split <;> simp [h]
  · unfold engineDmCheck; split <;> simp
  · unfold engineDmLimb; dsimp only; split <;> simp [h]
  · unfold engineD64Check; split <;> simp
  · simp [engineD64Done]
  · unfold engineEnInit; split <;> simp
  · unfold engineEnD128; dsimp only
    split
    · split <;> simp [Engine.recordDigit, h]
    · simp [h]
  · unfold engineEnD64; split <;> simp [Engine.recordDigit, h]
  · unfold engineEnPad; split <;> simp [Engine.recordDigit, h]
  · unfold engineEnOut; split <;> simp [h]
  · unfold engineDeInit; split <;> simp
  · unfold engineDeLook; split
    · simp
    · dsimp only; split <;> simp
  · unfold engineDeMul; dsimp only; split <;> simp [h]
  · unfold engineAbCheck; split <;> simp
  · unfold engineAbCount; split <;> simp

/-- A working step takes no command back to IDLE, and an idle engine stays idle (R191, R219, R165, R141). -/
theorem engineStep_idle_iff (s : State) : (engineStep s).fsm = .idle ↔ s.eng.fsm = .idle := by
  by_cases h : s.eng.fsm = .idle
  · simp [engineStep, h]
  · obtain ⟨h1, h2, h3, h4, h5, h6, h7, h8, h9, h10, h11, h12, h13, h14, h15⟩ :=
      engineFns_ne_idle s s.eng s.cmdStrict s.cmdUsePad h
    simp only [h, iff_false]
    unfold engineStep
    dsimp only
    split <;> first | assumption | simp

/-- Accept leaves IDLE (R245). -/
theorem engineStart_ne_idle (w : Word) (e : Engine) : (engineStart w e).fsm ≠ .idle := by
  unfold engineStart
  split <;> simp

/-- The address map gives back the location whose offset it is asked for (R79). -/
theorem Loc.ofOffset_offset (l : Loc) : Loc.ofOffset l.offset = some l := by
  cases l with
  | astage i => revert i; decide +kernel
  | alpha i => revert i; decide +kernel
  | strbuf i => revert i; decide +kernel
  | val k => revert k; decide
  | res k => revert k; decide
  | _ => decide

/-- Every mapped offset is its location's (R79). -/
theorem Loc.eq_offset_of_ofOffset (off : Offset) (l : Loc) (h : Loc.ofOffset off = some l) :
    off = l.offset := by
  have all : ∀ a b : Fin 64,
      (match Loc.ofOffset (BitVec.ofNat 12 (64 * a.val + b.val)) with
        | some l => decide (BitVec.ofNat 12 (64 * a.val + b.val) = l.offset)
        | none => true) = true := by decide +kernel
  have hl := off.isLt
  have := all ⟨off.toNat / 64, by omega⟩ ⟨off.toNat % 64, by omega⟩
  simp only [Nat.div_add_mod, BitVec.ofNat_toNat, BitVec.setWidth_eq] at this
  rw [h] at this
  simpa using this

theorem Loc.offset_inj (l l' : Loc) : l.offset = l'.offset ↔ l = l' := by
  constructor
  · intro h
    have := Loc.ofOffset_offset l
    rw [h, Loc.ofOffset_offset l'] at this
    exact (Option.some.inj this).symm
  · rintro rfl; rfl

/-- What one step that answers a next state was (R17, R18): a completion, an engine event while no command
runs, a working step, an edge of rst, or a host access. -/
inductive StepKind (s t : State) : Prop where
  | complete (due : s.completionDue) (run : runCommand { s with events := s.events.tail } = .next t)
  | idle (idle : s.engineBusy = false) (ev : s.events = [] ∨ ∃ rest, s.events = .complete :: rest)
      (eq : t = { s with events := s.events.tail })
  | work (rest : List Event) (ev : s.events = .work :: rest)
      (eq : t = if s.engineBusy then engineWork { s with events := rest } else { s with events := rest })
  | rst (level : Bool) (rest : List Event) (ev : s.events = .rst level :: rest)
      (eq : t = setRst { s with events := rest } level)
  | access (a : Access) (rest : List Event) (low : s.rst = false) (ev : s.events = .access a :: rest)
      (eq : t = hostAccess { s with events := rest } a)

theorem step_kind (s t : State) (h : step s = .next t) : StepKind s t := by
  unfold step at h
  split at h
  · rename_i he
    have ht : { s with events := s.events.tail } = s := by rw [he]; cases s; simp_all
    split at h
    · rename_i hb
      simp only [State.engineBusy, Bool.and_eq_true, Bool.not_eq_true'] at hb
      exact .complete ⟨hb.1, hb.2, .inl he⟩ (by rw [ht]; exact h)
    · rename_i hb
      cases h
      exact .idle (by simpa using hb) (.inl he) ht.symm
  · rename_i ev rest he
    rcases handleEvent_cases _ _ _ h with
      ⟨a, rfl, hr, ht⟩ | ⟨rfl, ht⟩ | ⟨rfl, hb, ht⟩ | ⟨rfl, hb, ht⟩ | ⟨level, rfl, ht⟩
    · exact .access a rest hr he ht
    · exact .work rest he ht
    · simp only [State.engineBusy, Bool.and_eq_true, Bool.not_eq_true'] at hb
      exact .complete ⟨hb.1, hb.2, .inr ⟨rest, he⟩⟩ (by rw [he]; exact ht)
    · exact .idle hb (.inr ⟨rest, he⟩) (by rw [he]; exact ht)
    · exact .rst level rest he ht

/-- What one host access was (R72 to R74, R245 to R248, R283), by the location it names. -/
inductive AccessKind (s t : State) (a : Access) : Prop where
  | bad (off : Offset) (nowrite : ∀ l v, a ≠ .write (Loc.offset l) 4 0xF#4 v) (eq : t = busError s off)
  | read (l : Loc) (is : a = .read l.offset 4) (eq : t = hostRead s l.offset l)
  | softReset (v : Word) (is : a = .write (Loc.offset .ctrl) 4 0xF#4 v) (bit : v.getLsbD 1 = true)
      (eq : t = { blockReset s with resp := some .written })
  | ctrl (v : Word) (is : a = .write (Loc.offset .ctrl) 4 0xF#4 v) (bit : v.getLsbD 1 = false)
      (eq : t = { s with irqEn := v.getLsbD 0, resp := some .written })
  | status (v : Word) (is : a = .write (Loc.offset .status) 4 0xF#4 v)
      (eq : t = { s.clearStatus v with resp := some .written })
  | drop (l : Loc) (v : Word) (is : a = .write l.offset 4 0xF#4 v) (h1 : l ≠ .ctrl) (h2 : l ≠ .status)
      (busy : s.busy = true) (eq : t = { s with ovr := true, resp := some .written })
  | accept (v : Word) (is : a = .write (Loc.offset .cmd) 4 0xF#4 v) (idle : s.busy = false)
      (eq : t = { accept s v with resp := some .written })
  | poke (l : Loc) (v : Word) (is : a = .write l.offset 4 0xF#4 v) (h1 : l ≠ .ctrl) (h2 : l ≠ .status)
      (h3 : l ≠ .cmd) (idle : s.busy = false) (eq : t = { s.poke l v with resp := some .written })

theorem hostAccess_kind (s : State) (a : Access) : AccessKind s (hostAccess s a) a := by
  by_cases hw : ∃ l v, a = .write (Loc.offset l) 4 0xF#4 v
  · obtain ⟨l, v, rfl⟩ := hw
    have he : hostAccess s (.write l.offset 4 0xF#4 v) = hostWrite s l v := by
      simp [hostAccess, Loc.ofOffset_offset]
    rw [he, hostWrite]
    rcases hostWriteEffect_cases s l v with
      ⟨rfl, hv, e⟩ | ⟨rfl, hv, e⟩ | ⟨rfl, e⟩ | ⟨h1, h2, hb, e⟩ | ⟨rfl, hb, e⟩ | ⟨h1, h2, h3, hb, e⟩ <;>
      rw [e]
    · exact .softReset v rfl hv rfl
    · exact .ctrl v rfl hv rfl
    · exact .status v rfl rfl
    · exact .drop l v rfl h1 h2 hb rfl
    · exact .accept v rfl hb rfl
    · exact .poke l v rfl h1 h2 h3 hb rfl
  · rcases hostAccess_cases s a with ⟨off, e⟩ | ⟨off, l, ho, ha, e⟩ | ⟨off, l, v, ho, ha, e⟩
    · exact .bad off (fun l v hc => hw ⟨l, v, hc⟩) e
    · rw [Loc.eq_offset_of_ofOffset off l ho] at ha e
      exact .read l ha e
    · exact absurd ⟨l, v, by rw [ha, Loc.eq_offset_of_ofOffset off l ho]⟩ hw

/-- A plain store changes none but the read-write locations (R22, R74). -/
theorem State.poke_frame (s : State) (l : Loc) (v : Word) :
    s.poke l v = { s with
      val := (s.poke l v).val, opm := (s.poke l v).opm, opa := (s.poke l v).opa, rin := (s.poke l v).rin,
      padlen := (s.poke l v).padlen, strlen := (s.poke l v).strlen, astageCnt := (s.poke l v).astageCnt,
      astage := (s.poke l v).astage, strbuf := (s.poke l v).strbuf } := by
  cases l <;> rfl

/-- The invariant of R52 reads three registers alone. -/
theorem State.AlphabetInv_congr (s t : State) (h : s.AlphabetInv) (ha : t.alpha = s.alpha)
    (hn : t.nbase = s.nbase) (hd : t.defpad = s.defpad) : t.AlphabetInv := by
  unfold State.AlphabetInv State.symbols
  rw [ha, hn, hd]
  exact h

end Sys2Proof.Machine
end

