-- ==== Sys2Proof/Laws/HostAsm.lean ====
section
/-! SUPPORT. What the accesses of a SUC-asm listing do to an idle block (30_encoding.md R112, R114), and what the
cells of a host's variables hold. -/

namespace Sys2Proof.Machine

/-- A read of an idle block (R112, R88). -/
theorem hostAccess_readOf (s : State) (l : Loc) (h : s.busy = false) :
    hostAccess s (readOf l) = { s with resp := some (.data (s.peek l)) } := by
  simp [hostAccess, readOf, Loc.ofOffset_offset, hostRead, hostReadValue, h]

/-- A write of a location that only stores, to an idle block (R112, R74). -/
theorem hostAccess_writeOf (s : State) (l : Loc) (v : Word) (h : s.busy = false) (hl : l.stores = true) :
    hostAccess s (writeOf l v) = { s.poke l v with resp := some .written } := by
  simp only [hostAccess, writeOf, Loc.ofOffset_offset, hostWrite, hostWriteEffect, h]
  cases l <;> simp_all [Loc.stores]

/-- `hostRun` one step at a time. -/
theorem hostRun_succ (listing : List HostOp) (n : Nat) (hs : HostState × State) :
    hostRun listing (n + 1) hs = hostRun listing n (hostStep listing hs.1 hs.2) := rfl

/-- A cell just set. -/
theorem HostState.cell_cons_self (line : Nat) (vars : List (HostCell × Word)) (wrong : Bool) (c : HostCell)
    (v : Word) : HostState.cell ⟨line, (c, v) :: vars, wrong⟩ c = v := by
  simp [HostState.cell]

/-- A cell another read does not set. -/
theorem HostState.cell_cons_ne (line : Nat) (vars : List (HostCell × Word)) (wrong : Bool) (c d : HostCell)
    (v : Word) (h : d ≠ c) :
    HostState.cell ⟨line, (d, v) :: vars, wrong⟩ c = HostState.cell ⟨line, vars, wrong⟩ c := by
  simp [HostState.cell, h]

/-- What the writes of `storeFrom` do to STRBUF of an idle block: the characters at their entries, nothing
else (R114). -/
theorem foldl_storeFrom_strbuf (codes : List Word) (i : Nat) (s : State) (h : s.busy = false)
    (hi : i + codes.length ≤ 256) :
    ∃ file r, ((storeFrom .strbuf i codes).flatMap (HostOp.accesses 0)).foldl hostAccess s =
        { s with strbuf := file, resp := r } ∧
      ∀ j, file[j]? = if i ≤ j ∧ j < i + codes.length then codes[j - i]? else s.strbuf[j]? := by
  induction codes generalizing i s with
  | nil => exact ⟨s.strbuf, s.resp, rfl, fun j => by simp⟩
  | cons c codes ih =>
    simp only [List.length_cons] at hi
    have hlt : i < 256 := by omega
    obtain ⟨file, r, e, hf⟩ := ih (i + 1)
      { s with strbuf := s.strbuf.set i c, resp := some .written } h (by omega)
    refine ⟨file, r, ?_, fun j => ?_⟩
    · simp only [storeFrom, hlt, dif_pos, List.singleton_append, List.flatMap_cons, HostOp.accesses,
        List.foldl_cons]
      rw [hostAccess_writeOf s _ c h rfl]
      exact e
    · rw [hf]
      simp only [List.length_cons]
      by_cases hj : i = j
      · subst hj
        simp [hlt]
      · have he : (s.strbuf.set i c)[j]? = s.strbuf[j]? := Vector.getElem?_set_ne hlt hj
        rw [he]
        by_cases h1 : i ≤ j ∧ j < i + (codes.length + 1)
        · have h2 : i + 1 ≤ j ∧ j < i + 1 + codes.length := by omega
          rw [if_pos h1, if_pos h2, show j - i = (j - (i + 1)) + 1 by omega]
          simp
        · rw [if_neg h1, if_neg (by omega)]

/-- What the writes of `storeFrom` do to ASTAGE of an idle block (R114). -/
theorem foldl_storeFrom_astage (codes : List Word) (i : Nat) (s : State) (h : s.busy = false)
    (hi : i + codes.length ≤ 256) :
    ∃ file r, ((storeFrom .astage i codes).flatMap (HostOp.accesses 0)).foldl hostAccess s =
        { s with astage := file, resp := r } ∧
      ∀ j, file[j]? = if i ≤ j ∧ j < i + codes.length then codes[j - i]? else s.astage[j]? := by
  induction codes generalizing i s with
  | nil => exact ⟨s.astage, s.resp, rfl, fun j => by simp⟩
  | cons c codes ih =>
    simp only [List.length_cons] at hi
    have hlt : i < 256 := by omega
    obtain ⟨file, r, e, hf⟩ := ih (i + 1)
      { s with astage := s.astage.set i c, resp := some .written } h (by omega)
    refine ⟨file, r, ?_, fun j => ?_⟩
    · simp only [storeFrom, hlt, dif_pos, List.singleton_append, List.flatMap_cons, HostOp.accesses,
        List.foldl_cons]
      rw [hostAccess_writeOf s _ c h rfl]
      exact e
    · rw [hf]
      simp only [List.length_cons]
      by_cases hj : i = j
      · subst hj
        simp [hlt]
      · have he : (s.astage.set i c)[j]? = s.astage[j]? := Vector.getElem?_set_ne hlt hj
        rw [he]
        by_cases h1 : i ≤ j ∧ j < i + (codes.length + 1)
        · have h2 : i + 1 ≤ j ∧ j < i + 1 + codes.length := by omega
          rw [if_pos h1, if_pos h2, show j - i = (j - (i + 1)) + 1 by omega]
          simp
        · rw [if_neg h1, if_neg (by omega)]

end Sys2Proof.Machine
end

