-- ==== Sys2Proof/Laws/PerInstr.lean ====
section
/-! SUPPORT. Facts about every command as syntax, one lemma per constructor of Instr. -/

namespace Sys2Proof.Laws.Fields

/-- A command's word splits into the command's own fields, and they are legal (R101, R107). -/
def Statement (i : Sys2Proof.Instr) : Prop :=
  Sys2Proof.fieldsOf (Sys2Proof.encode i) = i.fields ∧ i.wellFormed = true

theorem muladd : Statement .muladd := by unfold Statement; decide
theorem divmod : Statement .divmod := by unfold Statement; decide
theorem div64 : Statement .div64 := by unfold Statement; decide
theorem encode (usePad : Bool) : Statement (.encode usePad) := by
  unfold Statement; cases usePad <;> decide
theorem decode (strict : Bool) : Statement (.decode strict) := by
  unfold Statement; cases strict <;> decide
theorem abuild : Statement .abuild := by unfold Statement; decide
theorem movrv : Statement .movrv := by unfold Statement; decide

end Sys2Proof.Laws.Fields
end

