-- ==== Sys2Proof/Tests/Slice0.lean ====
section
/-! SUPPORT. The model's own tests: ill-formed fields refused, words written out from the encoding decoded,
test vectors of 95_test_vectors.md one step each, and a witness of the hypotheses of every obligation. -/

set_option maxRecDepth 100000

namespace Sys2Proof.Tests

open Sys2Proof.Machine

/-! ## Helpers -/

/-- The next state of an outcome. -/
def nextOf : Host.Outcome State Fault Refusal → Option State
  | .next t => some t
  | .fault _ | .refused _ => none

/-- The state after the command word `w` runs as the first command in `s`. -/
def ran (w : Word) (s : State) : Option State := nextOf (step (s.withFetchWord 32 w.toNat))

/-- `s` with `w` accepted and the events `es` pending. -/
def running (s : State) (w : Word) (es : List Event) : State := { accept s w with events := es }

/-- The reset state with events pending. -/
def idleWith (es : List Event) : State := { State.reset with events := es }

/-- The reset state with a string in STRBUF. -/
def withString (s : State) (codes : List Word) : State :=
  { s with strbuf := Table.zero.write codes, strlen := BitVec.ofNat 32 codes.length }

/-- The reset state with symbols staged. -/
def withStaged (codes : List Word) : State :=
  { State.reset with astage := Table.zero.write codes, astageCnt := BitVec.ofNat 32 codes.length }

/-- The alphabet "01" (95_test_vectors.md P3). -/
def binary : State :=
  { State.reset with alpha := Table.zero.write [0x30#32, 0x31#32], nbase := 2#32, defpad := 64#32 }

/-- The UUID of 95_test_vectors.md L1-2. -/
def uuid : Value := 0x5453B1ED7BDE4A41A76C27F61ADE5F73#128

/-- "H2DX73XSkZc7NiVW3QYNes", the table of 95_test_vectors.md L1-2. -/
def uuidString : List Word :=
  [0x48#32, 0x32#32, 0x44#32, 0x58#32, 0x37#32, 0x33#32, 0x58#32, 0x53#32, 0x6B#32, 0x5A#32, 0x63#32] ++
  [0x37#32, 0x4E#32, 0x69#32, 0x56#32, 0x57#32, 0x33#32, 0x51#32, 0x59#32, 0x4E#32, 0x65#32, 0x73#32]

/-- Host accesses of the tests. -/
def wr (off : Offset) (v : Word) : Event := .access (.write off 4 0xF#4 v)
def rd (off : Offset) : Event := .access (.read off 4)

/-! ## Well-formedness: one ill-formed term for each check (30_encoding.md R107) -/

theorem test_opcodeNamed_refuses_zero_and_eight :
    (CmdFields.mk 0x00#8 false false 0#22).opcodeNamed = false ∧
    (CmdFields.mk 0x08#8 false false 0#22).opcodeNamed = false ∧
    (CmdFields.mk 0xFF#8 false false 0#22).legal = false := by decide

theorem test_rsvdZero_refuses :
    (CmdFields.mk 0x05#8 false false 1#22).rsvdZero = false ∧
    (CmdFields.mk 0x01#8 false false 0x200000#22).legal = false := by decide

theorem test_strictOnlyDecode_refuses :
    (CmdFields.mk 0x04#8 true false 0#22).strictOnlyDecode = false ∧
    (CmdFields.mk 0x04#8 true false 0#22).legal = false := by decide

theorem test_usePadOnlyEncode_refuses :
    (CmdFields.mk 0x05#8 false true 0#22).usePadOnlyEncode = false ∧
    (CmdFields.mk 0x05#8 false true 0#22).legal = false := by decide

theorem test_every_command_is_wellFormed (b : Bool) :
    Instr.muladd.wellFormed = true ∧ Instr.divmod.wellFormed = true ∧ Instr.div64.wellFormed = true ∧
    (Instr.encode b).wellFormed = true ∧ (Instr.decode b).wellFormed = true ∧
    Instr.abuild.wellFormed = true ∧ Instr.movrv.wellFormed = true := by revert b; decide

/-! ## Decoding: words written bit by bit, RSVD (22 bits), USE_PAD, STRICT, OPCODE (30_encoding.md R101, R105) -/

theorem test_decode_limb_words :
    decode 0b0000000000000000000000_0_0_00000001#32 = .ok .muladd ∧
    decode 0b0000000000000000000000_0_0_00000010#32 = .ok .divmod ∧
    decode 0b0000000000000000000000_0_0_00000011#32 = .ok .div64 := by decide

theorem test_decode_encode_words :
    decode 0b0000000000000000000000_0_0_00000100#32 = .ok (.encode false) ∧
    decode 0b0000000000000000000000_1_0_00000100#32 = .ok (.encode true) := by decide

theorem test_decode_decode_words :
    decode 0b0000000000000000000000_0_0_00000101#32 = .ok (.decode false) ∧
    decode 0b0000000000000000000000_0_1_00000101#32 = .ok (.decode true) := by decide

theorem test_decode_alphabet_and_move_words :
    decode 0b0000000000000000000000_0_0_00000110#32 = .ok .abuild ∧
    decode 0b0000000000000000000000_0_0_00000111#32 = .ok .movrv := by decide

/-- 95_test_vectors.md L2-8 and L2-2: the illegal words, each refused by name. -/
theorem test_decode_illegal_words :
    decode 0x00000000#32 = .error .reservedOpcode ∧ decode 0x00000008#32 = .error .reservedOpcode ∧
    decode 0x000000FF#32 = .error .reservedOpcode ∧ decode 0x00000104#32 = .error .strictNotDecode ∧
    decode 0x00000205#32 = .error .usePadNotEncode ∧ decode 0x00000304#32 = .error .strictNotDecode ∧
    decode 0x00000305#32 = .error .usePadNotEncode ∧ decode 0x00000405#32 = .error .reservedBitsSet ∧
    decode 0x80000001#32 = .error .reservedBitsSet ∧ decode 0x00000101#32 = .error .strictNotDecode ∧
    decode 0x00000201#32 = .error .usePadNotEncode := by decide

theorem test_decodeTableWord :
    decodeTableWord 32 0x00000204 = some (.encode true) ∧ decodeTableWord 32 0x00000105 = some (.decode true) ∧
    decodeTableWord 8 0x07 = some .movrv ∧ decodeTableWord 32 0x00000104 = none := by decide

/-! ## One step of each command (95_test_vectors.md L2) -/

/-- L2-2, row 1 and row 3. -/
theorem test_muladd_carries_and_wraps :
    (ran 1#32 { State.reset with val := 0xFFFFFFFF#128, opm := 2#32, opa := 3#32 }).map
        (fun t => (t.res, t.statusWord)) = some (0x0000000200000001#128, 0x00000002#32) ∧
    (ran 1#32 { State.reset with val := BitVec.allOnes 128, opm := 1#32, opa := 1#32 }).map
        (fun t => (t.res, t.val)) = some (0#128, BitVec.allOnes 128) := by decide +kernel

/-- L2-3: an incoming remainder, and the edge of FITS64. -/
theorem test_divmod_incoming_remainder_and_tag :
    (ran 2#32 { State.reset with val := 0xFEFF#128, opm := 0xF#32, rin := 0xE#32 }).map
        (fun t => (t.res, t.rem, t.statusWord)) =
      some (0xEEEEEEEEEEEEEEEEEEEEEEEEEEEEFFEE#128, 0xD#32, 0x002#32) ∧
    (ran 2#32 { State.reset with val := 0x38FFFFFFFFFFFFFFFF#128, opm := 57#32 }).map
        (fun t => (t.res, t.rem, t.statusWord)) = some (0xFFFFFFFFFFFFFFFF#128, 0x38#32, 0x00A#32) := by
  decide +kernel

/-- L2-3: the error rows. -/
theorem test_divmod_errors :
    (ran 2#32 { State.reset with opm := 0#32, rin := 7#32 }).map State.statusWord = some 0x206#32 ∧
    (ran 2#32 { State.reset with val := 1#128, opm := 5#32, rin := 5#32 }).map State.statusWord =
      some 0x306#32 := by decide +kernel

/-- L2-4: the high half is ignored, and so is RIN. -/
theorem test_div64_ignores_high_half :
    (ran 3#32 { State.reset with val := 0xAAAA0000BBBB00000000000000000064#128, opm := 57#32, rin := 99#32 }).map
      (fun t => (t.res, t.rem, t.statusWord)) = some (1#128, 0x2B#32, 0x00A#32) := by decide +kernel

theorem test_div64_by_zero :
    (ran 3#32 { State.reset with res := 7#128 }).map (fun t => (t.res, t.statusWord)) =
      some (7#128, 0x206#32) := by decide +kernel

/-- L1-2. -/
theorem test_encode_uuid :
    (ran 4#32 { State.reset with val := uuid }).map (fun t => (t.string, t.ndig, t.statusWord)) =
      some (uuidString, 22#32, 0x00000002#32) := by decide +kernel

/-- L2-6: PADLEN 0 with VAL 0, and PADLEN 257. -/
theorem test_encode_pad_edges :
    (ran 0x204#32 State.reset).map (fun t => (t.string, t.ndig)) = some ([0x32#32], 1#32) ∧
    (ran 0x204#32 { State.reset with padlen := 257#32 }).map (fun t => (t.strlen, t.statusWord)) =
      some (0#32, 0x606#32) := by decide +kernel

/-- L1-3. -/
theorem test_decode_uuid :
    (ran 5#32 (withString State.reset uuidString)).map (fun t => (t.res, t.statusWord)) =
      some (uuid, 0x00000002#32) := by decide +kernel

/-- L2-7: "2I3", permissive and strict. -/
theorem test_decode_absent_symbol :
    (ran 5#32 (withString State.reset [0x32#32, 0x49#32, 0x33#32])).map (fun t => (t.res, t.statusWord)) =
      some (1#128, 0x002#32) ∧
    (ran 0x105#32 (withString State.reset [0x32#32, 0x49#32, 0x33#32])).map
      (fun t => (t.res, t.statusWord, t.errIdx)) = some (0#128, 0x506#32, 1#32) := by decide +kernel

/-- L2-1: "b", "a", "b". -/
theorem test_abuild_sorts_and_dedups :
    (ran 6#32 (withStaged [0x62#32, 0x61#32, 0x62#32])).map
      (fun t => (t.symbols, t.alpha[2], t.nbase, t.defpad, t.statusWord)) =
      some ([0x61#32, 0x62#32], 0#32, 2#32, 64#32, 0x002#32) := by decide +kernel

/-- L2-1: "z", "z" and a count of 257. -/
theorem test_abuild_errors :
    (ran 6#32 (withStaged [0x7A#32, 0x7A#32])).map (fun t => (t.nbase, t.statusWord)) =
      some (57#32, 0x406#32) ∧
    (ran 6#32 { State.reset with astageCnt := 257#32 }).map (fun t => (t.nbase, t.statusWord)) =
      some (57#32, 0x606#32) := by decide +kernel

/-- L2-5. -/
theorem test_movrv :
    (ran 7#32 { State.reset with res := 0x0000000200000001#128, val := 5#128, fits64 := true }).map
      (fun t => (t.val, t.res, t.statusWord)) =
      some (0x0000000200000001#128, 0x0000000200000001#128, 0x00A#32) := by decide +kernel

/-! ## The protocol (95_test_vectors.md L2-8, L2-9) -/

theorem test_illegal_word_keeps_cmd :
    (ran 0x305#32 { State.reset with res := 9#128 }).map (fun t => (t.cmd, t.res, t.statusWord)) =
      some (0x305#32, 9#128, 0x106#32) := by decide +kernel

theorem test_write_cmd_during_busy_is_dropped :
    (nextOf (step (running State.reset 4#32 [wr 0x00C#12 5#32]))).map (fun t => (t.cmd, t.busy, t.ovr)) =
      some (4#32, true, true) := by decide +kernel

theorem test_bus_errors :
    (nextOf (step (idleWith [rd 0x060#12]))).map State.resp = some (some (.busError 0x060#12)) ∧
    (nextOf (step (idleWith [rd 0x022#12]))).map State.resp = some (some (.busError 0x022#12)) ∧
    (nextOf (step (idleWith [.access (.write 0x020#12 2 0xF#4 1#32)]))).map (fun t => (t.val, t.resp)) =
      some (0#128, some (.busError 0x020#12)) := by decide +kernel

theorem test_reset_alphabet_reads :
    (nextOf (step (idleWith [rd 0x800#12]))).map State.resp = some (some (.data 0x32#32)) ∧
    (nextOf (step (idleWith [rd 0x8E0#12]))).map State.resp = some (some (.data 0x7A#32)) ∧
    (nextOf (step (idleWith [rd 0x8E4#12]))).map State.resp = some (some (.data 0#32)) := by decide +kernel

theorem test_status_clears_by_bit_one_only :
    (nextOf (step { idleWith [wr 0x010#12 0x0000FFFD#32] with
      done := true, err := true, errcode := .illegalOpcode })).map State.statusWord = some 0x00000106#32 ∧
    (nextOf (step { idleWith [wr 0x010#12 0x00000002#32] with
      done := true, err := true, errcode := .illegalOpcode })).map State.statusWord = some 0x00000104#32 := by
  decide +kernel

theorem test_ctrl_all_ones_is_soft_reset :
    (nextOf (step { idleWith [wr 0x008#12 0xFFFFFFFF#32] with val := 5#128, irqEn := true })).map
      (fun t => (t.val, t.ctrlWord)) = some (0#128, 0#32) := by decide +kernel

theorem test_irq_rises_at_completion :
    (ran 1#32 { State.reset with irqEn := true }).map State.irq = some true ∧
    (running { State.reset with irqEn := true } 1#32 []).irq = false := by decide +kernel

/-- 70_reset_and_hazards.md R301: 82 cycles, the last the completion, for the ENCODE of L1-2. -/
theorem test_reference_encoder_takes_82_cycles :
    (engineComplete (engineRun 81 (running { State.reset with val := uuid } 4#32 []))).map State.string =
      some uuidString ∧
    engineComplete (engineRun 80 (running { State.reset with val := uuid } 4#32 [])) = none := by decide +kernel

/-- 95_test_vectors.md P1: one host step of a listing writes VAL3, and a `bne` that is not taken goes on. -/
theorem test_host_listing_step :
    (hostStep [.wr (.val 3) 0x12345#32] ⟨0, [], false⟩ State.reset).2.val = 0x12345#128 ∧
    (hostStep [.bne (.word 0) 0#128 0] ⟨0, [], false⟩ State.reset).1.line = 1 := by decide +kernel

/-- 95_test_vectors.md P1: after `rd128 RES -> q` the branch `bne q, 0, dloop` is taken with RES = 1308, in which
RES0 alone is 0, and not with RES = 0; a branch on the part q3 reads RES3 (log 23). -/
theorem test_branch_on_rd128_compares_all_limbs :
    (hostRun ((Pseudo.rd128 0).expand ++ [.bne (.wide 0) 0#128 77]) 5
      (⟨0, [], false⟩, { State.reset with res := 0x51B#128 })).1.line = 77 ∧
    (hostRun ((Pseudo.rd128 0).expand ++ [.bne (.wide 0) 0#128 77]) 5 (⟨0, [], false⟩, State.reset)).1.line = 5 ∧
    (hostRun ((Pseudo.rd128 0).expand ++ [.beq (.part 0 3) 0x51B#128 77]) 5
      (⟨0, [], false⟩, { State.reset with res := 0x51B#128 })).1.line = 77 := by
  decide +kernel

/-! ## Witnesses: for every obligation with hypotheses, a state and operands that meet them together -/

theorem witness_binary_alphabet : binary.AlphabetInv := by decide +kernel

theorem witness_default_alphabet : State.reset.AlphabetInv := by decide +kernel

/-- The 256 words 0x00 to 0xFF (L2-1). -/
def allBytes : State :=
  { State.reset with
    alpha := Table.zero.write ((List.range 256).map (BitVec.ofNat 32)), nbase := 256#32, defpad := 8#32 }

theorem witness_largest_alphabet : allBytes.AlphabetInv := by decide +kernel

/-- IllegalWordsCompleteWithIllegalOpcode: a legal word and words that break each conjunct of `legal`. -/
theorem witness_IllegalWordsCompleteWithIllegalOpcode :
    (running State.reset 0x00000105#32 []).completionDue ∧
    (running State.reset 0x00000400#32 [.complete]).completionDue ∧
    (running State.reset 0x00000008#32 []).completionDue ∧
    (running State.reset 0x00000104#32 []).completionDue ∧
    (running State.reset 0x00000205#32 []).completionDue :=
  ⟨⟨rfl, rfl, .inl rfl⟩, ⟨rfl, rfl, .inr ⟨_, rfl⟩⟩, ⟨rfl, rfl, .inl rfl⟩, ⟨rfl, rfl, .inl rfl⟩,
    ⟨rfl, rfl, .inl rfl⟩⟩

theorem witness_EveryWordIsLegalOrIllegalOpcode :
    ((running State.reset 0x00000204#32 [.complete, .work]).completionDue ∧ 0x00000204#32 ∈ legalWords) ∧
    ((running State.reset 0x80000001#32 []).completionDue ∧ 0x80000001#32 ∉ legalWords) :=
  ⟨⟨⟨rfl, rfl, .inr ⟨_, rfl⟩⟩, by decide⟩, ⟨⟨rfl, rfl, .inl rfl⟩, by decide⟩⟩

theorem witness_ReservedOpcodeIsAcceptedThenFails :
    ((idleWith [wr 0x00C#12 0#32, .complete]).busy = false ∧
      (idleWith [wr 0x00C#12 0#32, .complete]).rst = false) ∧
    (0#32).extractLsb' 0 8 = 0x00#8 ∧ 0x08#8 ≤ (0x00000008#32).extractLsb' 0 8 ∧
    0x08#8 ≤ (0xFFFFFFFF#32).extractLsb' 0 8 := by decide

theorem witness_StepRunsDecodedCommand :
    (running State.reset 0x204#32 []).busy = true ∧ (running State.reset 0x204#32 []).rst = false ∧
    decode (running State.reset 0x204#32 []).cmd = .ok (.encode true) ∧
    (running State.reset 0x204#32 [.complete, .work]).events = .complete :: [.work] := by decide

/-- The frame clause of StepRunsDecodedCommand: an idle block with no event, an engine event while no command runs, a
working step of a running command, and the release of rst. -/
theorem witness_StepRunsDecodedCommand_frame :
    ∀ s ∈ [State.reset, idleWith [.work], idleWith [.complete], running State.reset 1#32 [.work],
        { idleWith [.rst false] with rst := true }],
      (∀ a rest, s.events ≠ .access a :: rest) ∧ ¬ s.completionDue ∧ ¬ s.resetDue := by
  intro s hs
  simp only [List.mem_cons, List.not_mem_nil, or_false] at hs
  rcases hs with rfl | rfl | rfl | rfl | rfl <;> refine ⟨?_, ?_, ?_⟩ <;>
    first
      | (intro a rest h; cases h)
      | (rintro ⟨h, -, -⟩; cases h; done)
      | (rintro ⟨-, -, h | ⟨_, h⟩⟩ <;> cases h)
      | (rintro (⟨_, h⟩ | ⟨_, -, -, _, h⟩) <;> cases h)

theorem witness_EveryCommandCompletesWithItsError :
    State.reset.AlphabetInv ∧ State.reset.err = false ∧ State.reset.errcode = .noError ∧
    ((running State.reset 2#32 []).AlphabetInv ∧ (running State.reset 2#32 []).err = false ∧
      (running State.reset 2#32 []).errcode = .noError ∧ (running State.reset 2#32 []).completionDue) :=
  ⟨witness_default_alphabet, rfl, rfl,
    State.AlphabetInv_congr _ _ witness_default_alphabet rfl rfl rfl, rfl, rfl, rfl, rfl, .inl rfl⟩

/-- Its clauses: MULADD and ENCODE succeed and DIVMOD fails after reset, a strict DECODE fails with
INVALID_CHARACTER, and an accept. -/
theorem witness_CommandsWriteExactlyTheirTable :
    State.reset.err = false ∧ (∃ t, exec .muladd State.reset = .next t ∧ t.err = false) ∧
    (∃ t, exec .divmod State.reset = .next t ∧ t.err = true) ∧
    ((idleWith [wr 0x00C#12 1#32]).acceptDue 1#32 ∧ ∃ t, step (idleWith [wr 0x00C#12 1#32]) = .next t) ∧
    (nextOf (exec (.decode true) (withString binary [0x31#32, 0x32#32]))).map State.errcode =
      some .invalidCharacter ∧
    (∃ t, exec (.encode false) State.reset = .next t ∧ t.err = false) :=
  ⟨rfl, ⟨_, rfl, rfl⟩, ⟨_, rfl, rfl⟩, ⟨⟨rfl, rfl, _, rfl⟩, _, rfl⟩, by decide +kernel, by
    have h := exec_next_or_fault (.encode false) State.reset
    rcases h with ⟨t, ht⟩ | ⟨-, h, -⟩
    · refine ⟨t, ht, ?_⟩
      have : (nextOf (exec (.encode false) State.reset)).map State.err = some false := by decide +kernel
      rw [ht] at this
      simpa [nextOf] using this
    · exact absurd h (by decide)⟩

/-- Both sides of the premise at their edge: carry in with no addend, and the largest addend with no carry. -/
theorem witness_MulLimbStepLosesNothing :
    (∃ carry a : Word, carry ≠ 0#32 ∧ a = 0#32) ∧ (∃ carry a : Word, carry = 0#32 ∧ a = 0xFFFFFFFF#32) :=
  ⟨⟨0xFFFFFFFF#32, _, by decide, rfl⟩, ⟨_, _, rfl, rfl⟩⟩

theorem witness_DivmodComputesClosedForm :
    (0xFFFFFFFF#32 ≠ 0#32 ∧ 0xFFFFFFFE#32 < 0xFFFFFFFF#32) ∧ (1#32 ≠ 0#32 ∧ 0#32 < 1#32) := by decide

/-- The three ranges of DIVMOD's clauses at their edges: OPM = 0; RIN = OPM. -/
theorem witness_DivmodErrorsInOrder :
    State.reset.opm = 0#32 ∧
    ({ State.reset with opm := 1#32, rin := 1#32 } : State).opm ≠ 0#32 ∧
    ({ State.reset with opm := 1#32, rin := 1#32 } : State).opm ≤
      ({ State.reset with opm := 1#32, rin := 1#32 } : State).rin := by decide

theorem witness_DivSixtyFourDividesLowHalf :
    State.reset.opm = 0#32 ∧ ({ State.reset with opm := 1#32 } : State).opm ≠ 0#32 := by decide

/-- EncodeDigitsAreBaseN and EncodePhaseCounts: N = 2, with VAL = 0, VAL = 2^127 and a VAL below 2^64 * N. -/
theorem witness_EncodeDigitsAreBaseN :
    2 ≤ (2#32).toNat ∧ (0#128 = 0#128) ∧ (BitVec.ofNat 128 (2 ^ 127) ≠ 0#128) ∧
    2 ^ 127 ≤ (BitVec.ofNat 128 (2 ^ 127)).toNat ∧
    (BitVec.ofNat 128 (2 ^ 65 - 1)).toNat < 2 ^ 64 * (2#32).toNat ∧
    (BitVec.ofNat 128 (2 ^ 127)).toNat / (2#32).toNat ^ 64 < 2 ^ 64 := by decide +kernel

/-- EncodeCommitsPaddedDigits: the default alphabet at both sides of 57^11, and an explicit pad length of 256. -/
theorem witness_EncodeCommitsPaddedDigits :
    State.reset.AlphabetInv ∧ State.reset.nbase = 57#32 ∧
    (BitVec.ofNat 128 (57 ^ 11 - 1)).toNat < 57 ^ 11 ∧ 57 ^ 11 ≤ (BitVec.ofNat 128 (57 ^ 11)).toNat ∧
    (({ binary with padlen := 256#32 } : State).AlphabetInv ∧
      ({ binary with padlen := 256#32 } : State).padlen.toNat ≤ 256) :=
  ⟨witness_default_alphabet, rfl, by decide, by decide,
    State.AlphabetInv_congr _ _ witness_binary_alphabet rfl rfl rfl, by decide⟩

theorem witness_EncodeFailsOnlyOnPadLength :
    256 < ({ binary with padlen := 257#32 } : State).padlen.toNat ∧
    ({ binary with padlen := 256#32 } : State).AlphabetInv ∧
    ({ binary with padlen := 256#32 } : State).padlen.toNat ≤ 256 :=
  ⟨by decide, State.AlphabetInv_congr _ _ witness_binary_alphabet rfl rfl rfl, by decide⟩

theorem one_string : (withString binary [0x31#32]).string = [0x31#32] := by decide +kernel

theorem one_symbols : (withString binary [0x31#32]).symbols = [0x30#32, 0x31#32] := by decide +kernel

/-- A full buffer, permissive, and a strict string of one symbol of the alphabet. -/
theorem witness_DecodeComputesPositionalValue :
    ({ State.reset with strlen := 256#32 } : State).strlen.toNat ≤ 256 ∧
    (withString binary [0x31#32]).strlen.toNat ≤ 256 ∧
    (∀ c ∈ (withString binary [0x31#32]).string, c ∈ (withString binary [0x31#32]).symbols) := by
  refine ⟨by decide, by decide, ?_⟩
  rw [one_string, one_symbols]
  simp

/-- Its three clauses: a length of 257, every symbol present, and a first absent symbol at the last index. -/
theorem witness_StrictDecodeReportsFirstAbsentSymbol :
    256 < ({ binary with strlen := 257#32 } : State).strlen.toNat ∧
    ((withString binary [0x31#32]).strlen.toNat ≤ 256 ∧
      ∀ c ∈ (withString binary [0x31#32]).string, indexOf (withString binary [0x31#32]) c ≠ none) ∧
    ((withString binary [0x31#32, 0x32#32]).strlen.toNat ≤ 256 ∧
      (withString binary [0x31#32, 0x32#32]).string[1]? = some 0x32#32 ∧
      indexOf (withString binary [0x31#32, 0x32#32]) 0x32#32 = none ∧
      ∀ i a, i < 1 → (withString binary [0x31#32, 0x32#32]).string[i]? = some a →
        indexOf (withString binary [0x31#32, 0x32#32]) a ≠ none) := by
  refine ⟨by decide, ⟨by decide, ?_⟩, by decide, by decide +kernel, by decide +kernel, ?_⟩
  · rw [one_string]
    simp only [List.mem_cons, List.not_mem_nil, or_false, forall_eq]
    decide +kernel
  intro i a hi ha
  have h0 : i = 0 := by omega
  subst h0
  have hs : (withString binary [0x31#32, 0x32#32]).string[0]? = some 0x31#32 := by decide +kernel
  rw [hs] at ha
  cases ha
  decide +kernel

theorem witness_DecodeChecksLengthFirst :
    256 < ({ State.reset with strlen := 257#32 } : State).strlen.toNat ∧
    256 < ({ State.reset with strlen := 0xFFFFFFFF#32 } : State).strlen.toNat := by decide

/-- The state ENCODE leaves meets the four equations itself. -/
theorem witness_EncodeDecodeRoundTrip :
    allBytes.AlphabetInv ∧ ({ allBytes with padlen := 256#32 } : State).padlen.toNat ≤ 256 ∧
    (∀ t : State, t.strbuf = t.strbuf ∧ t.strlen = t.strlen ∧ t.alpha = t.alpha ∧ t.nbase = t.nbase) :=
  ⟨witness_largest_alphabet, by decide, fun _ => ⟨rfl, rfl, rfl, rfl⟩⟩

/-- First clause: "1" and "001" under the alphabet "01". Second: pad lengths 0 and 256. -/
theorem witness_LeadingZeroDigitsAreNeutral :
    ((withString binary [0x31#32]).AlphabetInv ∧
      (withString binary [0x30#32, 0x30#32, 0x31#32]).alpha = (withString binary [0x31#32]).alpha ∧
      (withString binary [0x30#32, 0x30#32, 0x31#32]).nbase = (withString binary [0x31#32]).nbase ∧
      (withString binary [0x31#32]).strlen.toNat ≤ 256 ∧
      (withString binary [0x30#32, 0x30#32, 0x31#32]).strlen.toNat ≤ 256 ∧
      (withString binary [0x30#32, 0x30#32, 0x31#32]).string =
        List.replicate 2 ((withString binary [0x31#32]).symbolAt 0#32) ++
          (withString binary [0x31#32]).string) ∧
    (binary.AlphabetInv ∧ (0#32 < 256#32) ∧ (256#32).toNat ≤ 256) :=
  ⟨⟨State.AlphabetInv_congr _ _ witness_binary_alphabet rfl rfl rfl, rfl, rfl, by decide, by decide,
    by decide +kernel⟩, witness_binary_alphabet, by decide, by decide⟩

/-- IndexOfFindsTheOnePosition: the last digit of the largest alphabet, and an absent symbol. -/
theorem witness_IndexOfFindsTheOnePosition :
    allBytes.AlphabetInv ∧ (255#32).toNat < allBytes.nbase.toNat ∧ binary.AlphabetInv ∧
    indexOf binary 0x32#32 = none ∧ indexOf binary 0x31#32 = some 1 :=
  ⟨witness_largest_alphabet, by decide, witness_binary_alphabet, by decide +kernel, by decide +kernel⟩

/-- A count of 256 with two distinct symbols: 1, then zeros. -/
theorem witness_AbuildCommitsCanonicalAlphabet :
    ({ withStaged [1#32] with astageCnt := 256#32 } : State).astageCnt.toNat ≤ 256 ∧
    2 ≤ ({ withStaged [1#32] with astageCnt := 256#32 } : State).staged.dedup.length ∧
    256 < ({ State.reset with astageCnt := 257#32 } : State).astageCnt.toNat ∧
    ((withStaged [0x7A#32]).astageCnt.toNat ≤ 256 ∧ (withStaged [0x7A#32]).staged.dedup.length < 2) := by
  decide +kernel

theorem witness_AbuildErrorsKeepTheAlphabet :
    256 < ({ State.reset with astageCnt := 257#32 } : State).astageCnt.toNat ∧
    ((withStaged [0x7A#32]).astageCnt.toNat ≤ 256 ∧ (withStaged [0x7A#32]).staged.dedup.length < 2) ∧
    ((withStaged [0x7A#32, 0#32]).astageCnt.toNat ≤ 256 ∧
      2 ≤ (withStaged [0x7A#32, 0#32]).staged.dedup.length) ∧
    (withStaged [0x7A#32]).err = false ∧
    (nextOf (exec .abuild (withStaged [0x7A#32]))).map State.err = some true := by
  decide +kernel

/-- The staged sets "bab" and "ab". -/
theorem witness_AbuildDependsOnlyOnTheSet :
    (withStaged [0x62#32, 0x61#32, 0x62#32]).astageCnt.toNat ≤ 256 ∧ (2#32).toNat ≤ 256 ∧
    ∀ c, c ∈ ({ withStaged [0x62#32, 0x61#32, 0x62#32] with
        astage := Table.zero.write [0x61#32, 0x62#32], astageCnt := 2#32 } : State).staged ↔
      c ∈ (withStaged [0x62#32, 0x61#32, 0x62#32]).staged := by
  refine ⟨by decide, by decide, ?_⟩
  intro c
  have h1 : ({ withStaged [0x62#32, 0x61#32, 0x62#32] with
      astage := Table.zero.write [0x61#32, 0x62#32], astageCnt := 2#32 } : State).staged =
      [0x61#32, 0x62#32] := by decide +kernel
  have h2 : (withStaged [0x62#32, 0x61#32, 0x62#32]).staged = [0x62#32, 0x61#32, 0x62#32] := by
    decide +kernel
  rw [h1, h2]
  simp only [List.mem_cons, List.not_mem_nil, or_false]
  tauto

theorem witness_DefaultPadLengthIsLeast :
    (2 ≤ 2 ∧ 2 ≤ 256 ∧ 2 ^ 64 ≤ 2 ^ 64) ∧ (2 ≤ 256 ∧ 256 ≤ 256 ∧ 2 ^ 64 ≤ 256 ^ 8) := by decide

/-- The edges of the row 57 to 84. -/
theorem witness_DefaultPadLengthTable : 57 < 257 ∧ 57 ≤ 57 ∧ 84 < 257 ∧ 84 ≤ 84 := by decide

/-- WindowAddressesSelectOffsets: the first and the last byte of the window. -/
theorem witness_WindowAddressesSelectOffsets :
    windowOffset baseAddr = some 0x000#12 ∧ windowOffset (baseAddr + 4095) = some 0xFFF#12 := by
  simp [windowOffset]

/-- AcceptStartsTheCommand: a legal and an illegal word. -/
theorem witness_AcceptStartsTheCommand :
    (idleWith [wr 0x00C#12 0x204#32]).acceptDue 0x204#32 ∧ (idleWith [wr 0x00C#12 0#32]).acceptDue 0#32 :=
  ⟨⟨rfl, rfl, _, rfl⟩, ⟨rfl, rfl, _, rfl⟩⟩

/-- Its three clauses: the last entry of STRBUF, STATUS, and CTRL without a soft reset; the last two while BUSY = 0
too. -/
theorem witness_WritesWhileBusyAreDropped :
    ((running State.reset 4#32 [wr 0xFFC#12 1#32]).busy = true ∧
      (running State.reset 4#32 [wr 0xFFC#12 1#32]).writeDue (Loc.strbuf 255).offset 1#32) ∧
    (running State.reset 4#32 [wr 0x010#12 0x12#32]).writeDue Loc.status.offset 0x12#32 ∧
    ((running State.reset 4#32 [wr 0x008#12 1#32]).writeDue Loc.ctrl.offset 1#32 ∧
      (1#32).getLsbD 1 = false) ∧
    (idleWith [wr 0x010#12 0x12#32]).writeDue Loc.status.offset 0x12#32 ∧
    (idleWith [wr 0x008#12 1#32]).writeDue Loc.ctrl.offset 1#32 :=
  ⟨⟨rfl, rfl, _, rfl⟩, ⟨rfl, _, rfl⟩, ⟨⟨rfl, _, rfl⟩, rfl⟩, ⟨rfl, _, rfl⟩, rfl, _, rfl⟩

/-- Each clause's location, and one whose read is unspecified. -/
theorem witness_ReadsWhileBusy :
    (running State.reset 4#32 [rd 0x000#12]).accessDue (.read Loc.id.offset 4) ∧
    (running State.reset 4#32 [rd 0x004#12]).accessDue (.read Loc.param.offset 4) ∧
    (running State.reset 4#32 [rd 0x008#12]).accessDue (.read Loc.ctrl.offset 4) ∧
    (running State.reset 4#32 [rd 0x00C#12]).accessDue (.read Loc.cmd.offset 4) ∧
    (running State.reset 4#32 [rd 0x010#12]).accessDue (.read Loc.status.offset 4) ∧
    (running State.reset 4#32 [rd 0x03C#12]).accessDue (.read (Loc.res 3).offset 4) :=
  ⟨⟨rfl, _, rfl⟩, ⟨rfl, _, rfl⟩, ⟨rfl, _, rfl⟩, ⟨rfl, _, rfl⟩, ⟨rfl, _, rfl⟩, ⟨rfl, _, rfl⟩⟩

theorem witness_StatusAndCtrlReadTheirFields :
    (idleWith [rd 0x010#12]).busy = false ∧ (idleWith [rd 0x010#12]).accessDue (.read 0x010#12 4) ∧
    (∀ e : ErrCode, ({ idleWith [rd 0x010#12] with errcode := e } : State).accessDue (.read 0x010#12 4)) ∧
    (idleWith [rd 0x008#12]).accessDue (.read 0x008#12 4) :=
  ⟨rfl, ⟨rfl, _, rfl⟩, fun _ => ⟨rfl, _, rfl⟩, ⟨rfl, _, rfl⟩⟩

/-! BusyChangesOnlyAtThreePoints, ResetValues (its last clause), DoneIsSetByEveryCompletion, ErrorReportIsWrittenTogether,
ErridxNamesTheFirstAbsentSymbol, OverrunFlagIsSticky, FitsTagWrittenOnlyByDivisions and
InterruptIsClearedThreeWays are over every step that answers: one step of each kind their clauses name. -/

theorem witness_step_accept :
    (∃ t, step (idleWith [wr 0x00C#12 1#32]) = .next t) ∧ (idleWith [wr 0x00C#12 1#32]).acceptDue 1#32 :=
  ⟨⟨_, rfl⟩, rfl, rfl, _, rfl⟩

theorem witness_step_completion :
    (∃ t, step (running State.reset 1#32 []) = .next t) ∧ (running State.reset 1#32 []).completionDue :=
  ⟨⟨_, rfl⟩, rfl, rfl, .inl rfl⟩

theorem witness_step_resets :
    ((∃ t, step (running State.reset 1#32 [.rst true]) = .next t) ∧
      (running State.reset 1#32 [.rst true]).resetDue) ∧
    ((∃ t, step (running State.reset 1#32 [wr 0x008#12 2#32]) = .next t) ∧
      (running State.reset 1#32 [wr 0x008#12 2#32]).resetDue) :=
  ⟨⟨⟨_, rfl⟩, .inl ⟨_, rfl⟩⟩, ⟨_, rfl⟩, .inr ⟨2#32, rfl, rfl, _, rfl⟩⟩

/-- A step that is none of them: a working step. -/
theorem witness_step_working :
    (∃ t, step (running State.reset 1#32 [.work]) = .next t) ∧
    (∀ w, ¬ (running State.reset 1#32 [.work]).acceptDue w) ∧
    ¬ (running State.reset 1#32 [.work]).completionDue ∧ ¬ (running State.reset 1#32 [.work]).resetDue ∧
    ¬ (running State.reset 1#32 [.work]).dropDue := by
  refine ⟨⟨_, rfl⟩, ?_, ?_, ?_, ?_⟩
  · rintro w ⟨h, -⟩; exact absurd h (by decide)
  · rintro ⟨-, -, h | ⟨_, h⟩⟩ <;> cases h
  · rintro (⟨_, h⟩ | ⟨_, -, -, _, h⟩) <;> cases h
  · rintro ⟨-, _, _, -, -, -, _, h⟩; cases h

theorem witness_step_drop :
    (∃ t, step (running State.reset 1#32 [wr 0x020#12 1#32]) = .next t) ∧
    (running State.reset 1#32 [wr 0x020#12 1#32]).dropDue :=
  ⟨⟨_, rfl⟩, rfl, .val 0, 1#32, by decide, by decide, rfl, _, rfl⟩

theorem witness_step_status_and_ctrl_writes :
    ((∃ t, step (idleWith [wr 0x010#12 2#32]) = .next t) ∧ (2#32).getLsbD 1 = true ∧
      (idleWith [wr 0x010#12 2#32]).writeDue 0x010#12 2#32) ∧
    ((∃ t, step (idleWith [wr 0x010#12 16#32]) = .next t) ∧ (16#32).getLsbD 4 = true ∧
      (idleWith [wr 0x010#12 16#32]).writeDue 0x010#12 16#32) ∧
    ((∃ t, step (idleWith [wr 0x008#12 0#32]) = .next t) ∧ (0#32).getLsbD 0 = false ∧
      (0#32).getLsbD 1 = false ∧ (idleWith [wr 0x008#12 0#32]).writeDue 0x008#12 0#32) :=
  ⟨⟨⟨_, rfl⟩, rfl, rfl, _, rfl⟩, ⟨⟨_, rfl⟩, rfl, rfl, _, rfl⟩, ⟨_, rfl⟩, rfl, rfl, rfl, _, rfl⟩

/-- FitsTagWrittenOnlyByDivisions: a DIVMOD and a DIV64 that succeed. -/
theorem witness_FitsTagWrittenOnlyByDivisions :
    ((running { State.reset with opm := 1#32 } 2#32 []).completionDue ∧
      decode (running { State.reset with opm := 1#32 } 2#32 []).cmd = .ok .divmod ∧
      (running { State.reset with opm := 1#32 } 2#32 []).opm ≠ 0#32 ∧
      (running { State.reset with opm := 1#32 } 2#32 []).rin <
        (running { State.reset with opm := 1#32 } 2#32 []).opm ∧
      ∃ t, step (running { State.reset with opm := 1#32 } 2#32 []) = .next t) ∧
    ((running { State.reset with opm := 1#32 } 3#32 []).completionDue ∧
      decode (running { State.reset with opm := 1#32 } 3#32 []).cmd = .ok .div64 ∧
      ∃ t, step (running { State.reset with opm := 1#32 } 3#32 []) = .next t) :=
  ⟨⟨⟨rfl, rfl, .inl rfl⟩, rfl, by decide, by decide, _, rfl⟩, ⟨rfl, rfl, .inl rfl⟩, rfl, _, rfl⟩

/-- ErrorReportIsWrittenTogether and ErridxNamesTheFirstAbsentSymbol: a completion with no error, one with
ILLEGAL_OPCODE, and one with INVALID_CHARACTER. -/
theorem witness_ErrorReportIsWrittenTogether :
    ((running State.reset 7#32 []).completionDue ∧ (running State.reset 7#32 []).wordError = .noError) ∧
    ((running State.reset 0#32 []).completionDue ∧
      (running State.reset 0#32 []).wordError = .illegalOpcode) ∧
    ((running (withString binary [0x32#32]) 0x105#32 []).completionDue ∧
      (running (withString binary [0x32#32]) 0x105#32 []).wordError = .invalidCharacter ∧
      ∃ t, step (running (withString binary [0x32#32]) 0x105#32 []) = .next t) := by
  refine ⟨⟨⟨rfl, rfl, .inl rfl⟩, by decide +kernel⟩, ⟨⟨rfl, rfl, .inl rfl⟩, by decide +kernel⟩,
    ⟨rfl, rfl, .inl rfl⟩, by decide +kernel, ?_⟩
  have h : (nextOf (step (running (withString binary [0x32#32]) 0x105#32 []))).isSome = true := by
    decide +kernel
  cases hs : step (running (withString binary [0x32#32]) 0x105#32 []) with
  | next t => exact ⟨t, rfl⟩
  | fault f => rw [hs] at h; cases h
  | refused r => rw [hs] at h; cases h

/-- Each reason an access is bad, at the edges of the unmapped range, and one that is not bad. -/
theorem witness_BadAccessesAreBusErrors :
    (Access.read 0x060#12 4).bad ∧ (Access.read 0x3FC#12 4).bad ∧ (Access.read 0x022#12 4).bad ∧
    (Access.read 0x020#12 2).bad ∧ (Access.write 0x020#12 4 0x7#4 0#32).bad ∧
    ¬ (Access.write 0x05C#12 4 0xF#4 0#32).bad ∧ ¬ (Access.read 0x400#12 4).bad ∧
    (idleWith [rd 0x3FC#12]).accessDue (.read 0x3FC#12 4) := by
  refine ⟨.inr (.inr (by decide)), .inr (.inr (by decide)), .inr (.inl (by decide)), .inl (by decide),
    .inl (.inr (by decide)), ?_, ?_, rfl, _, rfl⟩
  · rintro ((h | h) | h | h)
    · exact h rfl
    · exact h rfl
    · exact absurd h (by decide)
    · exact absurd h (by decide)
  · rintro (h | h | h)
    · exact h rfl
    · exact absurd h (by decide)
    · exact absurd h (by decide)

theorem witness_IdleReadsReturnAndReadOnlyWritesIgnore :
    (idleWith [rd 0xFFC#12]).accessDue (.read (Loc.strbuf 255).offset 4) ∧
    ((Loc.res 0).readOnly = true ∧
      (idleWith [wr 0x030#12 0x12345678#32]).writeDue (Loc.res 0).offset 0x12345678#32) :=
  ⟨⟨rfl, _, rfl⟩, rfl, rfl, _, rfl⟩

theorem witness_WrittenWordIsReadBack :
    (idleWith [wr 0x02C#12 9#32, rd 0x02C#12]).busy = false ∧
    (idleWith [wr 0x02C#12 9#32, rd 0x02C#12]).rst = false ∧ (Loc.val 3).stores = true ∧
    (idleWith [wr 0x02C#12 9#32, rd 0x02C#12]).events =
      .access (.write (Loc.val 3).offset 4 0xF#4 9#32) :: .access (.read (Loc.val 3).offset 4) :: [] :=
  ⟨rfl, rfl, rfl, rfl⟩

/-- ResetRestoresEveryState: while a command runs, the pin and a CTRL write with other bits set. -/
theorem witness_ResetRestoresEveryState :
    ((0xFFFFFFFF#32).getLsbD 1 = true ∧
      (running State.reset 4#32 [wr 0x008#12 0xFFFFFFFF#32]).writeDue 0x008#12 0xFFFFFFFF#32) ∧
    (running State.reset 4#32 [.rst true]).events = .rst true :: [] ∧
    ((1#32).getLsbD 1 = false ∧ (idleWith [wr 0x008#12 1#32]).writeDue 0x008#12 1#32) :=
  ⟨⟨rfl, rfl, _, rfl⟩, rfl, rfl, rfl, _, rfl⟩

theorem witness_NoHostStepDuringRst :
    ({ idleWith [rd 0x000#12] with rst := true } : State).rst = true ∧
    ({ idleWith [rd 0x000#12] with rst := true } : State).events = .access (.read 0x000#12 4) :: [] ∧
    ({ idleWith [.rst false] with rst := true } : State).events = .rst false :: [] ∧
    (idleWith [.rst true, .rst false, wr 0x00C#12 1#32]).events =
      .rst true :: .rst false :: .access (.write 0x00C#12 4 0xF#4 1#32) :: [] :=
  ⟨rfl, rfl, rfl, rfl⟩

/-- StepKeepsInvariant and InvariantStatesAreSafe: an idle state with the alphabet "01", a state in which a
command runs, and the reset state with the pin high. -/
theorem witness_StepKeepsInvariant :
    binary.Inv ∧ (∃ t, step binary = .next t) ∧
    (running binary 1#32 []).Inv ∧ (∃ t, step (running binary 1#32 []) = .next t) ∧
    ({ State.reset with rst := true } : State).Inv := by
  refine ⟨⟨witness_binary_alphabet, ?_, ?_, ?_⟩, ⟨_, rfl⟩,
    ⟨State.AlphabetInv_congr _ _ witness_binary_alphabet rfl rfl rfl, ?_, ?_, ?_⟩, ⟨_, rfl⟩,
    ⟨State.AlphabetInv_congr _ _ witness_default_alphabet rfl rfl rfl, ?_, ?_, fun _ => rfl⟩⟩ <;>
    decide +kernel

theorem witness_ResultIndependentOfInterleaving :
    (running binary 4#32 []).AlphabetInv ∧ (running binary 4#32 []).busy = true ∧
    (running binary 4#32 []).rst = false ∧
    ∀ e ∈ [Event.work, wr 0x020#12 1#32, wr 0x010#12 2#32, rd 0x030#12],
      e = .work ∨ ∃ a, e = .access a ∧ a.isSoftReset = false := by
  refine ⟨State.AlphabetInv_congr _ _ witness_binary_alphabet rfl rfl rfl, rfl, rfl, ?_⟩
  intro e he
  simp only [List.mem_cons, List.not_mem_nil, or_false] at he
  rcases he with rfl | rfl | rfl | rfl
  · exact .inl rfl
  · exact .inr ⟨_, rfl, rfl⟩
  · exact .inr ⟨_, rfl, rfl⟩
  · exact .inr ⟨_, rfl, rfl⟩

/-- The reference statements: a state whose CMD holds each command, and a word that is none. -/
theorem witness_ReferenceEngines :
    decode (running State.reset 1#32 []).cmd = .ok .muladd ∧
    decode (running State.reset 2#32 []).cmd = .ok .divmod ∧
    decode (running State.reset 3#32 []).cmd = .ok .div64 ∧
    decode (running State.reset 7#32 []).cmd = .ok .movrv ∧
    (∀ i, decode (running State.reset 0#32 []).cmd ≠ .ok i) :=
  ⟨rfl, rfl, rfl, rfl, fun i h => by
    have : decode (running State.reset 0#32 []).cmd = .error .reservedOpcode := by decide
    rw [this] at h; cases h⟩

/-- Its three clauses: a length of 257, an empty string in strict mode, and an absent symbol at index 0. -/
theorem witness_ReferenceDecoderAgrees :
    (decode (running { binary with strlen := 257#32 } 5#32 []).cmd = .ok (.decode false) ∧
      256 < (running { binary with strlen := 257#32 } 5#32 []).strlen.toNat) ∧
    (decode (running binary 0x105#32 []).cmd = .ok (.decode true) ∧
      (running binary 0x105#32 []).strlen.toNat ≤ 256 ∧
      ∀ c ∈ (running binary 0x105#32 []).string, c ∈ (running binary 0x105#32 []).symbols) ∧
    ((withString binary [0x32#32]).string[0]? = some 0x32#32 ∧
      0x32#32 ∉ (withString binary [0x32#32]).symbols) := by
  refine ⟨by decide, ⟨by decide, by decide, ?_⟩, by decide +kernel⟩
  have h : (running binary 0x105#32 []).string = [] := by decide +kernel
  rw [h]
  simp

theorem witness_ReferenceEncoderAgrees :
    (running binary 4#32 []).AlphabetInv ∧ decode (running binary 4#32 []).cmd = .ok (.encode false) ∧
    decode (running { binary with padlen := 257#32 } 0x204#32 []).cmd = .ok (.encode true) ∧
    256 < (running { binary with padlen := 257#32 } 0x204#32 []).padlen.toNat ∧
    (running { binary with padlen := 256#32 } 0x204#32 []).AlphabetInv ∧
    (running { binary with padlen := 256#32 } 0x204#32 []).padlen.toNat ≤ 256 :=
  ⟨State.AlphabetInv_congr _ _ witness_binary_alphabet rfl rfl rfl, rfl, rfl, by decide,
    State.AlphabetInv_congr _ _ witness_binary_alphabet rfl rfl rfl, by decide⟩

/-- Its three clauses, as in the witnesses of ABUILD's statements. -/
theorem witness_ReferenceAlphabetBuilderAgrees :
    decode (running (withStaged [1#32]) 6#32 []).cmd = .ok .abuild ∧
    256 < (running { State.reset with astageCnt := 257#32 } 6#32 []).astageCnt.toNat ∧
    (running (withStaged [1#32]) 6#32 []).staged.dedup.length < 2 ∧
    2 ≤ (running (withStaged [1#32, 2#32]) 6#32 []).staged.dedup.length := by decide +kernel

/-- The longest lists ldstr and ldalpha take. -/
theorem witness_LoadPseudosLoadTheirTargets :
    State.reset.busy = false ∧ (List.replicate 256 (0x32#32 : Word)).length ≤ 256 ∧
    (HostState.mk 0 [] false).line = 0 := by decide

end Sys2Proof.Tests
end

/-! Proofs of the statements of 00_scope.md: bytes and limbs of a value (R10), and that what comes between a
command's accept and its completion changes nothing of its result (R19). -/

namespace Sys2Proof.Machine

/-! ## Bytes of a value (R10) -/

/-- R10, as a number. -/
theorem valueByte_toNat (v : Value) (b : Fin 16) :
    (valueByte v b).toNat = v.toNat / 2 ^ (120 - 8 * b.val) % 256 := by
  simp [valueByte, BitVec.extractLsb'_toNat, Nat.shiftRight_eq_div_pow]

/-- A 32-bit slice is its four bytes, most significant first. -/
theorem extractLsb'_eq_four_bytes (v : Value) (n : Nat) :
    v.extractLsb' n 32 =
      v.extractLsb' (n + 24) 8 ++ v.extractLsb' (n + 16) 8 ++ v.extractLsb' (n + 8) 8 ++
        v.extractLsb' n 8 := by
  rw [BitVec.extractLsb'_append_extractLsb'_eq_extractLsb' (by omega),
    BitVec.extractLsb'_append_extractLsb'_eq_extractLsb' (by omega),
    BitVec.extractLsb'_append_extractLsb'_eq_extractLsb' (by omega)]

/-! ## The part of the state a host access or a working step can reach during BUSY (R19) -/

/-- `s` with the fields a host access (but a soft reset) or a working step can change while a command runs
taken from `p`. DONE is among them because a STATUS write clears it (R31). -/
def State.withHostSide (s p : State) : State :=
  { s with irqEn := p.irqEn, done := p.done, ovr := p.ovr, resp := p.resp, draws := p.draws, eng := p.eng }

/-- An outcome with its next state changed. -/
def mapNext (f : State → State) : Host.Outcome State Fault Refusal → Host.Outcome State Fault Refusal
  | .next t => .next (f t)
  | .fault r => .fault r
  | .refused r => .refused r

/-- A host access while a command runs, but a soft reset, changes only `withHostSide`'s fields (R246 to R248). -/
theorem hostAccess_eq_withHostSide (s : State) (a : Access) (busy : s.busy = true)
    (soft : a.isSoftReset = false) : hostAccess s a = s.withHostSide (hostAccess s a) := by
  cases hostAccess_kind s a with
  | bad off _ eq => rw [eq]; rfl
  | read l _ eq => rw [eq]; rfl
  | softReset v is bit _ =>
    have clear : v.getLsbD 1 = false := by rw [is] at soft; exact soft
    exact absurd (bit.symm.trans clear) (by decide)
  | ctrl v _ _ eq => rw [eq]; rfl
  | status v _ eq => rw [eq]; rfl
  | drop l v _ _ _ _ eq => rw [eq]; rfl
  | accept v _ idle _ => simp [busy] at idle
  | poke l v _ _ _ _ idle _ => simp [busy] at idle

/-- The events R19 lets come between accept and completion. -/
def Event.duringBusy (e : Event) : Prop := e = .work ∨ ∃ a, e = .access a ∧ a.isSoftReset = false

/-- The step of such an event changes only `withHostSide`'s fields. -/
theorem step_duringBusy (s : State) (e : Event) (es : List Event) (busy : s.busy = true)
    (low : s.rst = false) (he : e.duringBusy) :
    ∃ p, step { s with events := e :: es } = .next ({ s with events := es }.withHostSide p) := by
  rcases he with rfl | ⟨a, rfl, soft⟩
  · exact ⟨engineWork { s with events := es }, by
      simp only [step, handleEvent, State.engineBusy, busy, low]; rfl⟩
  · refine ⟨hostAccess { s with events := es } a, ?_⟩
    rw [← hostAccess_eq_withHostSide { s with events := es } a busy soft]
    simp [step, handleEvent, low]

/-! ## No command reads `withHostSide`'s fields -/

theorem decodeLoop_withHostSide (s p : State) (strict : Bool) (j : Nat) (l : List Word) (acc : Value) :
    decodeLoop (s.withHostSide p) strict j l acc = decodeLoop s strict j l acc := by
  induction l generalizing j acc with
  | nil => rfl
  | cons c l ih => simp only [decodeLoop, ih]; rfl

/-- A command reads none of these fields: its result is the same but for them, and in them it leaves what a
completion makes of `p`'s (R249, R250). -/
theorem exec_withHostSide (i : Instr) (s p : State) :
    exec i (s.withHostSide p) = mapNext (·.withHostSide (completeOk p)) (exec i s) := by
  cases i with
  | muladd => rfl
  | divmod =>
    have check : divmodCheck (s.withHostSide p) = divmodCheck s := rfl
    simp only [exec, execDivmod, check]
    cases divmodCheck s <;> rfl
  | div64 =>
    have opm : (s.withHostSide p).opm = s.opm := rfl
    simp only [exec, execDiv64, opm]
    split <;> rfl
  | encode usePad =>
    have pad : effectivePad (s.withHostSide p) usePad = effectivePad s usePad := rfl
    have range : (s.withHostSide p).alphabetInRange = s.alphabetInRange := rfl
    simp only [exec, execEncode, pad, range]
    cases effectivePad s usePad with
    | none => rfl
    | some n => cases s.alphabetInRange <;> rfl
  | decode strict =>
    have string : (s.withHostSide p).string = s.string := rfl
    have strlen : (s.withHostSide p).strlen = s.strlen := rfl
    simp only [exec, execDecode, string, strlen, decodeLoop_withHostSide]
    split
    · rfl
    · cases decodeLoop s strict 0 s.string 0#128 <;> rfl
  | abuild =>
    have staged : (s.withHostSide p).staged = s.staged := rfl
    have cnt : (s.withHostSide p).astageCnt = s.astageCnt := rfl
    simp only [exec, execAbuild, staged, cnt]
    split
    · rfl
    · split <;> rfl
  | movrv => rfl

/-- The same of the running command word, legal or not. -/
theorem runCommand_withHostSide (s p : State) :
    runCommand (s.withHostSide p) = mapNext (·.withHostSide (completeOk p)) (runCommand s) := by
  have cmd : (s.withHostSide p).cmd = s.cmd := rfl
  simp only [runCommand, cmd]
  cases Sys2Proof.decode s.cmd with
  | ok i => exact exec_withHostSide i s p
  | error _ => rfl

/-- Every completion sets DONE (R249, R250). -/
theorem Completes.done {s t : State} (h : Completes s t) : t.done = true := by
  cases h <;> rfl

/-- Under R52's invariant the running command completes. -/
theorem runCommand_next_of_alphabetInv (s : State) (h : s.AlphabetInv) : ∃ u, runCommand s = .next u := by
  obtain ⟨low, high, -, -, pad⟩ := h
  have inRange : s.alphabetInRange = true := by
    have := defaultPadLength_le s.nbase.toNat
    have padLow : s.defpad.toNat ≤ Config.strMax := by rw [pad, Config.strMax]; omega
    rw [State.alphabetInRange, Bool.and_eq_true, Bool.and_eq_true]
    exact ⟨⟨decide_eq_true low, decide_eq_true high⟩, decide_eq_true padLow⟩
  unfold runCommand
  cases Sys2Proof.decode s.cmd with
  | ok i =>
    rcases exec_next_or_fault i s with next | ⟨-, out, -⟩
    · exact next
    · simp [inRange] at out
  | error _ => exact ⟨_, rfl⟩

/-! ## Runs up to the completion -/

theorem run_succ_of_step (n : Nat) (s t : State) (h : step s = .next t) :
    Sys2Proof.core.run (n + 1) s = Sys2Proof.core.run n t := by
  have hcore : Sys2Proof.core.step s = .next t := h
  simp only [Host.Core.run, hcore]

/-- A run through events that come during BUSY is the run without them, from a state that differs in
`withHostSide`'s fields alone. -/
theorem run_duringBusy (s : State) (es rest : List Event) (n : Nat) (busy : s.busy = true)
    (low : s.rst = false) (hes : ∀ e ∈ es, e.duringBusy) :
    ∃ p, Sys2Proof.core.run (es.length + n) { s with events := es ++ rest } =
      Sys2Proof.core.run n ({ s with events := rest }.withHostSide p) := by
  induction es generalizing s with
  | nil => exact ⟨s, by rw [List.length_nil, Nat.zero_add]; rfl⟩
  | cons e es ih =>
    obtain ⟨he, hes⟩ := List.forall_mem_cons.mp hes
    obtain ⟨q, hq⟩ := step_duringBusy s e (es ++ rest) busy low he
    obtain ⟨p, hp⟩ := ih (s.withHostSide q) busy low hes
    refine ⟨p, ?_⟩
    rw [List.length_cons, Nat.add_right_comm, List.cons_append]
    exact (run_succ_of_step _ _ _ hq).trans hp

/-- One step of a running command whose completion is due is its completion. -/
theorem run_one_complete (s t : State) (busy : s.busy = true) (low : s.rst = false)
    (h : runCommand { s with events := [] } = .next t) :
    Sys2Proof.core.run 1 { s with events := [.complete] } = .next t := by
  have hstep : step { s with events := [.complete] } = .next t := by
    simpa [step, handleEvent, State.engineBusy, busy, low] using h
  exact run_succ_of_step 0 _ _ hstep

end Sys2Proof.Machine

namespace Sys2Proof.Proofs

open Sys2Proof.Machine

/-- Settles O10: each limb is a 32-bit slice, and a 32-bit slice is its four bytes. -/
theorem bytesAndLimbsAreBigEndian : Obligations.BytesAndLimbsAreBigEndian := fun v =>
  ⟨valueByte_toNat v, limb_toNat v, extractLsb'_eq_four_bytes v 96, extractLsb'_eq_four_bytes v 64,
    extractLsb'_eq_four_bytes v 32, extractLsb'_eq_four_bytes v 0⟩

/-- Settles O54: the events before the completion change only fields that no command reads
(`run_duringBusy`, `runCommand_withHostSide`); of these only DONE is not free in the result, and the
completion sets it. -/
theorem resultIndependentOfInterleaving : Obligations.ResultIndependentOfInterleaving := by
  intro s es inv busy low hes
  obtain ⟨p, hp⟩ := run_duringBusy s es [.complete] 1 busy low hes
  obtain ⟨u, hu⟩ := runCommand_next_of_alphabetInv { s with events := [] } inv
  have done : u.done = true := (runCommand_completes _ _ hu).done
  have hrun : runCommand ({ s with events := [] }.withHostSide p) =
      .next (u.withHostSide (completeOk p)) := by
    rw [runCommand_withHostSide, hu]; rfl
  refine ⟨u.withHostSide (completeOk p), u,
    hp.trans (run_one_complete (s.withHostSide p) _ busy low hrun),
    run_one_complete s u busy low hu, ?_⟩
  cases u
  subst done
  rfl

end Sys2Proof.Proofs

/-! Proofs of the statements of 10_state.md: the table of R47 (what a command writes at its completion), the
STATUS fields and ERRIDX over every step (R32 to R36, R46), and the reset values (R51). -/

namespace Sys2Proof.Machine

/-! ## The next state of a step that is due -/

/-- A host write that is due is performed (R12, R74). -/
theorem State.writeDue.step_eq {s : State} {l : Loc} {v : Word} (due : s.writeDue l.offset v) :
    step s = .next (hostWrite { s with events := s.events.tail } l v) := by
  obtain ⟨low, rest, ev⟩ := due
  simp [step, ev, handleEvent, low, hostAccess, Loc.ofOffset_offset]

/-- An accept that is due has the writes of the accept step and is answered (R245). -/
theorem State.acceptDue.next {s t : State} {w : Word} (due : s.acceptDue w) (h : step s = .next t) :
    t = { accept { s with events := s.events.tail } w with resp := some .written } := by
  obtain ⟨idle, write⟩ := due
  have hs := State.writeDue.step_eq (l := .cmd) write
  simp only [hostWrite, hostWriteEffect, idle] at hs
  exact Host.Outcome.next.inj (h.symm.trans hs)

/-- A STATUS write that is due clears what it asks for, BUSY or not (R31, R247). -/
theorem State.writeDue.next_status {s t : State} {v : Word} (due : s.writeDue 0x010#12 v)
    (h : step s = .next t) :
    t = { State.clearStatus { s with events := s.events.tail } v with resp := some .written } :=
  Host.Outcome.next.inj (h.symm.trans (State.writeDue.step_eq (l := .status) due))

/-- A write that is dropped sets OVR alone (R246, R247). -/
theorem State.dropDue.next {s t : State} (due : s.dropDue) (h : step s = .next t) :
    t = { s with ovr := true, resp := some .written, events := s.events.tail } := by
  obtain ⟨busy, l, v, notCtrl, notStatus, write⟩ := due
  have effect : hostWriteEffect { s with events := s.events.tail } l v =
      { s with ovr := true, events := s.events.tail } := by
    simp [hostWriteEffect, notCtrl, notStatus, busy]
  have hs := write.step_eq
  rw [hostWrite, effect] at hs
  exact Host.Outcome.next.inj (h.symm.trans hs)

/-- R249, R250: the completion runs the command word. -/
theorem State.completionDue.run {s t : State} (due : s.completionDue) (h : step s = .next t) :
    runCommand { s with events := s.events.tail } = .next t := by
  obtain ⟨busy, low, ev | ⟨rest, ev⟩⟩ := due
  · have same : { s with events := s.events.tail } = s := by cases s; cases ev; rfl
    rw [same]
    simpa [step, ev, State.engineBusy, busy, low] using h
  · simpa [step, ev, handleEvent, State.engineBusy, busy, low] using h

/-- R280, R281, R283: a resetting step leaves the reset state, but for the model's own four fields (log 7). -/
theorem State.resetDue.next {s t : State} (due : s.resetDue) (h : step s = .next t) :
    t = { State.reset with rst := t.rst, events := t.events, resp := t.resp, draws := t.draws } := by
  rcases due with ⟨rest, ev⟩ | ⟨v, bit, write⟩
  · rw [step, ev] at h
    cases h
    rfl
  · have hs := State.writeDue.step_eq (l := .ctrl) write
    simp only [hostWrite, hostWriteEffect, writeCtrl, bit, if_true] at hs
    cases h.symm.trans hs
    rfl

/-! ## What a step can be to STATUS -/

/-- The fields of STATUS, ERRIDX and whether the engine is in IDLE are the same in `t` as in `s`. -/
structure KeepsStatus (s t : State) : Prop where
  busy : t.busy = s.busy
  done : t.done = s.done
  err : t.err = s.err
  errcode : t.errcode = s.errcode
  errIdx : t.errIdx = s.errIdx
  fits64 : t.fits64 = s.fits64
  ovr : t.ovr = s.ovr
  idle : t.eng.fsm = .idle ↔ s.eng.fsm = .idle

/-- The five steps that write a field of STATUS, and the other steps, which keep them all. -/
inductive StatusStep (s t : State) : Prop where
  | completes (due : s.completionDue)
  | resets (due : s.resetDue)
  | accepts (w : Word) (due : s.acceptDue w)
  | clears (v : Word) (due : s.writeDue 0x010#12 v)
  | drops (due : s.dropDue)
  | quiet (keeps : KeepsStatus s t)

/-- Which of them a host access is. -/
theorem access_statusStep (s : State) (a : Access) (rest : List Event) (low : s.rst = false)
    (ev : s.events = .access a :: rest) : StatusStep s (hostAccess { s with events := rest } a) := by
  have due : ∀ {off v}, a = .write off 4 0xF#4 v → s.writeDue off v :=
    fun is => ⟨low, rest, is ▸ ev⟩
  cases hostAccess_kind { s with events := rest } a with
  | bad off _ eq => rw [eq]; exact .quiet ⟨rfl, rfl, rfl, rfl, rfl, rfl, rfl, Iff.rfl⟩
  | read l _ eq => rw [eq]; exact .quiet ⟨rfl, rfl, rfl, rfl, rfl, rfl, rfl, Iff.rfl⟩
  | softReset v is bit _ => exact .resets (.inr ⟨v, bit, due is⟩)
  | ctrl v _ _ eq => rw [eq]; exact .quiet ⟨rfl, rfl, rfl, rfl, rfl, rfl, rfl, Iff.rfl⟩
  | status v is _ => exact .clears v (due is)
  | drop l v is notCtrl notStatus busy _ => exact .drops ⟨busy, l, v, notCtrl, notStatus, due is⟩
  | accept v is idle _ => exact .accepts v ⟨idle, due is⟩
  | poke l v _ _ _ _ _ eq =>
    rw [eq, State.poke_frame]; exact .quiet ⟨rfl, rfl, rfl, rfl, rfl, rfl, rfl, Iff.rfl⟩

/-- Which of them a step is. -/
theorem step_statusStep (s t : State) (h : step s = .next t) : StatusStep s t := by
  cases step_kind s t h with
  | complete due _ => exact .completes due
  | idle _ _ eq => subst eq; exact .quiet ⟨rfl, rfl, rfl, rfl, rfl, rfl, rfl, Iff.rfl⟩
  | work rest _ eq =>
    subst eq
    split
    · exact .quiet ⟨rfl, rfl, rfl, rfl, rfl, rfl, rfl, engineStep_idle_iff { s with events := rest }⟩
    · exact .quiet ⟨rfl, rfl, rfl, rfl, rfl, rfl, rfl, Iff.rfl⟩
  | rst level rest ev eq =>
    cases level with
    | true => exact .resets (.inl ⟨rest, ev⟩)
    | false => subst eq; exact .quiet ⟨rfl, rfl, rfl, rfl, rfl, rfl, rfl, Iff.rfl⟩
  | access a rest low ev eq => subst eq; exact access_statusStep s a rest low ev

/-! ## What every completion does to STATUS -/

/-- Every completion clears BUSY (R249, R250). -/
theorem Completes.busy {s t : State} (h : Completes s t) : t.busy = false := by
  cases h <;> rfl

/-- Every completion takes the FSM to IDLE (R249, R250). -/
theorem Completes.fsm {s t : State} (h : Completes s t) : t.eng.fsm = .idle := by
  cases h <;> rfl

/-- No completion writes OVR (R36). -/
theorem Completes.ovr {s t : State} (h : Completes s t) : t.ovr = s.ovr := by
  cases h <;> rfl

/-- The completion step is one of the completions. -/
theorem State.completionDue.completes {s t : State} (due : s.completionDue) (h : step s = .next t) :
    Completes { s with events := s.events.tail } t :=
  runCommand_completes _ _ (due.run h)

/-! ## How each command ends (R47, R249, R250) -/

/-- `s` with the registers and files of a command's row of R47's table taken from `t`. -/
def State.withRow (s t : State) : Instr → State
  | .muladd | .decode _ => { s with res := t.res }
  | .divmod => { s with res := t.res, rem := t.rem, fits64 := t.fits64 }
  | .div64 => { s with res := t.res, rem := t.rem, fits64 := true }
  | .encode _ => { s with strbuf := t.strbuf, strlen := t.strlen, ndig := t.ndig }
  | .abuild => { s with alpha := t.alpha, nbase := t.nbase, defpad := t.defpad }
  | .movrv => { s with val := t.val }

/-- Entry j of the string is its first symbol that is not in the alphabet (R216). -/
def State.firstAbsentAt (s : State) (j : Nat) : Prop :=
  ∃ c, s.string[j]? = some c ∧ c ∉ s.symbols ∧
    ∀ i a, i < j → s.string[i]? = some a → a ∈ s.symbols

/-- The ends a command can have, by the error it calls for: its row written, an error report, or the report of
an absent symbol. -/
inductive ExecEnds (i : Instr) (s t : State) : ErrCode → Prop where
  | commits (eq : t = (s.withRow t i).finished) : ExecEnds i s t .noError
  | fails (e : ErrCode) (raised : e ≠ .noError) (other : e ≠ .invalidCharacter) (eq : t = s.failed e) :
      ExecEnds i s t e
  | absent (j : Nat) (first : s.firstAbsentAt j)
      (eq : t = { s with errIdx := BitVec.ofNat 32 j }.failed .invalidCharacter) :
      ExecEnds i s t .invalidCharacter

theorem execDivmod_ends (s t : State) (h : execDivmod s = .next t) :
    ExecEnds .divmod s t (commandError s .divmod) := by
  have error : commandError s .divmod = divmodCheck s := rfl
  rw [error]
  unfold execDivmod at h
  split at h
  · rename_i ok
    rw [ok]; cases h; exact .commits rfl
  · rename_i notOk
    cases h; exact .fails _ notOk (divmodCheck_ne s) rfl

theorem execDiv64_ends (s t : State) (h : execDiv64 s = .next t) :
    ExecEnds .div64 s t (commandError s .div64) := by
  by_cases zero : s.opm = 0#32
  · simp only [execDiv64, commandError, if_pos zero] at h ⊢
    cases h; exact .fails _ (by decide) (by decide) rfl
  · simp only [execDiv64, commandError, if_neg zero] at h ⊢
    cases h; exact .commits rfl

theorem execEncode_ends (s t : State) (usePad : Bool) (h : execEncode usePad s = .next t) :
    ExecEnds (.encode usePad) s t (commandError s (.encode usePad)) := by
  by_cases long : usePad = true ∧ 256 < s.padlen.toNat
  · have pad : effectivePad s usePad = none := by
      simp [effectivePad, Config.strMax, long.1, long.2]
    simp only [execEncode, pad, commandError, if_pos long] at h ⊢
    cases h; exact .fails _ (by decide) (by decide) rfl
  · obtain ⟨p, pad⟩ : ∃ p, effectivePad s usePad = some p := by
      cases usePad with
      | false => exact ⟨_, rfl⟩
      | true => exact ⟨_, if_neg fun above => long ⟨rfl, above⟩⟩
    simp only [execEncode, pad, commandError, if_neg long] at h ⊢
    split at h
    · cases h; exact .commits rfl
    · cases h

/-- A string with an absent symbol has a first one. -/
theorem exists_firstAbsentAt (s : State) (h : s.string.any (fun c => !s.symbols.contains c) = true) :
    ∃ j, s.firstAbsentAt j := by
  obtain ⟨j, hj⟩ := Option.isSome_iff_exists.1 (List.findIdx?_isSome.trans h)
  obtain ⟨inside, absent, before⟩ := List.findIdx?_eq_some_iff_getElem.1 hj
  refine ⟨j, s.string[j], List.getElem?_eq_getElem inside, by simpa using absent, fun i a hi ha => ?_⟩
  obtain ⟨_, rfl⟩ := List.getElem?_eq_some_iff.1 ha
  simpa using before i hi

theorem execDecode_ends (s t : State) (strict : Bool) (h : execDecode strict s = .next t) :
    ExecEnds (.decode strict) s t (commandError s (.decode strict)) := by
  by_cases long : 256 < s.strlen.toNat
  · have long' : s.strlen.toNat > Config.strMax := long
    simp only [execDecode, commandError, if_pos long, if_pos long'] at h ⊢
    cases h; exact .fails _ (by decide) (by decide) rfl
  have short : ¬ s.strlen.toNat > Config.strMax := long
  simp only [execDecode, commandError, if_neg long, if_neg short] at h ⊢
  by_cases bad : strict = true ∧ s.string.any (fun c => !s.symbols.contains c) = true
  · obtain ⟨rfl, any⟩ := bad
    obtain ⟨j, first⟩ := exists_firstAbsentAt s any
    obtain ⟨c, at_j, absent, before⟩ := first
    have loop := decodeLoop_error s s.string 0 j 0#128 c at_j ((indexOf_eq_none s c).2 absent)
      fun i a hi ha lost => (indexOf_eq_none s a).1 lost (before i a hi ha)
    rw [loop, Nat.zero_add] at h
    cases h
    rw [if_pos ⟨rfl, any⟩]
    exact .absent j ⟨c, at_j, absent, before⟩ rfl
  · have present : strict = true → ∀ c ∈ s.string, indexOf s c ≠ none := by
      intro on c mem lost
      refine bad ⟨on, List.any_eq_true.2 ⟨c, mem, ?_⟩⟩
      simpa using (indexOf_eq_none s c).1 lost
    obtain ⟨v, loop, -⟩ := decodeLoop_ok s strict s.string 0 0#128 present
    rw [loop] at h
    cases h
    rw [if_neg bad]
    exact .commits rfl

theorem execAbuild_ends (s t : State) (h : execAbuild s = .next t) :
    ExecEnds .abuild s t (commandError s .abuild) := by
  by_cases long : 256 < s.astageCnt.toNat
  · have long' : s.astageCnt.toNat > Config.alphaMax := long
    simp only [execAbuild, commandError, if_pos long, if_pos long'] at h ⊢
    cases h; exact .fails _ (by decide) (by decide) rfl
  have short : ¬ s.astageCnt.toNat > Config.alphaMax := long
  simp only [execAbuild, commandError, if_neg long, if_neg short, canonical_length] at h ⊢
  split at h
  · rename_i few
    rw [if_pos few]; cases h; exact .fails _ (by decide) (by decide) rfl
  · rename_i enough
    rw [if_neg enough]; cases h; exact .commits rfl

/-- Every command ends with the error it calls for, or with its row written (R47, R244, R249, R250). -/
theorem exec_ends (i : Instr) (s t : State) (h : exec i s = .next t) :
    ExecEnds i s t (commandError s i) := by
  cases i with
  | muladd => cases h; exact .commits rfl
  | divmod => exact execDivmod_ends s t h
  | div64 => exact execDiv64_ends s t h
  | encode usePad => exact execEncode_ends s t usePad h
  | decode strict => exact execDecode_ends s t strict h
  | abuild => exact execAbuild_ends s t h
  | movrv => cases h; exact .commits rfl

/-- A row holds no field of the error report (R47). -/
theorem State.withRow_report (s t : State) (i : Instr) :
    (s.withRow t i).err = s.err ∧ (s.withRow t i).errcode = s.errcode ∧
      (s.withRow t i).errIdx = s.errIdx := by
  cases i <;> exact ⟨rfl, rfl, rfl⟩

/-! ## The error report of a completion (R35, R46) -/

/-- What a completion that ends in error `e` makes of ERR, ERRCODE and ERRIDX (R249, R250). -/
structure Reports (s t : State) (e : ErrCode) : Prop where
  kept : e = .noError → t.err = s.err ∧ t.errcode = s.errcode
  written : e ≠ .noError → t.err = true ∧ t.errcode = e
  index : e = .invalidCharacter → s.firstAbsentAt t.errIdx.toNat
  indexKept : e ≠ .invalidCharacter → t.errIdx = s.errIdx

theorem Reports.of_failed (s : State) (e : ErrCode) (raised : e ≠ .noError)
    (other : e ≠ .invalidCharacter) : Reports s (s.failed e) e :=
  ⟨fun clear => absurd clear raised, fun _ => ⟨rfl, rfl⟩, fun is => absurd is other, fun _ => rfl⟩

/-- The index of a string entry is its own number as a word. -/
theorem State.firstAbsentAt.toNat_ofNat {s : State} {j : Nat} (first : s.firstAbsentAt j) :
    (BitVec.ofNat 32 j).toNat = j := by
  obtain ⟨c, at_j, -, -⟩ := first
  have inside := (List.getElem?_eq_some_iff.1 at_j).1
  have := string_length_le s
  exact Nat.mod_eq_of_lt (by omega)

theorem ExecEnds.reports {i : Instr} {s t : State} {e : ErrCode} (h : ExecEnds i s t e) :
    Reports s t e := by
  cases h with
  | commits eq =>
    obtain ⟨err, code, index⟩ := s.withRow_report t i
    rw [eq]
    exact ⟨fun _ => ⟨err, code⟩, fun raised => absurd rfl raised, nofun, fun _ => index⟩
  | fails _ raised other eq => rw [eq]; exact .of_failed s e raised other
  | absent j first eq =>
    rw [eq]
    exact ⟨nofun, fun _ => ⟨rfl, rfl⟩, fun _ => first.toNat_ofNat.symm ▸ first,
      fun other => absurd rfl other⟩

/-- The running word reports its own error, an illegal word ILLEGAL_OPCODE (R244). -/
theorem runCommand_reports (s t : State) (h : runCommand s = .next t) : Reports s t s.wordError := by
  cases word : Sys2Proof.decode s.cmd with
  | ok i =>
    simp only [runCommand, State.wordError, word] at h ⊢
    exact (exec_ends i s t h).reports
  | error _ =>
    simp only [runCommand, State.wordError, word] at h ⊢
    cases h; exact .of_failed s .illegalOpcode (by decide) (by decide)

/-- The completion step reports the running word's error; the pending events play no part in it. -/
theorem State.completionDue.reports {s t : State} (due : s.completionDue) (h : step s = .next t) :
    Reports s t s.wordError :=
  have r := runCommand_reports { s with events := s.events.tail } t (due.run h)
  ⟨r.kept, r.written, r.index, r.indexKept⟩

/-! ## The rows of R47's table -/

/-- Without an error a command writes its row and nothing else (R249). -/
theorem ExecEnds.eq_finished {i : Instr} {s t : State} {e : ErrCode} (h : ExecEnds i s t e)
    (clear : e = .noError) : t = (s.withRow t i).finished := by
  cases h with
  | commits eq => exact eq
  | fails _ raised _ _ => exact absurd clear raised
  | absent _ _ _ => cases clear

/-- With an error a command writes its report and nothing else (R250). -/
theorem ExecEnds.eq_failed {i : Instr} {s t : State} {e : ErrCode} (h : ExecEnds i s t e)
    (raised : e ≠ .noError) : t = { s with errIdx := t.errIdx }.failed t.errcode := by
  cases h with
  | commits _ => exact absurd rfl raised
  | fails _ _ _ eq => subst eq; rfl
  | absent _ _ eq => subst eq; rfl

theorem encodePhase1_length_le (n : Word) (fuel : Nat) (v : Value) :
    (encodePhase1 n fuel v).1.length ≤ fuel := by
  induction fuel generalizing v with
  | zero => simp [encodePhase1]
  | succ fuel ih =>
    simp only [encodePhase1]
    split
    · simp
    · simpa using ih _

theorem encodePhase2_length_le (n : Word) (fuel : Nat) (q : Wide) :
    (encodePhase2 n fuel q).length ≤ fuel := by
  induction fuel generalizing q with
  | zero => simp [encodePhase2]
  | succ fuel ih =>
    simp only [encodePhase2]
    split
    · simp
    · simpa using ih _

/-- The digits fit the string buffer, whatever N is (log 10). -/
theorem encodeDigits_length_le (n : Word) (v : Value) : (encodeDigits n v).length ≤ 256 := by
  have := encodePhase1_length_le n 128 v
  have := encodePhase2_length_le n 128 (encodePhase1 n 128 v).2
  simp only [encodeDigits, List.length_append]
  omega

/-- A pad length ENCODE goes on with is at most STR_MAX (R52, R181, R182). -/
theorem effectivePad_le {s : State} {usePad : Bool} {p : Nat} (pad : effectivePad s usePad = some p)
    (range : s.alphabetInRange = true) : p ≤ 256 := by
  simp only [State.alphabetInRange, Config.strMax, Bool.and_eq_true, decide_eq_true_eq] at range
  unfold effectivePad at pad
  split at pad
  · split at pad
    · cases pad
    · rename_i short; cases pad; exact Nat.le_of_not_lt short
  · cases pad; exact of_decide_eq_true range.2

/-- The commit of a string that fits keeps the entries past it (R187). -/
theorem commitString_keeps_tail (s : State) (symbols : List Word) (n : Nat) (fit : symbols.length ≤ 256)
    (j : Nat) (past : (commitString s symbols n).strlen.toNat ≤ j) :
    (commitString s symbols n).strbuf[j]? = s.strbuf[j]? := by
  have len : (BitVec.ofNat 32 symbols.length).toNat = symbols.length := Nat.mod_eq_of_lt (by omega)
  rw [commitString_eq] at past ⊢
  dsimp only at past ⊢
  rw [len] at past
  by_cases inside : j < 256
  · rw [Table.write_getElem? _ _ _ inside, if_neg (by omega)]
  · rw [Vector.getElem?_eq_none (by omega), Vector.getElem?_eq_none (by omega)]

/-- ENCODE keeps the entries of STRBUF from STRLEN on (R47). -/
theorem execEncode_keeps_tail (s t : State) (usePad : Bool) (h : execEncode usePad s = .next t) (j : Nat)
    (past : t.strlen.toNat ≤ j) : t.strbuf[j]? = s.strbuf[j]? := by
  unfold execEncode at h
  split at h
  · cases h; rfl
  · rename_i p pad
    split at h
    · rename_i range
      cases h
      refine commitString_keeps_tail s _ _ ?_ j past
      have := effectivePad_le pad range
      have := encodeDigits_length_le s.nbase s.val
      rw [mapDigits_padDigits_length]
      omega
    · cases h

/-! ## FITS64 (R33) -/

/-- A row holds FITS64 for the two divisions alone (R33, R47). -/
theorem State.withRow_fits64 (s t : State) (i : Instr) (divmod : i ≠ .divmod) (div64 : i ≠ .div64) :
    (s.withRow t i).fits64 = s.fits64 := by
  cases i with
  | divmod => exact absurd rfl divmod
  | div64 => exact absurd rfl div64
  | _ => rfl

/-- DIVMOD's success conditions (R158). -/
theorem commandError_divmod_eq_noError (s : State) :
    commandError s .divmod = .noError ↔ s.opm ≠ 0#32 ∧ s.rin < s.opm := by
  by_cases zero : s.opm = 0#32
  · simp [commandError, zero]
  · by_cases above : s.opm.toNat ≤ s.rin.toNat
    · simp [commandError, zero, above, BitVec.lt_def]
    · simp [commandError, zero, above, BitVec.lt_def, Nat.lt_of_not_le above]

/-- DIV64's success condition (R163). -/
theorem commandError_div64_eq_noError (s : State) :
    commandError s .div64 = .noError ↔ s.opm ≠ 0#32 := by
  by_cases zero : s.opm = 0#32 <;> simp [commandError, zero]

/-- A command that is no division that succeeds keeps FITS64 (R33). -/
theorem exec_keeps_fits64 (i : Instr) (s t : State) (h : exec i s = .next t)
    (other : ¬ (s.opm ≠ 0#32 ∧ (i = .div64 ∨ i = .divmod ∧ s.rin < s.opm))) : t.fits64 = s.fits64 := by
  have ends := exec_ends i s t h
  by_cases clear : commandError s i = .noError
  · have notDivmod : i ≠ .divmod := by
      rintro rfl
      obtain ⟨nonzero, below⟩ := (commandError_divmod_eq_noError s).1 clear
      exact other ⟨nonzero, .inr ⟨rfl, below⟩⟩
    have notDiv64 : i ≠ .div64 := by
      rintro rfl
      exact other ⟨(commandError_div64_eq_noError s).1 clear, .inl rfl⟩
    rw [ends.eq_finished clear]
    exact s.withRow_fits64 t i notDivmod notDiv64
  · rw [ends.eq_failed clear]; rfl

/-- The completion of a word that is no division that succeeds keeps FITS64 (R33). -/
theorem runCommand_keeps_fits64 (s t : State) (h : runCommand s = .next t)
    (other : ¬ (s.opm ≠ 0#32 ∧ (Sys2Proof.decode s.cmd = .ok .div64 ∨
      Sys2Proof.decode s.cmd = .ok .divmod ∧ s.rin < s.opm))) : t.fits64 = s.fits64 := by
  cases word : Sys2Proof.decode s.cmd with
  | ok i =>
    simp only [runCommand, word] at h
    simp only [word, Except.ok.injEq] at other
    exact exec_keeps_fits64 i s t h other
  | error _ =>
    simp only [runCommand, word] at h
    cases h; rfl

/-- A number below 2^64 has its high half 0 and is its low half. -/
theorem halves_of_lt (q : Value) (small : q.toNat < 2 ^ 64) :
    high64 q = 0#64 ∧ q.toNat = (low64 q).toNat := by
  constructor
  · apply BitVec.eq_of_toNat_eq
    simp only [high64, BitVec.extractLsb'_toNat, Nat.shiftRight_eq_div_pow, BitVec.toNat_ofNat]
    omega
  · rw [low64_toNat, Nat.mod_eq_of_lt small]

/-- The tag of R159, limb by limb. -/
theorem quotientFits64_iff_limbs (q : Value) :
    quotientFits64 q = true ↔ limb q 0 = 0#32 ∧ limb q 1 = 0#32 := by
  simp [quotientFits64]

/-- DIVMOD without an error commits its quotient and the quotient's tag (R157, R158, R159). -/
theorem exec_divmod_commits (s : State) (nonzero : s.opm ≠ 0#32) (below : s.rin < s.opm) :
    exec .divmod s = .next (commitQuotient s (divmod32 s.val s.opm s.rin).1 (divmod32 s.val s.opm s.rin).2
      (quotientFits64 (divmod32 s.val s.opm s.rin).1)) := by
  have check : divmodCheck s = .noError := by
    rw [divmodCheck, if_neg nonzero, if_neg (BitVec.not_le.2 below)]
  simp only [exec, execDivmod, check]

/-- DIV64 without an error commits its quotient with the tag 1 (R163). -/
theorem exec_div64_commits (s : State) (nonzero : s.opm ≠ 0#32) :
    exec .div64 s = .next (commitQuotient s ((div64Step (low64 s.val) s.opm).1.zeroExtend 128)
      (div64Step (low64 s.val) s.opm).2 true) := by
  simp only [exec, execDiv64, if_neg nonzero]

/-- DIV64's quotient, as RES holds it (R163). -/
theorem div64_quotient_toNat (v : Value) (d : Word) (nonzero : d ≠ 0#32) :
    ((div64Step (low64 v) d).1.zeroExtend 128).toNat = v.toNat % 2 ^ 64 / d.toNat := by
  have := (div64Step (low64 v) d).1.isLt
  rw [BitVec.toNat_setWidth, Nat.mod_eq_of_lt (by omega), (div64Step_spec _ _ nonzero).1,
    low64_toNat]

/-- The completion of a legal word runs its command. -/
theorem State.completionDue.run_exec {s t : State} {i : Instr} (due : s.completionDue)
    (word : Sys2Proof.decode s.cmd = .ok i) (h : step s = .next t) :
    exec i { s with events := s.events.tail } = .next t := by
  have run := due.run h
  simpa only [runCommand, word] using run

/-! ## The reset values (R51) -/

/-- An entry of a list written over a file of zeros. -/
theorem Table.zero_write_getElem (l : List Word) (i : Fin 256) :
    (Table.zero.write l)[i] = (l[i.val]?).getD 0#32 := by
  have entry := Table.write_getElem? Table.zero l i.val i.isLt
  rw [Vector.getElem?_eq_getElem i.isLt] at entry
  change (Table.zero.write l)[i.val] = _
  rw [← Option.some.injEq, entry]
  split
  · rename_i inside
    rw [List.getElem?_eq_getElem inside]; rfl
  · rename_i past
    rw [List.getElem?_eq_none (Nat.le_of_not_lt past)]
    simp [Table.zero]

end Sys2Proof.Machine

namespace Sys2Proof.Proofs

open Sys2Proof.Machine

/-- Settles O9: a command ends with its row written or with its report (`exec_ends`); ENCODE's string fits the
buffer (`execEncode_keeps_tail`). -/
theorem commandsWriteExactlyTheirTable : Obligations.CommandsWriteExactlyTheirTable := by
  refine ⟨fun i s t clean h => ⟨fun ok => ⟨?_, ?_⟩, fun failed => ?_⟩, fun s t w due h => ?_⟩
  · have ends := exec_ends i s t h
    have clear : commandError s i = .noError := by
      by_contra raised
      have set := (ends.reports.written raised).1
      simp [ok] at set
    have row := ends.eq_finished clear
    cases i <;> exact row
  · rintro usePad rfl j past
    exact execEncode_keeps_tail s t usePad h j past
  · have ends := exec_ends i s t h
    have raised : commandError s i ≠ .noError := fun clear => by
      have same := (ends.reports.kept clear).1
      simp [clean, failed] at same
    have code := (ends.reports.written raised).2
    refine ⟨ends.eq_failed raised, code ▸ raised, fun other => ends.reports.indexKept (code ▸ other),
      fun is => ?_⟩
    obtain ⟨c, at_j, absent, before⟩ := ends.reports.index (code.symm.trans is)
    exact ⟨c, at_j, (indexOf_eq_none s c).2 absent,
      fun j a hj ha lost => (indexOf_eq_none s a).1 lost (before j a hj ha)⟩
  · rw [due.next h]
    exact ⟨rfl, rfl, rfl, rfl, rfl⟩

/-- Settles O36: the six kinds of step (`step_statusStep`), each with what it writes. -/
theorem busyChangesOnlyAtThreePoints : Obligations.BusyChangesOnlyAtThreePoints := by
  intro s t h
  refine ⟨fun w due => by rw [due.next h]; rfl, ?_, fun noAccept noComplete noReset => ?_, fun inv => ?_⟩
  · rintro (due | due)
    · exact (due.completes h).busy
    · rw [due.next h]; rfl
  · cases step_statusStep s t h with
    | completes due => exact absurd due noComplete
    | resets due => exact absurd due noReset
    | accepts w due => exact absurd due (noAccept w)
    | clears v due => rw [due.next_status h]; rfl
    | drops due => rw [due.next h]
    | quiet keeps => exact keeps.busy
  · cases step_statusStep s t h with
    | completes due => simp [State.EngineInv, (due.completes h).busy, (due.completes h).fsm]
    | resets due => rw [due.next h]; simp [State.EngineInv, State.reset, Engine.reset]
    | accepts w due => rw [due.next h]; simp [State.EngineInv, engineStart_ne_idle]
    | clears v due => rw [due.next_status h]; exact inv
    | drops due => rw [due.next h]; exact inv
    | quiet keeps => rw [State.EngineInv, keeps.busy, Ne, keeps.idle]; exact inv

/-- Settles O38: only the completion, the accept, the STATUS write and the reset write DONE
(`step_statusStep`); irq is IRQ_EN and DONE by definition. -/
theorem doneIsSetByEveryCompletion : Obligations.DoneIsSetByEveryCompletion := by
  intro s t h
  refine ⟨fun due => (due.completes h).done, ?_, fun noComplete noAccept noClear noReset => ?_,
    by simp [State.irq]⟩
  · rintro (⟨w, due⟩ | ⟨v, bit, due⟩ | due)
    · rw [due.next h]; rfl
    · rw [due.next_status h]; simp [bit]
    · rw [due.next h]; rfl
  · cases step_statusStep s t h with
    | completes due => exact absurd due noComplete
    | resets due => exact absurd due noReset
    | accepts w due => exact absurd due (noAccept w)
    | clears v due =>
      have bit : v.getLsbD 1 = false := Bool.eq_false_iff.2 fun bit => noClear v bit due
      rw [due.next_status h]; simp only [clearStatus_done, bit, Bool.not_false, Bool.and_true]
    | drops due => rw [due.next h]
    | quiet keeps => exact keeps.done

/-- Settles O41: only the dropped write, the STATUS write and the reset write OVR (`step_statusStep`). -/
theorem overrunFlagIsSticky : Obligations.OverrunFlagIsSticky := by
  intro s t h
  refine ⟨fun due => by rw [due.next h], ?_, fun noDrop noClear noReset => ?_⟩
  · rintro (⟨v, bit, due⟩ | due)
    · rw [due.next_status h]; simp [bit]
    · rw [due.next h]; rfl
  · cases step_statusStep s t h with
    | completes due => exact (due.completes h).ovr
    | resets due => exact absurd due noReset
    | accepts w due => rw [due.next h]; rfl
    | clears v due =>
      have bit : v.getLsbD 4 = false := Bool.eq_false_iff.2 fun bit => noClear v bit due
      rw [due.next_status h]; simp only [clearStatus_ovr, bit, Bool.not_false, Bool.and_true]
    | drops due => exact absurd due noDrop
    | quiet keeps => exact keeps.ovr

/-- Settles O37: a division that succeeds commits the quotient and its tag; every other completion and every
other step keeps the tag (`runCommand_keeps_fits64`, `step_statusStep`). -/
theorem fitsTagWrittenOnlyByDivisions : Obligations.FitsTagWrittenOnlyByDivisions := by
  intro s t h
  refine ⟨fun due word nonzero below => ?_, fun due word nonzero => ?_, fun due => by rw [due.next h]; rfl,
    fun noReset noDivision => ?_⟩
  · have commit := (due.run_exec word h).symm.trans (exec_divmod_commits _ nonzero below)
    cases commit
    exact ⟨quotientFits64_iff_limbs _, (divmod32_spec _ _ _ below).1,
      fun fits => halves_of_lt _ ((quotientFits64_iff _).1 fits)⟩
  · have commit := (due.run_exec word h).symm.trans (exec_div64_commits _ nonzero)
    cases commit
    have quotient := div64_quotient_toNat s.val s.opm nonzero
    have small : s.val.toNat % 2 ^ 64 / s.opm.toNat < 2 ^ 64 :=
      (Nat.div_le_self _ _).trans_lt (Nat.mod_lt _ (by decide))
    exact ⟨rfl, quotient, halves_of_lt _ (quotient ▸ small)⟩
  · cases step_statusStep s t h with
    | completes due =>
      exact runCommand_keeps_fits64 { s with events := s.events.tail } t (due.run h)
        fun division => noDivision ⟨due, division⟩
    | resets due => exact absurd due noReset
    | accepts w due => rw [due.next h]; rfl
    | clears v due => rw [due.next_status h]; rfl
    | drops due => rw [due.next h]
    | quiet keeps => exact keeps.fits64

/-- Settles O39: the completion reports the running word's error (`runCommand_reports`); of the other steps
only the accept and the reset write the report (`step_statusStep`). -/
theorem errorReportIsWrittenTogether : Obligations.ErrorReportIsWrittenTogether := by
  intro s t h
  refine ⟨?_, fun due => (due.reports h).kept, fun due => (due.reports h).written,
    fun noAccept noComplete noReset => ?_⟩
  · rintro (⟨w, due⟩ | due) <;> rw [due.next h] <;> exact ⟨rfl, rfl⟩
  · cases step_statusStep s t h with
    | completes due => exact absurd due noComplete
    | resets due => exact absurd due noReset
    | accepts w due => exact absurd due (noAccept w)
    | clears v due => rw [due.next_status h]; exact ⟨rfl, rfl⟩
    | drops due => rw [due.next h]; exact ⟨rfl, rfl⟩
    | quiet keeps => exact ⟨keeps.err, keeps.errcode⟩

/-- Settles O40: only INVALID_CHARACTER writes an index, that of the first absent symbol
(`runCommand_reports`). -/
theorem erridxNamesTheFirstAbsentSymbol : Obligations.ErridxNamesTheFirstAbsentSymbol := by
  intro s t h
  refine ⟨?_, fun due => (due.reports h).index, fun noAccept noReset noBadChar => ?_⟩
  · rintro (⟨w, due⟩ | due) <;> rw [due.next h] <;> rfl
  · cases step_statusStep s t h with
    | completes due => exact (due.reports h).indexKept fun bad => noBadChar ⟨due, bad⟩
    | resets due => exact absurd due noReset
    | accepts w due => exact absurd due (noAccept w)
    | clears v due => rw [due.next_status h]; rfl
    | drops due => rw [due.next h]
    | quiet keeps => exact keeps.errIdx

/-- Settles O48: the reset state's fields by their definition, ALPHA by what a written file of zeros holds
(`Table.zero_write_getElem`), and every resetting step by `State.resetDue.next`. -/
theorem resetValues : Obligations.ResetValues := by
  refine ⟨rfl, by decide, by decide, rfl, by decide, rfl, rfl, rfl, by decide, rfl, rfl, rfl, rfl, rfl, rfl,
    rfl, rfl, fun i => ?_, by decide, fun i => ?_, rfl, rfl, fun u t due h => due.next h⟩
  · simp [State.peek, State.reset, Table.zero]
  · exact Table.zero_write_getElem Config.defaultAlphabet i

end Sys2Proof.Proofs

/-! Proofs of the statements of 20_memory.md: which accesses the block answers with a bus error (R72, R73). -/

namespace Sys2Proof.Machine

/-! ## The mapped offsets (R72, R73, R79) -/

/-- The named registers end before word 24, offset 0x060 (R79). -/
theorem namedLoc_eq_none_iff (n : Nat) : namedLoc n = none ↔ 24 ≤ n := by
  rcases Nat.lt_or_ge n 24 with named | past
  · interval_cases n <;> simp [namedLoc]
  · obtain ⟨k, rfl⟩ := Nat.exists_eq_add_of_le' past
    simp [namedLoc]

/-- An aligned offset by the quarter of the window it lies in (R79). -/
theorem Loc.ofOffset_eq_none_iff_of_aligned (off : Offset) (aligned : off.toNat % 4 = 0) :
    Loc.ofOffset off = none ↔ 0x060 ≤ off.toNat ∧ off.toNat < 0x400 := by
  have quarter : (off.extractLsb' 10 2).toNat = off.toNat / 1024 % 4 := by
    simp [BitVec.extractLsb'_toNat, Nat.shiftRight_eq_div_pow]
  have word : (off.extractLsb' 2 8).toFin.val = off.toNat / 4 % 256 := by
    simp [Nat.shiftRight_eq_div_pow]
  have inWindow := off.isLt
  simp only [Loc.ofOffset, if_pos aligned]
  split
  next first => rw [namedLoc_eq_none_iff, word]; omega
  next second => simp only [reduceCtorEq, false_iff]; omega
  next third => simp only [reduceCtorEq, false_iff]; omega
  next notFirst _ _ => exact iff_of_false nofun fun range => notFirst (by omega)

/-- The offsets with no location: those not divisible by 4 (R72) and the unmapped ones (R73). -/
theorem Loc.ofOffset_eq_none_iff (off : Offset) :
    Loc.ofOffset off = none ↔ off.toNat % 4 ≠ 0 ∨ (0x060 ≤ off.toNat ∧ off.toNat < 0x400) := by
  by_cases aligned : off.toNat % 4 = 0
  · simp only [Loc.ofOffset_eq_none_iff_of_aligned off aligned, aligned, ne_eq, not_true, false_or]
  · exact iff_of_true (if_neg aligned) (.inl aligned)

/-! ## Bad accesses and the others -/

/-- A bad read is too narrow or too wide, or names no location (R72, R73). -/
theorem Access.bad_read_iff (off : Offset) (bytes : Nat) :
    (Access.read off bytes).bad ↔ bytes ≠ 4 ∨ Loc.ofOffset off = none :=
  or_congr_right (Loc.ofOffset_eq_none_iff off).symm

/-- A bad write is not of 32 bits with all strobes, or names no location (R72, R73). -/
theorem Access.bad_write_iff (off : Offset) (bytes : Nat) (strobes : BitVec 4) (v : Word) :
    (Access.write off bytes strobes v).bad ↔
      ¬ (bytes = 4 ∧ strobes = 0xF#4) ∨ Loc.ofOffset off = none :=
  or_congr not_and_or.symm (Loc.ofOffset_eq_none_iff off).symm

/-- A bad access is a bus error of its own offset (R72, R73). -/
theorem hostAccess_of_bad (s : State) (a : Access) (bad : a.bad) :
    hostAccess s a = busError s a.off := by
  cases a with
  | read off bytes =>
    rcases (Access.bad_read_iff off bytes).1 bad with size | unmapped
    · simp only [hostAccess, if_neg size, Access.off]
    · simp only [hostAccess, unmapped, ite_self, Access.off]
  | write off bytes strobes v =>
    rcases (Access.bad_write_iff off bytes strobes v).1 bad with partly | unmapped
    · simp only [hostAccess, if_neg partly, Access.off]
    · simp only [hostAccess, unmapped, ite_self, Access.off]

/-- Every other access is performed at the location it names (R12, R79). -/
theorem hostAccess_of_not_bad (s : State) (a : Access) (good : ¬ a.bad) :
    ∃ l, hostAccess s a = hostRead s a.off l ∨ ∃ v, hostAccess s a = hostWrite s l v := by
  cases a with
  | read off bytes =>
    rw [Access.bad_read_iff, not_or, not_not] at good
    obtain ⟨rfl, mapped⟩ := good
    obtain ⟨l, at_l⟩ := Option.ne_none_iff_exists'.1 mapped
    exact ⟨l, .inl (by simp only [hostAccess, if_true, at_l, Access.off])⟩
  | write off bytes strobes v =>
    rw [Access.bad_write_iff, not_or, not_not] at good
    obtain ⟨whole, mapped⟩ := good
    obtain ⟨l, at_l⟩ := Option.ne_none_iff_exists'.1 mapped
    exact ⟨l, .inr ⟨v, by simp only [hostAccess, if_pos whole, at_l]⟩⟩

/-- An access that is not bad is answered with data or as written, not with a bus error (R74, R82). -/
theorem hostAccess_resp_ne_busError (s : State) (a : Access) (good : ¬ a.bad) (off : Offset) :
    (hostAccess s a).resp ≠ some (.busError off) := by
  obtain ⟨l, read | ⟨v, write⟩⟩ := hostAccess_of_not_bad s a good
  · rw [read, hostRead]; simp
  · rw [write, hostWrite]; simp

/-- A host access that is due is performed (R12). -/
theorem State.accessDue.step_eq {s : State} {a : Access} (due : s.accessDue a) :
    step s = .next (hostAccess { s with events := s.events.tail } a) := by
  obtain ⟨low, rest, ev⟩ := due
  simp [step, ev, handleEvent, low]

end Sys2Proof.Machine

namespace Sys2Proof.Proofs

open Sys2Proof.Machine

/-- Settles O44: the access that is due is the step (`State.accessDue.step_eq`), a bad one is a bus error of its
offset (`hostAccess_of_bad`) and every other one is answered without one (`hostAccess_resp_ne_busError`). -/
theorem badAccessesAreBusErrors : Obligations.BadAccessesAreBusErrors := by
  intro s a due
  rw [due.step_eq]
  exact ⟨fun bad => by rw [hostAccess_of_bad _ a bad]; rfl,
    fun good => ⟨_, rfl, hostAccess_resp_ne_busError _ a good⟩⟩

end Sys2Proof.Proofs

/-! Proofs of the statements of 30_encoding.md: which words are legal (R105, R107), that decoding is total (R108),
what a word that names no command does (R106), and what a mnemonic writes (R113). -/

namespace Sys2Proof

/-! ## Which words name a command (R105, R107) -/

/-- OPCODE names an operation where it is 1 to 7 (R105, R106). -/
theorem CmdFields.opcodeNamed_iff (f : CmdFields) :
    f.opcodeNamed = true ↔ 1 ≤ f.opcode.toNat ∧ f.opcode.toNat ≤ 7 := by
  simp [CmdFields.opcodeNamed, BitVec.le_def]

/-- R107 in the fields' own values. -/
theorem CmdFields.legal_iff (f : CmdFields) :
    f.legal = true ↔ f.rsvd = 0#22 ∧ f.opcodeNamed = true ∧ (f.strict = false ∨ f.opcode = 5#8) ∧
      (f.usePad = false ∨ f.opcode = 4#8) := by
  simp [CmdFields.legal, CmdFields.rsvdZero, CmdFields.strictOnlyDecode, CmdFields.usePadOnlyEncode, and_assoc]

/-- Only a reserved OPCODE names no operation (R106). -/
theorem opcodeInstr_eq_none_iff (f : CmdFields) : opcodeInstr f = none ↔ f.opcodeNamed = false := by
  rw [← Bool.not_eq_true, f.opcodeNamed_iff]
  unfold opcodeInstr
  split
  case h_8 => simp only [true_iff]; grind
  all_goals simp only [reduceCtorEq, false_iff]; omega

/-- The decoder names a command where the opcode does and the fields are legal (R107). -/
theorem decode_eq_ok_iff (w : Word) (i : Instr) :
    decode w = .ok i ↔ opcodeInstr (fieldsOf w) = some i ∧ (fieldsOf w).legal = true := by
  cases operation : opcodeInstr (fieldsOf w) with
  | none => simp [decode, operation]
  | some j =>
    have named : (fieldsOf w).opcodeNamed = true := by
      by_contra reserved
      simp [(opcodeInstr_eq_none_iff _).2 (Bool.eq_false_iff.2 reserved)] at operation
    simp only [decode, operation]
    split_ifs with rsvd strict usePad <;> simp_all [CmdFields.legal]

/-- The decoder names some command exactly for the legal words (R107). -/
theorem exists_decode_eq_ok_iff (w : Word) : (∃ i, decode w = .ok i) ↔ (fieldsOf w).legal = true := by
  simp only [decode_eq_ok_iff, exists_and_right, and_iff_right_iff_imp]
  intro legal
  obtain ⟨-, named, -⟩ := (CmdFields.legal_iff _).1 legal
  refine Option.ne_none_iff_exists'.1 fun reserved => ?_
  simp [(opcodeInstr_eq_none_iff _).1 reserved] at named

/-- R107's four conjuncts, bit by bit. -/
theorem legal_fieldsOf_iff (w : Word) :
    (fieldsOf w).legal = true ↔
      w.extractLsb' 10 22 = 0#22 ∧
      w.extractLsb' 0 8 ∈ [0x01#8, 0x02#8, 0x03#8, 0x04#8, 0x05#8, 0x06#8, 0x07#8] ∧
      (w.getLsbD 8 = false ∨ w.extractLsb' 0 8 = 0x05#8) ∧
      (w.getLsbD 9 = false ∨ w.extractLsb' 0 8 = 0x04#8) := by
  have named : (fieldsOf w).opcodeNamed = true ↔
      w.extractLsb' 0 8 ∈ [0x01#8, 0x02#8, 0x03#8, 0x04#8, 0x05#8, 0x06#8, 0x07#8] := by
    rw [CmdFields.opcodeNamed_iff, fieldsOf]
    generalize w.extractLsb' 0 8 = opcode
    simp only [List.mem_cons, List.not_mem_nil, or_false, BitVec.toNat_eq, BitVec.toNat_ofNat]
    omega
  rw [CmdFields.legal_iff, named]
  rfl

/-! ## The words of the commands (R101, R105) -/

/-- A word is the word of its fields (R101). -/
theorem wordOf_fieldsOf (w : Word) : wordOf (fieldsOf w) = w := by
  have bit (n : Nat) : BitVec.ofBool (w.getLsbD n) = w.extractLsb' n 1 := by
    ext k hk
    simp [show k = 0 by omega]
  simp only [wordOf, fieldsOf, bit]
  rw [BitVec.extractLsb'_append_extractLsb'_eq_extractLsb' (by omega),
    BitVec.extractLsb'_append_extractLsb'_eq_extractLsb' (by omega),
    BitVec.extractLsb'_append_extractLsb'_eq_extractLsb' (by omega)]
  simp

/-- The operation of an opcode has that opcode, and no mode bit but the opcode's own (R103 to R105). -/
theorem fields_of_opcodeInstr (f : CmdFields) (i : Instr) (operation : opcodeInstr f = some i) :
    i.fields = { opcode := f.opcode, strict := f.strict && f.opcode == 5#8,
                 usePad := f.usePad && f.opcode == 4#8, rsvd := 0#22 } := by
  have opcode (n : Nat) (h : f.opcode.toNat = n) : f.opcode = BitVec.ofNat 8 n := by simp [← h]
  unfold opcodeInstr at operation
  split at operation <;> cases operation
  all_goals next h => simp [Instr.fields, Instr.opcode, opcode _ h]

/-- Legal fields are those of the command their opcode names (R105, R107). -/
theorem fields_eq_of_legal (f : CmdFields) (i : Instr) (operation : opcodeInstr f = some i)
    (legal : f.legal = true) : i.fields = f := by
  obtain ⟨rsvd, -, strict, usePad⟩ := f.legal_iff.1 legal
  have strictOwn : (f.strict && f.opcode == 5#8) = f.strict := by rcases strict with h | h <;> simp [h]
  have usePadOwn : (f.usePad && f.opcode == 4#8) = f.usePad := by rcases usePad with h | h <;> simp [h]
  rw [fields_of_opcodeInstr f i operation, strictOwn, usePadOwn, ← rsvd]

/-- A word is the command word of what it decodes to (R105). -/
theorem encode_of_decode (w : Word) (i : Instr) (h : decode w = .ok i) : encode i = w := by
  obtain ⟨operation, legal⟩ := (decode_eq_ok_iff w i).1 h
  rw [encode, fields_eq_of_legal _ i operation legal, wordOf_fieldsOf]

end Sys2Proof

namespace Sys2Proof.Machine

/-- R105's nine words are the command words. -/
theorem mem_legalWords_iff (w : Word) : w ∈ legalWords ↔ ∃ i, decode w = .ok i := by
  constructor
  · simp only [legalWords, List.mem_cons, List.not_mem_nil, or_false]
    rintro (rfl | rfl | rfl | rfl | rfl | rfl | rfl | rfl | rfl) <;> exact ⟨_, rfl⟩
  · rintro ⟨i, h⟩
    rw [← encode_of_decode w i h]
    cases i with
    | encode usePad => cases usePad <;> decide
    | decode strict => cases strict <;> decide
    | _ => decide

/-! ## The completion step of a legal and of an illegal word (R106 to R108) -/

/-- The step at a completion is the running command's (R249, R250). -/
theorem State.completionDue.step_eq {s : State} (due : s.completionDue) :
    step s = runCommand { s with events := s.events.tail } := by
  obtain ⟨busy, low, ev | ⟨rest, ev⟩⟩ := due
  · have same : { s with events := s.events.tail } = s := by cases s; cases ev; rfl
    rw [same]
    simp [step, ev, State.engineBusy, busy, low]
  · simp [step, ev, handleEvent, State.engineBusy, busy, low]

/-- A word that names a command runs it (R108). -/
theorem State.completionDue.step_legal {s : State} {i : Instr} (due : s.completionDue)
    (h : Sys2Proof.decode s.cmd = .ok i) : step s = exec i { s with events := s.events.tail } := by
  simp only [due.step_eq, runCommand, h]

/-- A word that names none completes with ILLEGAL_OPCODE and no other effect (R107). -/
theorem State.completionDue.step_illegal {s : State} (due : s.completionDue)
    (h : ¬ ∃ i, Sys2Proof.decode s.cmd = .ok i) :
    step s = .next (State.failed { s with events := s.events.tail } .illegalOpcode) := by
  rw [due.step_eq, runCommand]
  split
  next i word => exact absurd ⟨i, word⟩ h
  next => rfl

/-- A reserved OPCODE names no command (R106). -/
theorem not_decode_of_reserved (w : Word)
    (h : w.extractLsb' 0 8 = 0x00#8 ∨ 0x08#8 ≤ w.extractLsb' 0 8) :
    ¬ ∃ i, Sys2Proof.decode w = .ok i := by
  rw [exists_decode_eq_ok_iff, CmdFields.legal_iff, CmdFields.opcodeNamed_iff, fieldsOf]
  rintro ⟨-, ⟨low, high⟩, -⟩
  generalize w.extractLsb' 0 8 = opcode at h low high
  rcases h with rfl | h
  · simp at low
  · have : 8 ≤ opcode.toNat := h
    simp only at high
    omega

end Sys2Proof.Machine

namespace Sys2Proof.Proofs

open Sys2Proof.Machine

/-- Settles O3: R107's conjuncts are the decoder's own tests (`legal_fieldsOf_iff`,
`exists_decode_eq_ok_iff`), and a word that names no command completes with the report alone
(`State.completionDue.step_illegal`). -/
theorem illegalWordsCompleteWithIllegalOpcode : Obligations.IllegalWordsCompleteWithIllegalOpcode := by
  intro s due w legal
  have names : legal ↔ ∃ i, decode w = .ok i :=
    (legal_fieldsOf_iff w).symm.trans (exists_decode_eq_ok_iff w).symm
  exact ⟨names, fun illegal => due.step_illegal (names.not.1 illegal)⟩

/-- Settles O4: the nine words are those that name a command (`mem_legalWords_iff`). -/
theorem everyWordIsLegalOrIllegalOpcode : Obligations.EveryWordIsLegalOrIllegalOpcode := by
  intro s due
  by_cases legal : s.cmd ∈ legalWords
  · obtain ⟨i, word⟩ := (mem_legalWords_iff _).1 legal
    exact .inl ⟨legal, i, encode_of_decode _ i word, due.step_legal word⟩
  · exact .inr ⟨legal, due.step_illegal ((mem_legalWords_iff _).not.1 legal)⟩

/-- Settles O5: the accept (`State.acceptDue.next`), then the completion of a word that names no command
(`not_decode_of_reserved`, `State.completionDue.step_illegal`). -/
theorem reservedOpcodeIsAcceptedThenFails : Obligations.ReservedOpcodeIsAcceptedThenFails := by
  intro s w rest idle low ev reserved
  have accepting : s.acceptDue w := ⟨idle, low, .complete :: rest, ev⟩
  have accepted := State.writeDue.step_eq (l := .cmd) accepting.2
  obtain ⟨t, ht⟩ : ∃ t, step s = .next t := ⟨_, accepted⟩
  obtain rfl := accepting.next ht
  have completing : State.completionDue
      { accept { s with events := s.events.tail } w with resp := some .written } :=
    ⟨rfl, low, .inr ⟨rest, by simp [ev]⟩⟩
  refine ⟨_, _, ht, rfl, rfl, completing.step_illegal (not_decode_of_reserved w reserved), ?_, rfl, rfl⟩
  simp [State.failed, State.finished, accept, ev, idle]

/-- Settles O59: CMD's offset is 0x00C and the words are R113's, each a small closed evaluation. -/
theorem mnemonicsExpandToCommandWrites : Obligations.MnemonicsExpandToCommandWrites :=
  ⟨fun _ => rfl, by decide⟩

end Sys2Proof.Proofs

/-! Proofs of the statements of 40_alphabet.md: the symbol lookup (R136), ABUILD's commit and its errors (R131 to
R133), and the default pad length (R137, R138). -/

namespace Sys2Proof.Machine

/-! ## The symbol lookup (R136) -/

/-- A symbol of the alphabet at position i is ALPHA[i] below NBASE. -/
theorem State.symbols_getElem?_eq_some (s : State) (i : Nat) (c : Word) :
    s.symbols[i]? = some c ↔ i < s.nbase.toNat ∧ s.alpha[i]? = some c := by
  rw [State.symbols, List.getElem?_take, Vector.getElem?_toList, Option.ite_none_right_eq_some]

theorem State.mem_symbols_iff (s : State) (c : Word) :
    c ∈ s.symbols ↔ ∃ i, i < s.nbase.toNat ∧ s.alpha[i]? = some c := by
  simp only [List.mem_iff_getElem?, State.symbols_getElem?_eq_some]

/-- In a rising alphabet a symbol has one position, so the first one the lookup finds is any that holds it. -/
theorem indexOf_eq_some_iff (s : State) (rising : s.symbols.Pairwise (· < ·)) (c : Word) (i : Nat) :
    indexOf s c = some i ↔ s.symbols[i]? = some c := by
  rw [indexOf, findSymbol_eq_some]
  constructor
  · rintro ⟨k, rfl, at_k, -⟩
    rwa [Nat.zero_add]
  · intro at_i
    refine ⟨i, (Nat.zero_add i).symm, at_i, fun m before at_m => ?_⟩
    have inside := (List.getElem?_eq_some_iff.1 at_m).1
    have same : m = i := (List.getElem?_inj inside (nodup_of_pairwise_lt _ rising)).1 (at_m.trans at_i.symm)
    omega

/-! ## The three outcomes of ABUILD (R131, R132) -/

theorem execAbuild_of_long (s : State) (long : 256 < s.astageCnt.toNat) :
    execAbuild s = .next (s.failed .lengthRange) :=
  if_pos long

theorem execAbuild_of_few (s : State) (short : s.astageCnt.toNat ≤ 256) (few : s.staged.dedup.length < 2) :
    execAbuild s = .next (s.failed .invalidAlphabet) := by
  rw [← canonical_length] at few
  exact (if_neg (Nat.not_lt.2 short)).trans (if_pos few)

theorem execAbuild_of_enough (s : State) (short : s.astageCnt.toNat ≤ 256)
    (enough : 2 ≤ s.staged.dedup.length) :
    execAbuild s = .next (commitAlphabet s (canonical s.staged)) := by
  rw [← canonical_length] at enough
  exact (if_neg (Nat.not_lt.2 short)).trans (if_neg (Nat.not_lt.2 enough))

/-! ## What the commit writes (R131) -/

theorem commitAlphabet_nbase_toNat (s : State) (symbols : List Word) (fit : symbols.length ≤ 256) :
    (commitAlphabet s symbols).nbase.toNat = symbols.length :=
  Nat.mod_eq_of_lt (by omega)

theorem commitAlphabet_symbols (s : State) (symbols : List Word) (fit : symbols.length ≤ 256) :
    (commitAlphabet s symbols).symbols = symbols := by
  rw [State.symbols, commitAlphabet_nbase_toNat s symbols fit]
  exact (congrArg _ (Table.write_toList Table.zero symbols fit)).trans List.take_left

theorem commitAlphabet_alpha_past (s : State) (symbols : List Word) (i : Nat) (past : symbols.length ≤ i)
    (inside : i < 256) : (commitAlphabet s symbols).alpha[i]? = some 0#32 := by
  have entry := Table.zero_write_getElem symbols ⟨i, inside⟩
  rw [List.getElem?_eq_none past] at entry
  exact (Vector.getElem?_eq_getElem inside).trans (congrArg some entry)

theorem commitAlphabet_defpad_toNat (s : State) (symbols : List Word) :
    (commitAlphabet s symbols).defpad.toNat = defaultPadLength symbols.length := by
  have := defaultPadLength_le symbols.length
  exact Nat.mod_eq_of_lt (by omega)

/-! ## The default pad length (R137, R138) -/

/-- The default pad length is the least exponent that reaches 2^64. -/
theorem defaultPadLength_le_iff (n : Nat) (two : 2 ≤ n) (p : Nat) :
    defaultPadLength n ≤ p ↔ 2 ^ 64 ≤ n ^ p := by
  have reach : 2 ^ 64 ≤ n ^ (0 + 64) := Nat.pow_le_pow_left two 64
  obtain ⟨high, low⟩ := padSearch_spec n 64 0 (by simp) reach
  rw [pow_zero] at high low
  constructor
  · intro le
    exact high.trans (Nat.pow_le_pow_right (by omega) le)
  · intro reached
    by_contra above
    exact absurd (low p (Nat.lt_of_not_le above)) (Nat.not_lt.2 reached)

/-- Between two bases, the lower of which reaches 2^64 with p factors while the higher needs them all, the
default pad length is p. -/
theorem defaultPadLength_eq_of_between (n low high p : Nat) (two : 2 ≤ low) (above : low ≤ n)
    (below : n ≤ high) (reached : 2 ^ 64 ≤ low ^ p) (short : high ^ (p - 1) < 2 ^ 64) :
    defaultPadLength n = p := by
  have le : defaultPadLength n ≤ p :=
    (defaultPadLength_le_iff n (by omega) p).2 (reached.trans (Nat.pow_le_pow_left above p))
  have not_le : ¬ defaultPadLength n ≤ p - 1 := fun fits =>
    absurd ((defaultPadLength_le_iff n (by omega) (p - 1)).1 fits)
      (Nat.not_le.2 ((Nat.pow_le_pow_left below _).trans_lt short))
  omega

/-- R137's real quotient is at most p exactly when N^p reaches 2^64. -/
theorem log_quotient_le_iff (n : Nat) (two : 2 ≤ n) (p : Nat) :
    Real.log (2 ^ 64) / Real.log n ≤ p ↔ 2 ^ 64 ≤ n ^ p := by
  have base : (1 : ℝ) < n := by exact_mod_cast two
  rw [Real.log_div_log, Real.logb_le_iff_le_rpow base (by positivity), Real.rpow_natCast]
  exact_mod_cast Iff.rfl

end Sys2Proof.Machine

namespace Sys2Proof.Proofs

open Sys2Proof.Machine

/-- Settles O26: a lookup finds the position at which the alphabet holds the symbol (`indexOf_eq_some_iff`),
and none for a symbol the alphabet does not hold (`indexOf_eq_none`). -/
theorem indexOfFindsTheOnePosition : Obligations.IndexOfFindsTheOnePosition := by
  intro s inv
  obtain ⟨-, fit, rising, -, -⟩ := inv
  have found : ∀ c i, indexOf s c = some i ↔ i < s.nbase.toNat ∧ s.alpha[i]? = some c := fun c i =>
    (indexOf_eq_some_iff s rising c i).trans (s.symbols_getElem?_eq_some i c)
  refine ⟨found, fun c => ?_, fun d digit => ?_⟩
  · simp only [indexOf_eq_none, State.mem_symbols_iff, not_exists, not_and, ne_eq]
  · have entry := symbolAt_eq s d (by omega)
    exact ⟨entry, (found _ _).2 ⟨digit, entry⟩⟩

/-- Settles O27: the commit's fields, taken at the canonical list, which rises, holds the staged symbols and is
has one entry for each distinct one (`canonical_pairwise`, `mem_canonical`, `canonical_length`). -/
theorem abuildCommitsCanonicalAlphabet : Obligations.AbuildCommitsCanonicalAlphabet := by
  intro s
  refine ⟨execAbuild_of_long s, execAbuild_of_few s, fun short enough =>
    ⟨_, execAbuild_of_enough s short enough, ?_⟩⟩
  have fit : (canonical s.staged).length ≤ 256 :=
    (canonical_length_le s.staged).trans (staged_length_le s)
  rw [commitAlphabet_nbase_toNat s _ fit, commitAlphabet_symbols s _ fit]
  exact ⟨canonical_length _, canonical_pairwise _, fun c => mem_canonical c _,
    commitAlphabet_alpha_past s _, commitAlphabet_defpad_toNat s _, rfl⟩

/-- Settles O28: the outcomes in R132's order, and a completion that raised an error wrote its report alone
(`exec_ends`, `ExecEnds.eq_failed`), so that R52's invariant stays (`State.AlphabetInv_congr`). -/
theorem abuildErrorsKeepTheAlphabet : Obligations.AbuildErrorsKeepTheAlphabet := by
  intro s
  refine ⟨execAbuild_of_long s, execAbuild_of_few s, fun short enough =>
    ⟨_, execAbuild_of_enough s short enough, rfl, rfl⟩, fun t h clean failed => ?_⟩
  have ends := exec_ends .abuild s t h
  have raised : commandError s .abuild ≠ .noError := fun clear => by
    have same := (ends.reports.kept clear).1
    simp [clean, failed] at same
  rw [ends.eq_failed raised]
  exact ⟨rfl, rfl, rfl, fun inv => State.AlphabetInv_congr _ _ inv rfl rfl rfl⟩

/-- Settles O30: the default pad length and the ceiling of the quotient have the same upper bounds
(`defaultPadLength_le_iff`, `log_quotient_le_iff`). -/
theorem defaultPadLengthIsLeast : Obligations.DefaultPadLengthIsLeast := by
  intro n two _
  refine ⟨(defaultPadLength_le_iff n two _).1 le_rfl, fun p => (defaultPadLength_le_iff n two p).2,
    eq_of_forall_ge_iff fun p => ?_⟩
  rw [defaultPadLength_le_iff n two, Nat.ceil_le, log_quotient_le_iff n two]

/-- Settles O31: in each row the least base reaches 2^64 with the row's length, and the greatest needs all of
it (`defaultPadLength_eq_of_between`). -/
theorem defaultPadLengthTable : Obligations.DefaultPadLengthTable := by
  intro row mem n _ above below
  have edges : 2 ≤ row.1 ∧ 2 ^ 64 ≤ row.1 ^ row.2.2 ∧ row.2.1 ^ (row.2.2 - 1) < 2 ^ 64 := by
    clear above below
    revert row
    decide
  obtain ⟨two, reached, short⟩ := edges
  exact defaultPadLength_eq_of_between n _ _ _ two above below reached short

end Sys2Proof.Proofs

/-! Proofs of the statements of 41_limb_arith.md: the limb step of the multiply-add (R152), and MULADD, DIVMOD
and DIV64 in closed form with their errors (R153, R158 to R160, R163). -/

namespace Sys2Proof.Machine

/-- R152: a word's product with a word leaves room for one more word, be it the carry or the addend. -/
theorem mulLimb_sum_le (x m carry a : Word) (one : carry = 0#32 ∨ a = 0#32) :
    x.toNat * m.toNat + carry.toNat + a.toNat ≤ 2 ^ 64 - 2 ^ 32 := by
  have product := word_mul_le x m
  have carryLt := carry.isLt
  have addendLt := a.isLt
  have single : carry.toNat = 0 ∨ a.toNat = 0 := one.imp (congrArg BitVec.toNat) (congrArg BitVec.toNat)
  omega

/-- The carry MULADD discards is the quotient by 2^128 (R153). -/
theorem muladdCarry_carry_toNat (v : Value) (m a : Word) :
    (muladdCarry v m a).2.toNat = (v.toNat * m.toNat + a.toNat) / 2 ^ 128 := by
  have split := muladdCarry_spec v m a
  have low := (muladdCarry v m a).1.isLt
  omega

/-- A quotient with the tag is the number of its two low limbs (R159). -/
theorem toNat_of_quotientFits64 (q : Value) (fits : quotientFits64 q = true) :
    q.toNat = (limb q 2).toNat * 2 ^ 32 + (limb q 3).toNat := by
  obtain ⟨first, second⟩ := (quotientFits64_iff_limbs q).1 fits
  have sum := value_toNat q
  rw [first, second] at sum
  simpa using sum

/-! ## The errors of DIVMOD and DIV64 (R158, R163) -/

/-- An error DIVMOD's check finds is all that its completion reports: nothing is committed. -/
theorem exec_divmod_fails (s : State) (e : ErrCode) (check : divmodCheck s = e) (raised : e ≠ .noError) :
    exec .divmod s = .next (s.failed e) := by
  subst check
  change execDivmod s = _
  unfold execDivmod
  split
  · next clear => exact absurd clear raised
  · rfl

theorem exec_divmod_of_zero (s : State) (zero : s.opm = 0#32) :
    exec .divmod s = .next (s.failed .divByZero) :=
  exec_divmod_fails s _ (if_pos zero) (by decide)

theorem exec_divmod_of_range (s : State) (nonzero : s.opm ≠ 0#32) (above : s.opm ≤ s.rin) :
    exec .divmod s = .next (s.failed .remRange) :=
  exec_divmod_fails s _ ((if_neg nonzero).trans (if_pos above)) (by decide)

theorem exec_div64_of_zero (s : State) (zero : s.opm = 0#32) :
    exec .div64 s = .next (s.failed .divByZero) :=
  if_pos zero

end Sys2Proof.Machine

namespace Sys2Proof.Proofs

open Sys2Proof.Machine

/-- Settles O11: the sum stays below 2^64 (`mulLimb_sum_le`), where the limb step is exact (`mulLimb_spec`). -/
theorem mulLimbStepLosesNothing : Obligations.MulLimbStepLosesNothing := fun x m carry a one =>
  have bound := mulLimb_sum_le x m carry a one
  ⟨bound, mulLimb_spec x m carry a (bound.trans_lt (by decide))⟩

/-- Settles O12: the four limb steps compute the sum, the result its remainder and the carry its quotient by 2^128
(`muladd32_toNat`, `muladdCarry_carry_toNat`); the carry is one word, hence the bound. -/
theorem muladdComputesClosedForm : Obligations.MuladdComputesClosedForm := fun s =>
  have carry := muladdCarry_carry_toNat s.val s.opm s.opa
  ⟨_, rfl, muladd32_toNat s.val s.opm s.opa, carry, carry ▸ (muladdCarry s.val s.opm s.opa).2.isLt, rfl⟩

/-- Settles O13: the commit (`exec_divmod_commits`) writes the quotient and the remainder (`divmod32_spec`) and the
tag of the quotient's limbs (`quotientFits64_iff_limbs`, `toNat_of_quotientFits64`). -/
theorem divmodComputesClosedForm : Obligations.DivmodComputesClosedForm := by
  intro s nonzero below
  obtain ⟨quotient, remainder⟩ := divmod32_spec s.val s.opm s.rin below
  exact ⟨_, exec_divmod_commits s nonzero below, quotient, remainder, quotientFits64_iff_limbs _,
    toNat_of_quotientFits64 _, rfl⟩

/-- Settles O14: DIVMOD's check finds OPM = 0 first and RIN at least OPM next (`exec_divmod_of_zero`,
`exec_divmod_of_range`). -/
theorem divmodErrorsInOrder : Obligations.DivmodErrorsInOrder := fun s =>
  ⟨exec_divmod_of_zero s, exec_divmod_of_range s⟩

/-- Settles O15: the native divide step on the low half (`div64_quotient_toNat`, `div64Step_spec`). -/
theorem divSixtyFourDividesLowHalf : Obligations.DivSixtyFourDividesLowHalf := by
  intro s
  refine ⟨exec_div64_of_zero s, fun nonzero => ?_⟩
  have remainder := (div64Step_spec (low64 s.val) s.opm nonzero).2
  rw [low64_toNat] at remainder
  exact ⟨_, exec_div64_commits s nonzero, div64_quotient_toNat s.val s.opm nonzero, remainder, rfl⟩

end Sys2Proof.Proofs

/-! Proofs of the statements of 42_encoder.md: the digits of the two division phases (R188), how often each phase
runs (R190), the string ENCODE commits (R187, R189) and its one error (R182). -/

namespace Sys2Proof.Machine

/-! ## The digits of a value (R188) -/

theorem toNat_ne_zero_of_ne {v : Value} (nonzero : v ≠ 0#128) : v.toNat ≠ 0 :=
  fun zero => nonzero (BitVec.eq_of_toNat_eq zero)

theorem valueDigits_zero (n : Word) : valueDigits n 0#128 = [0] :=
  if_pos rfl

theorem valueDigits_of_ne_zero (n : Word) {v : Value} (nonzero : v ≠ 0#128) :
    valueDigits n v = Nat.digits n.toNat v.toNat :=
  if_neg nonzero

theorem ofDigits_valueDigits (n : Word) (v : Value) :
    Nat.ofDigits n.toNat (valueDigits n v) = v.toNat := by
  by_cases zero : v = 0#128
  · subst zero; simp [valueDigits_zero]
  · rw [valueDigits_of_ne_zero n zero, Nat.ofDigits_digits]

theorem valueDigits_lt (n : Word) (v : Value) (two : 2 ≤ n.toNat) {d : Nat} (mem : d ∈ valueDigits n v) :
    d < n.toNat := by
  by_cases zero : v = 0#128
  · subst zero
    rw [valueDigits_zero, List.mem_singleton] at mem
    omega
  · rw [valueDigits_of_ne_zero n zero] at mem
    exact Nat.digits_lt_base two mem

/-- The most significant digit is not 0, but for the value 0. -/
theorem valueDigits_getLast?_ne_zero (n : Word) {v : Value} (nonzero : v ≠ 0#128) :
    (valueDigits n v).getLast? ≠ some 0 := by
  have positive := toNat_ne_zero_of_ne nonzero
  rw [valueDigits_of_ne_zero n nonzero,
    List.getLast?_eq_some_getLast (Nat.digits_ne_nil_iff_ne_zero.2 positive)]
  exact fun zero => Nat.getLast_digit_ne_zero n.toNat positive (Option.some.inj zero)

theorem valueDigits_length_pos (n : Word) (v : Value) : 1 ≤ (valueDigits n v).length := by
  by_cases zero : v = 0#128
  · subst zero; exact le_of_eq rfl
  · rw [valueDigits_of_ne_zero n zero]
    exact List.length_pos_iff.2 (Nat.digits_ne_nil_iff_ne_zero.2 (toNat_ne_zero_of_ne zero))

/-- The number of digits is the least m with VAL below N^m; the value 0 has its one digit where m is not 0. -/
theorem valueDigits_length_le_iff (n : Word) (v : Value) (two : 2 ≤ n.toNat) (m : Nat)
    (digit : v ≠ 0#128 ∨ 1 ≤ m) : (valueDigits n v).length ≤ m ↔ v.toNat < n.toNat ^ m := by
  by_cases zero : v = 0#128
  · subst zero
    have : 0 < n.toNat ^ m := Nat.pow_pos (by omega)
    have : 1 ≤ m := digit.resolve_left (· rfl)
    simpa [valueDigits_zero] using by omega
  · rw [valueDigits_of_ne_zero n zero, Nat.digits_length_le_iff two]

theorem valueDigits_length_le (n : Word) (v : Value) (two : 2 ≤ n.toNat) :
    (valueDigits n v).length ≤ 128 :=
  (valueDigits_length_le_iff n v two 128 (.inr (by decide))).2
    (v.isLt.trans_le (Nat.pow_le_pow_left two 128))

/-! ## The two phases compute them (R183, R184) -/

/-- 64 factors of at least 2 are past every 64-bit word. -/
theorem wide_lt_pow (q : Wide) {n fuel : Nat} (two : 2 ≤ n) (enough : 64 ≤ fuel) : q.toNat < n ^ fuel :=
  calc q.toNat < 2 ^ 64 := q.isLt
    _ ≤ n ^ 64 := Nat.pow_le_pow_left two 64
    _ ≤ n ^ fuel := Nat.pow_le_pow_right (by omega) enough

/-- 64 divisions by N of at least 2 leave less than 2^64 of any value. -/
theorem div_pow_lt (v : Value) {n fuel : Nat} (two : 2 ≤ n) (enough : 64 ≤ fuel) :
    v.toNat / n ^ fuel < 2 ^ 64 := by
  refine Nat.div_lt_of_lt_mul ?_
  calc v.toNat < 2 ^ 64 * 2 ^ 64 := v.isLt
    _ ≤ n ^ 64 * 2 ^ 64 := Nat.mul_le_mul_right _ (Nat.pow_le_pow_left two 64)
    _ ≤ n ^ fuel * 2 ^ 64 := Nat.mul_le_mul_right _ (Nat.pow_le_pow_right (by omega) enough)

theorem divmod32_of_value_zero (n : Word) (two : 2 ≤ n.toNat) : divmod32 0#128 n 0#32 = (0#128, 0#32) := by
  obtain ⟨quotient, remainder⟩ := divmod32_zero 0#128 n two
  exact Prod.ext (BitVec.eq_of_toNat_eq (quotient.trans (Nat.zero_div _)))
    (BitVec.eq_of_toNat_eq (remainder.trans (Nat.zero_mod _)))

/-- The value 0 has its digit from phase 1, whose quotient 0 ends phase 2 before its first division. -/
theorem encodeDigits_of_value_zero (n : Word) (two : 2 ≤ n.toNat) : encodeDigits n 0#128 = [0#32] := by
  have fits : quotientFits64 0#128 = true := by decide
  have rest : low64 0#128 = 0#64 := by decide
  have first : encodePhase1 n 128 0#128 = ([0#32], 0#64) := by
    simp [encodePhase1, divmod32_of_value_zero n two, fits, rest]
  simp [encodeDigits, first, encodePhase2]

/-- R188: the digits of the two phases are the base-N digits of the value. -/
theorem encodeDigits_toNat (n : Word) (v : Value) (two : 2 ≤ n.toNat) :
    (encodeDigits n v).map BitVec.toNat = valueDigits n v := by
  by_cases zero : v = 0#128
  · subst zero
    rw [encodeDigits_of_value_zero n two, valueDigits_zero]; rfl
  · have fuel : v.toNat < 2 ^ 64 * n.toNat ^ 128 :=
      (Nat.div_lt_iff_lt_mul (Nat.pow_pos (by omega))).1 (div_pow_lt v two (by decide))
    rw [valueDigits_of_ne_zero n zero, ← encodePhase1_digits n two 128 v zero fuel (by decide),
      ← encodePhase2_digits n two 128 _ (wide_lt_pow _ two (by decide)), ← List.map_append]
    rfl

theorem encodeDigits_length (n : Word) (v : Value) (two : 2 ≤ n.toNat) :
    (encodeDigits n v).length = (valueDigits n v).length := by
  rw [← encodeDigits_toNat n v two, List.length_map]

/-! ## How often the phases run (R190) -/

theorem encodePhase1_length_pos (n : Word) (fuel : Nat) (v : Value) :
    1 ≤ (encodePhase1 n (fuel + 1) v).1.length := by
  simp only [encodePhase1]
  split <;> simp

/-- Phase 1 runs at most k + 1 times exactly when k + 1 divisions bring the value below 2^64. -/
theorem encodePhase1_length_le_succ_iff (n : Word) (two : 2 ≤ n.toNat) (fuel : Nat) (v : Value)
    (enough : v.toNat / n.toNat ^ (fuel + 1) < 2 ^ 64) (k : Nat) :
    (encodePhase1 n (fuel + 1) v).1.length ≤ k + 1 ↔ v.toNat / n.toNat ^ (k + 1) < 2 ^ 64 := by
  have peel : ∀ j, v.toNat / n.toNat ^ (j + 1) = (divmod32 v n 0#32).1.toNat / n.toNat ^ j := fun j => by
    rw [(divmod32_zero v n two).1, Nat.div_div_eq_div_mul, pow_succ']
  rw [peel] at enough ⊢
  rw [encodePhase1]
  generalize divmod32 v n 0#32 = qr at enough ⊢
  by_cases fits : quotientFits64 qr.1 = true
  · have small := (quotientFits64_iff qr.1).1 fits
    simpa [fits] using (Nat.div_le_self _ _).trans_lt small
  · have large : ¬ qr.1.toNat < 2 ^ 64 := fun small => fits ((quotientFits64_iff qr.1).2 small)
    cases fuel with
    | zero => simp only [pow_zero, Nat.div_one] at enough; exact absurd enough large
    | succ fuel =>
      simp only [if_neg fits, List.length_cons, Nat.add_le_add_iff_right]
      cases k with
      | zero =>
        have := encodePhase1_length_pos n fuel qr.1
        simp only [pow_zero, Nat.div_one]
        omega
      | succ k => exact encodePhase1_length_le_succ_iff n two fuel qr.1 enough k

/-- R190: phase 1 runs at most k times, for k of at least 1, exactly when VAL / N^k is below 2^64. -/
theorem encodePhase1_length_le_iff (n : Word) (two : 2 ≤ n.toNat) (v : Value) (k : Nat) (one : 1 ≤ k) :
    (encodePhase1 n 128 v).1.length ≤ k ↔ v.toNat / n.toNat ^ k < 2 ^ 64 := by
  obtain ⟨j, rfl⟩ := Nat.exists_eq_add_of_le' one
  exact encodePhase1_length_le_succ_iff n two 127 v (div_pow_lt v two (by decide)) j

/-- R190: phase 1 runs k times where k divisions bring VAL below 2^64 and one less does not. -/
theorem encodePhase1_length_eq (n : Word) (two : 2 ≤ n.toNat) (v : Value) (k : Nat) (above : 2 ≤ k)
    (small : v.toNat / n.toNat ^ k < 2 ^ 64) (large : ¬ v.toNat / n.toNat ^ (k - 1) < 2 ^ 64) :
    (encodePhase1 n 128 v).1.length = k := by
  have le := (encodePhase1_length_le_iff n two v k (by omega)).2 small
  have not_le := mt (encodePhase1_length_le_iff n two v (k - 1) (by omega)).1 large
  omega

/-- A 64-bit word has at most 64 digits in a base of at least 2. -/
theorem encodePhase2_length_le_64 (n : Word) (two : 2 ≤ n.toNat) (q : Wide) :
    (encodePhase2 n 128 q).length ≤ 64 := by
  rw [← List.length_map BitVec.toNat, encodePhase2_digits n two 128 q (wide_lt_pow q two (by decide)),
    Nat.digits_length_le_iff two]
  exact wide_lt_pow q two le_rfl

/-! ## The two outcomes of ENCODE (R181, R182) -/

/-- R52's invariant keeps the alphabet registers in the bounds ENCODE asks for. -/
theorem alphabetInRange_of_inv {s : State} (inv : s.AlphabetInv) : s.alphabetInRange = true := by
  obtain ⟨low, high, -, -, pad⟩ := inv
  have padLow := defaultPadLength_le s.nbase.toNat
  have padFits : s.defpad.toNat ≤ 256 := by omega
  simp [State.alphabetInRange, Config.alphaMax, Config.strMax, low, high, padFits]

theorem effectivePad_eq_some {s : State} {usePad : Bool} (short : usePad = true → s.padlen.toNat ≤ 256) :
    effectivePad s usePad = some (s.pad usePad) := by
  cases usePad with
  | false => rfl
  | true => exact if_neg (Nat.not_lt.2 (short rfl))

theorem exec_encode_of_long (s : State) (long : 256 < s.padlen.toNat) :
    exec (.encode true) s = .next (s.failed .lengthRange) := by
  have pad : effectivePad s true = none := if_pos long
  simp only [exec, execEncode, pad]
  rfl

/-- The symbols ENCODE commits (R185, R186). -/
def State.encoded (s : State) (usePad : Bool) : List Word :=
  mapDigits s (padDigits (encodeDigits s.nbase s.val) (s.pad usePad))

theorem exec_encode_commits (s : State) (usePad : Bool) (inv : s.AlphabetInv)
    (short : usePad = true → s.padlen.toNat ≤ 256) :
    exec (.encode usePad) s =
      .next (commitString s (s.encoded usePad) (encodeDigits s.nbase s.val).length) := by
  simp only [exec, execEncode, effectivePad_eq_some short, if_pos (alphabetInRange_of_inv inv)]
  rfl

/-! ## The string ENCODE commits (R185 to R187) -/

/-- R181: the pad length ENCODE goes on with is at most STR_MAX. -/
theorem State.pad_le {s : State} {usePad : Bool} (inv : s.AlphabetInv)
    (short : usePad = true → s.padlen.toNat ≤ 256) : s.pad usePad ≤ 256 :=
  effectivePad_le (effectivePad_eq_some short) (alphabetInRange_of_inv inv)

theorem State.encoded_length (s : State) (usePad : Bool) (two : 2 ≤ s.nbase.toNat) :
    (s.encoded usePad).length = max (s.pad usePad) (valueDigits s.nbase s.val).length := by
  rw [State.encoded, mapDigits_padDigits_length, encodeDigits_length _ _ two]

theorem padDigits_getElem?_digit {digits : List Word} {i : Nat} {d : Word} (p : Nat)
    (entry : digits[i]? = some d) : (padDigits digits p)[i]? = some d := by
  rw [padDigits, List.getElem?_append_left (List.getElem?_eq_some_iff.1 entry).1, entry]

theorem padDigits_getElem?_zero {digits : List Word} {i p : Nat} (above : digits.length ≤ i) (below : i < p) :
    (padDigits digits p)[i]? = some 0#32 := by
  rw [padDigits, List.getElem?_append_right above, List.getElem?_replicate, if_pos (by omega)]

theorem mapDigits_length (s : State) (digits : List Word) : (mapDigits s digits).length = digits.length := by
  rw [mapDigits, List.length_map, List.length_reverse]

/-- R186: the symbol of digit i stands i entries before the string's last. -/
theorem mapDigits_getElem? (s : State) {digits : List Word} {i j : Nat} {d : Word}
    (mirror : i + j + 1 = (mapDigits s digits).length) (entry : digits[i]? = some d) (inside : d.toNat < 256) :
    (mapDigits s digits)[j]? = s.alpha[d.toNat]? := by
  rw [mapDigits_length] at mirror
  have back : digits.length - 1 - j = i := by omega
  rw [mapDigits, List.getElem?_map, List.getElem?_reverse (by omega), back, entry, symbolAt_eq s d inside]
  rfl

/-- The digits of VAL stand at the end of the string, most significant first. -/
theorem State.encoded_getElem?_digit (s : State) (usePad : Bool) (inv : s.AlphabetInv) {i j d : Nat}
    (mirror : i + j + 1 = (s.encoded usePad).length) (entry : (valueDigits s.nbase s.val)[i]? = some d) :
    (s.encoded usePad)[j]? = s.alpha[d]? := by
  have inside : d < 256 := (valueDigits_lt s.nbase s.val inv.1 (List.mem_of_getElem? entry)).trans_le inv.2.1
  rw [← encodeDigits_toNat s.nbase s.val inv.1, List.getElem?_map, Option.map_eq_some_iff] at entry
  obtain ⟨w, entry, rfl⟩ := entry
  exact mapDigits_getElem? s mirror (padDigits_getElem?_digit (s.pad usePad) entry) inside

/-- The entries before the digits hold the zero digit's symbol. -/
theorem State.encoded_getElem?_zero (s : State) (usePad : Bool) (two : 2 ≤ s.nbase.toNat) {i j : Nat}
    (mirror : i + j + 1 = (s.encoded usePad).length) (above : (valueDigits s.nbase s.val).length ≤ i) :
    (s.encoded usePad)[j]? = s.alpha[0]? := by
  have length := s.encoded_length usePad two
  rw [← encodeDigits_length _ _ two] at above length
  exact mapDigits_getElem? s mirror (padDigits_getElem?_zero above (by omega)) (by decide)

/-! ## What the commit writes (R187) -/

theorem commitString_strlen_toNat (s : State) (symbols : List Word) (n : Nat) (fit : symbols.length ≤ 256) :
    (commitString s symbols n).strlen.toNat = symbols.length :=
  Nat.mod_eq_of_lt (by omega)

theorem commitString_ndig_toNat (s : State) (symbols : List Word) (n : Nat) (fit : n ≤ 256) :
    (commitString s symbols n).ndig.toNat = n :=
  Nat.mod_eq_of_lt (by omega)

theorem commitString_strbuf_getElem? (s : State) (symbols : List Word) (n j : Nat) (fit : symbols.length ≤ 256)
    (below : j < symbols.length) : (commitString s symbols n).strbuf[j]? = symbols[j]? :=
  (Table.write_getElem? s.strbuf symbols j (by omega)).trans (if_pos below)

/-- R189: for N = 57 the digits pass the default pad length 11 exactly from 57^11 on, and are at most 22. -/
theorem max_defpad_of_57 (s : State) (inv : s.AlphabetInv) (base : s.nbase = 57#32) :
    let count := (valueDigits s.nbase s.val).length
    (s.val.toNat < 57 ^ 11 → max s.defpad.toNat count = 11) ∧
      (57 ^ 11 ≤ s.val.toNat → max s.defpad.toNat count = count ∧ max s.defpad.toNat count ≤ 22) := by
  obtain ⟨two, -, -, -, pad⟩ := inv
  rw [base] at pad two ⊢
  have pad : s.defpad.toNat = 11 := pad.trans (by decide)
  have short := valueDigits_length_le_iff 57#32 s.val two 11 (.inr (by decide))
  have fits : (valueDigits 57#32 s.val).length ≤ 22 :=
    (valueDigits_length_le_iff 57#32 s.val two 22 (.inr (by decide))).2 (s.val.isLt.trans_le (by decide))
  rw [pad]
  refine ⟨fun low => max_eq_left (short.2 low), fun high => ?_⟩
  have long : ¬ (valueDigits 57#32 s.val).length ≤ 11 := mt short.1 (Nat.not_lt.2 high)
  rw [max_eq_right (by omega)]
  exact ⟨rfl, fits⟩

end Sys2Proof.Machine

namespace Sys2Proof.Proofs

open Sys2Proof.Machine

/-- Settles O17: the phases compute the value's digits (`encodeDigits_toNat`), whose number is the least exponent
that passes the value (`valueDigits_length_le_iff`). -/
theorem encodeDigitsAreBaseN : Obligations.EncodeDigitsAreBaseN := by
  intro n v two ds
  have digits : ds = valueDigits n v := encodeDigits_toNat n v two
  rw [digits]
  refine ⟨rfl, ofDigits_valueDigits n v, fun nonzero => ⟨valueDigits_getLast?_ne_zero n nonzero, fun m =>
    (valueDigits_length_le_iff n v two m (.inl nonzero)).symm⟩, ?_, valueDigits_length_le n v two, ?_⟩
  · rintro rfl; rfl
  · rintro rfl high
    have le := valueDigits_length_le 2#32 v two
    have not_le := mt (valueDigits_length_le_iff 2#32 v two 127 (.inr (by decide))).1 (Nat.not_lt.2 high)
    omega

/-- Settles O18: phase 1 runs the least number of times that leaves less than 2^64 (`encodePhase1_length_le_iff`),
phase 2 once for each digit of a 64-bit word (`encodePhase2_length_le_64`). -/
theorem encodePhaseCounts : Obligations.EncodePhaseCounts := by
  refine ⟨fun n v two => ?_, fun row mem => ?_⟩
  · have least := encodePhase1_length_le_iff n two v
    have once := encodePhase1_length_pos n 127 v
    refine ⟨once, (least _ once).1 le_rfl, fun k one => (least k one).2, List.length_append.symm,
      encodePhase2_length_le_64 n two _, fun small => le_antisymm ((least 1 le_rfl).2 ?_) once⟩
    rw [pow_one, Nat.div_lt_iff_lt_mul (by omega)]
    exact small
  · have edges : 2 ≤ (BitVec.ofNat 32 row.1).toNat ∧ 2 ≤ row.2 ∧
        (BitVec.allOnes 128).toNat / (BitVec.ofNat 32 row.1).toNat ^ row.2 < 2 ^ 64 ∧
        ¬ (BitVec.allOnes 128).toNat / (BitVec.ofNat 32 row.1).toNat ^ (row.2 - 1) < 2 ^ 64 := by
      revert row
      decide
    obtain ⟨two, above, small, large⟩ := edges
    exact encodePhase1_length_eq _ two _ _ above small large

/-- Settles O19: the commit (`exec_encode_commits`) writes the zero digits (`State.encoded_getElem?_zero`) and then
VAL's digits (`State.encoded_getElem?_digit`), and keeps the entries past them (`execEncode_keeps_tail`). -/
theorem encodeCommitsPaddedDigits : Obligations.EncodeCommitsPaddedDigits := by
  intro s usePad inv short ds len
  have two := inv.1
  have count : (encodeDigits s.nbase s.val).length = ds.length := encodeDigits_length _ _ two
  have length : (s.encoded usePad).length = len := s.encoded_length usePad two
  have atLeast : 1 ≤ ds.length := valueDigits_length_pos _ _
  have atMost : ds.length ≤ 128 := valueDigits_length_le _ _ two
  have below : ds.length ≤ len := le_max_right _ _
  have fits : len ≤ 256 := max_le (State.pad_le inv short) (by omega)
  have commits := exec_encode_commits s usePad inv short
  have strlen := commitString_strlen_toNat s _ (encodeDigits s.nbase s.val).length (length.trans_le fits)
  have entry := fun j => commitString_strbuf_getElem? s _ (encodeDigits s.nbase s.val).length j
    (length.trans_le fits)
  rw [length] at strlen entry
  refine ⟨_, commits, strlen, (commitString_ndig_toNat s _ _ (by omega)).trans count, atLeast.trans below, fits,
    fun j lead => ?_, fun i d digit => ?_,
    fun j past => execEncode_keeps_tail s _ usePad commits j (strlen.trans_le past), fun base unpadded => ?_, rfl⟩
  · have above : ds.length ≤ len - 1 - j := by omega
    rw [entry j (by omega)]
    exact s.encoded_getElem?_zero usePad two (by omega) above
  · have inside := (List.getElem?_eq_some_iff.1 digit).1
    rw [entry _ (by omega)]
    exact s.encoded_getElem?_digit usePad inv (by omega) digit
  · subst unpadded
    exact max_defpad_of_57 s inv base

/-- Settles O20: a long PADLEN is the one way to the error (`exec_encode_of_long`); a commit keeps the report
(`exec_encode_commits`). -/
theorem encodeFailsOnlyOnPadLength : Obligations.EncodeFailsOnlyOnPadLength := by
  intro s usePad
  refine ⟨?_, fun inv short => ⟨_, exec_encode_commits s usePad inv short, rfl, rfl⟩⟩
  rintro rfl long
  exact exec_encode_of_long s long

end Sys2Proof.Proofs

/-! Proofs of the statements of 43_decoder.md: the two ends of DECODE and its error on a long string (R211, R215,
R216), the way back from ENCODE's string to VAL (R217), and leading zero digits (R218). -/

namespace Sys2Proof.Machine

/-! ## The value of a string (R213, R215) -/

/-- The digits of a list of symbols, least significant first; an absent symbol counts as digit 0 (R213). -/
def State.digitsOf (s : State) (symbols : List Word) : List Nat :=
  (symbols.map fun c => (indexOf s c).getD 0).reverse

/-- The positional value of the string, modulo 2^128 (R215). -/
def State.stringValue (s : State) : Value :=
  BitVec.ofNat 128 (Nat.ofDigits s.nbase.toNat (s.digitsOf s.string))

theorem State.digitsOf_append (s : State) (l m : List Word) :
    s.digitsOf (l ++ m) = s.digitsOf m ++ s.digitsOf l := by
  rw [State.digitsOf, List.map_append, List.reverse_append]; rfl

/-- A lookup reads the alphabet registers alone (R136). -/
theorem indexOf_congr {s u : State} (alpha : u.alpha = s.alpha) (nbase : u.nbase = s.nbase) :
    indexOf u = indexOf s := by
  funext c
  rw [indexOf, State.symbols, alpha, nbase]; rfl

theorem State.digitsOf_congr {s u : State} (alpha : u.alpha = s.alpha) (nbase : u.nbase = s.nbase)
    (symbols : List Word) : u.digitsOf symbols = s.digitsOf symbols := by
  rw [State.digitsOf, indexOf_congr alpha nbase]; rfl

/-- The lookup inverts ALPHA[d] for every digit d (R136). -/
theorem indexOf_symbolAt {s : State} (inv : s.AlphabetInv) {d : Word} (digit : d.toNat < s.nbase.toNat) :
    indexOf s (s.symbolAt d) = some d.toNat := by
  obtain ⟨-, fit, rising, -, -⟩ := inv
  exact (indexOf_eq_some_iff s rising _ _).2
    ((s.symbols_getElem?_eq_some _ _).2 ⟨digit, symbolAt_eq s d (by omega)⟩)

theorem State.digitsOf_replicate_zero {s : State} (inv : s.AlphabetInv) (z : Nat) :
    s.digitsOf (List.replicate z (s.symbolAt 0#32)) = List.replicate z 0 := by
  have zero := indexOf_symbolAt inv (d := 0#32) (Nat.lt_of_lt_of_le (by decide) inv.1)
  rw [State.digitsOf, List.map_replicate, List.reverse_replicate, zero]; rfl

/-! ## The ends of DECODE (R211, R215, R216) -/

theorem exec_decode_of_long (s : State) (strict : Bool) (long : 256 < s.strlen.toNat) :
    exec (.decode strict) s = .next (s.failed .lengthRange) :=
  if_pos long

/-- Where no symbol raises an error DECODE commits the string's value. -/
theorem exec_decode_commits (s : State) (strict : Bool) (short : s.strlen.toNat ≤ 256)
    (present : strict = true → ∀ c ∈ s.string, indexOf s c ≠ none) :
    exec (.decode strict) s = .next { s with res := s.stringValue }.finished := by
  obtain ⟨v, loop, value⟩ := decodeLoop_ok s strict s.string 0 0#128 present
  have same : v = s.stringValue := by
    rw [BitVec.toNat_zero, Nat.zero_mul, Nat.zero_add] at value
    exact BitVec.eq_of_toNat_eq (value.trans (BitVec.toNat_ofNat _ _).symm)
  refine (if_neg (Nat.not_lt.2 short)).trans ?_
  rw [loop, same]; rfl

/-- Strict DECODE of a string whose first absent symbol is entry j. -/
theorem exec_decode_of_absent (s : State) (short : s.strlen.toNat ≤ 256) {j : Nat} {c : Word}
    (at_j : s.string[j]? = some c) (absent : indexOf s c = none)
    (before : ∀ i a, i < j → s.string[i]? = some a → indexOf s a ≠ none) :
    exec (.decode true) s =
      .next ({ s with errIdx := BitVec.ofNat 32 j }.failed .invalidCharacter) := by
  refine (if_neg (Nat.not_lt.2 short)).trans ?_
  rw [decodeLoop_error s s.string 0 j 0#128 c at_j absent before, Nat.zero_add]; rfl

/-! ## The string ENCODE commits, read back (R217) -/

/-- Mapping digits to symbols and looking the symbols up gives the digits back. -/
theorem State.digitsOf_mapDigits {s : State} (inv : s.AlphabetInv) {digits : List Word}
    (below : ∀ d ∈ digits, d.toNat < s.nbase.toNat) :
    s.digitsOf (mapDigits s digits) = digits.map BitVec.toNat := by
  rw [State.digitsOf, mapDigits, List.map_map, List.map_reverse, List.reverse_reverse]
  refine List.map_congr_left fun d mem => ?_
  rw [Function.comp_apply, indexOf_symbolAt inv (below d mem), Option.getD_some]

theorem encodeDigits_lt (n : Word) (v : Value) (two : 2 ≤ n.toNat) {d : Word} (mem : d ∈ encodeDigits n v) :
    d.toNat < n.toNat :=
  valueDigits_lt n v two (encodeDigits_toNat n v two ▸ List.mem_map_of_mem mem)

/-- Padding adds the digit 0 alone, which every base has. -/
theorem padDigits_lt {digits : List Word} {n : Nat} (positive : 0 < n) (below : ∀ d ∈ digits, d.toNat < n)
    (p : Nat) : ∀ d ∈ padDigits digits p, d.toNat < n := by
  intro d mem
  rcases List.mem_append.1 mem with digit | zero
  · exact below d digit
  · rw [List.eq_of_mem_replicate zero]; exact positive

/-- Zero digits at the most significant end do not change a value. -/
theorem ofDigits_padDigits (n : Nat) (digits : List Word) (p : Nat) :
    Nat.ofDigits n ((padDigits digits p).map BitVec.toNat) = Nat.ofDigits n (digits.map BitVec.toNat) := by
  rw [padDigits, List.map_append, List.map_replicate]
  exact Nat.ofDigits_append_replicate_zero _

theorem State.paddedDigits_lt {s : State} (inv : s.AlphabetInv) (p : Nat) :
    ∀ d ∈ padDigits (encodeDigits s.nbase s.val) p, d.toNat < s.nbase.toNat :=
  padDigits_lt (Nat.lt_of_lt_of_le (by decide) inv.1) (fun _ => encodeDigits_lt s.nbase s.val inv.1) p

theorem State.indexOf_encoded_ne_none {s : State} (inv : s.AlphabetInv) (usePad : Bool) {c : Word}
    (mem : c ∈ s.encoded usePad) : indexOf s c ≠ none := by
  obtain ⟨d, digit, rfl⟩ := List.mem_map.1 mem
  rw [indexOf_symbolAt inv (State.paddedDigits_lt inv _ d (List.mem_reverse.1 digit))]
  exact Option.some_ne_none _

theorem State.ofDigits_digitsOf_encoded {s : State} (inv : s.AlphabetInv) (usePad : Bool) :
    Nat.ofDigits s.nbase.toNat (s.digitsOf (s.encoded usePad)) = s.val.toNat := by
  rw [State.encoded, State.digitsOf_mapDigits inv (State.paddedDigits_lt inv _), ofDigits_padDigits,
    encodeDigits_toNat _ _ inv.1, ofDigits_valueDigits]

theorem State.encoded_length_le {s : State} {usePad : Bool} (inv : s.AlphabetInv)
    (short : usePad = true → s.padlen.toNat ≤ 256) : (s.encoded usePad).length ≤ 256 := by
  rw [s.encoded_length usePad inv.1]
  exact max_le (State.pad_le inv short) ((valueDigits_length_le _ _ inv.1).trans (by decide))

theorem commitString_string (s : State) (symbols : List Word) (n : Nat) (fit : symbols.length ≤ 256) :
    (commitString s symbols n).string = symbols := by
  rw [State.string, commitString_strlen_toNat s symbols n fit]
  exact (congrArg _ (Table.write_toList s.strbuf symbols fit)).trans List.take_left

/-- DECODE, in either mode and in any state that holds ENCODE's string and its alphabet, commits VAL. -/
theorem exec_decode_of_encoded {s u : State} (inv : s.AlphabetInv) (usePad strict : Bool)
    (string : u.string = s.encoded usePad) (short : u.strlen.toNat ≤ 256)
    (alpha : u.alpha = s.alpha) (nbase : u.nbase = s.nbase) :
    exec (.decode strict) u = .next { u with res := s.val }.finished := by
  have present : ∀ c ∈ u.string, indexOf u c ≠ none := by
    rw [string, indexOf_congr alpha nbase]
    exact fun c => State.indexOf_encoded_ne_none inv usePad
  have value : u.stringValue = s.val := by
    rw [State.stringValue, string, State.digitsOf_congr alpha nbase, nbase,
      State.ofDigits_digitsOf_encoded inv, BitVec.ofNat_toNat, BitVec.setWidth_eq]
  rw [exec_decode_commits u strict short fun _ => present, value]

end Sys2Proof.Machine

namespace Sys2Proof.Proofs

open Sys2Proof.Machine

/-- Settles O21: DECODE commits the string's value (`exec_decode_commits`), which is the positional sum modulo
2^128. -/
theorem decodeComputesPositionalValue : Obligations.DecodeComputesPositionalValue := by
  intro s strict short present
  have found : strict = true → ∀ c ∈ s.string, indexOf s c ≠ none := fun on c mem lost =>
    (indexOf_eq_none s c).1 lost (present on c mem)
  exact ⟨_, exec_decode_commits s strict short found, BitVec.toNat_ofNat _ _, rfl⟩

/-- Settles O22: the ends of strict DECODE (`exec_decode_of_long`, `exec_decode_of_absent`); with every symbol
present both modes commit the string's value (`exec_decode_commits`). -/
theorem strictDecodeReportsFirstAbsentSymbol : Obligations.StrictDecodeReportsFirstAbsentSymbol := by
  intro s
  refine ⟨exec_decode_of_long s true, fun short present => ?_, fun short j c =>
    exec_decode_of_absent s short⟩
  rw [exec_decode_commits s true short fun _ => present, exec_decode_commits s false short nofun]

/-- Settles O23: the length is checked before the loop (`exec_decode_of_long`). -/
theorem decodeChecksLengthFirst : Obligations.DecodeChecksLengthFirst :=
  exec_decode_of_long

/-- Settles O24: ENCODE leaves the string it commits (`exec_encode_commits`, `commitString_string`), whose digits
under the same alphabet are VAL's behind zeros (`exec_decode_of_encoded`). -/
theorem encodeDecodeRoundTrip : Obligations.EncodeDecodeRoundTrip := by
  intro s usePad strict inv short
  refine ⟨_, exec_encode_commits s usePad inv short, fun u strbuf strlen alpha nbase => ?_⟩
  have fit := State.encoded_length_le inv short
  refine exec_decode_of_encoded inv usePad strict ?_ ?_ alpha nbase
  · rw [State.string, strbuf, strlen]
    exact commitString_string s _ _ fit
  · rw [strlen, commitString_strlen_toNat s _ _ fit]
    exact fit

/-- Settles O25: zero digits at the most significant end keep the value (`State.digitsOf_replicate_zero`), and
with either pad length the way back gives VAL (`encodeDecodeRoundTrip`). -/
theorem leadingZeroDigitsAreNeutral : Obligations.LeadingZeroDigitsAreNeutral := by
  refine ⟨fun s s' z inv alpha nbase short short' string => ?_, fun s p1 p2 inv less fit => ?_⟩
  · have value : s'.stringValue = s.stringValue := by
      rw [State.stringValue, string, State.digitsOf_congr alpha nbase, State.digitsOf_append,
        State.digitsOf_replicate_zero inv, nbase, Nat.ofDigits_append_replicate_zero]
      rfl
    exact ⟨_, _, exec_decode_commits s false short nofun, exec_decode_commits s' false short' nofun, value⟩
  · have fit1 : p1.toNat ≤ 256 := (BitVec.le_of_lt less).trans fit
    obtain ⟨t1, encode1, back1⟩ := encodeDecodeRoundTrip { s with padlen := p1 } true false inv fun _ => fit1
    obtain ⟨t2, encode2, back2⟩ := encodeDecodeRoundTrip { s with padlen := p2 } true false inv fun _ => fit
    exact ⟨t1, t2, _, _, encode1, encode2, back1 t1 rfl rfl rfl rfl, back2 t2 rfl rfl rfl rfl, rfl⟩

end Sys2Proof.Proofs

/-! Proof of the statement of 44_register_move.md: the commit of MOVRV (R231), read limb by limb. -/

namespace Sys2Proof.Machine

/-- VALk is limb k of VAL. -/
theorem State.peek_val (s : State) (k : Fin 4) : s.peek (.val k) = limb s.val k := rfl

/-- RESk is limb k of RES. -/
theorem State.peek_res (s : State) (k : Fin 4) : s.peek (.res k) = limb s.res k := rfl

/-- MOVRV has one end: RES written to VAL and the completion's fields (R231, R249). -/
theorem exec_movrv_commits (s : State) :
    exec .movrv s = .next { s with val := s.res }.finished := rfl

end Sys2Proof.Machine

namespace Sys2Proof.Proofs

open Sys2Proof.Machine

/-- Settles O16: the commit (`exec_movrv_commits`) makes VAL the value of RES, and a register of either is the limb
of its value (`State.peek_val`, `State.peek_res`). -/
theorem movrvCopiesResToVal : Obligations.MovrvCopiesResToVal := by
  intro s
  refine ⟨_, exec_movrv_commits s, fun k => ?_, rfl⟩
  rw [State.peek_val, State.peek_res, State.finished]

end Sys2Proof.Proofs

/-! Proofs of the statements of 60_exceptions.md: the accept (R245), host writes and reads while BUSY (R246 to R248),
and what lowers the interrupt (R253). -/

namespace Sys2Proof.Machine

/-! ## The step at a host write (R245 to R247) -/

/-- The step at a host write is the write's effect, answered (R74). -/
theorem State.writeDue.step_of_effect {s t : State} {l : Loc} {v : Word} (due : s.writeDue l.offset v)
    (effect : hostWriteEffect { s with events := s.events.tail } l v = t) :
    step s = .next { t with resp := some .written } := by
  rw [due.step_eq, hostWrite, effect]

/-- A CTRL write without the SRST bit stores IRQ_EN, BUSY or not (R37, R247). -/
theorem hostWriteEffect_ctrl (s : State) (v : Word) (keep : v.getLsbD 1 = false) :
    hostWriteEffect s .ctrl v = { s with irqEn := v.getLsbD 0 } := by
  simp only [hostWriteEffect, if_true, writeCtrl, keep, Bool.false_eq_true, if_false]

/-- A STATUS write clears the flags it names, BUSY or not (R31, R247). -/
theorem hostWriteEffect_status (s : State) (v : Word) : hostWriteEffect s .status v = s.clearStatus v := rfl

/-- Any other write while BUSY sets OVR alone (R246). -/
theorem hostWriteEffect_dropped (s : State) (l : Loc) (v : Word) (busy : s.busy = true) (notCtrl : l ≠ .ctrl)
    (notStatus : l ≠ .status) : hostWriteEffect s l v = { s with ovr := true } := by
  simp only [hostWriteEffect, if_neg notCtrl, if_neg notStatus, if_pos busy]

/-- A CMD write to an idle block is the accept step (R245). -/
theorem hostWriteEffect_cmd (s : State) (w : Word) (idle : s.busy = false) :
    hostWriteEffect s .cmd w = accept s w := by
  simp [hostWriteEffect, idle]

/-- The engine starts in the first state of the word's command (R245). -/
theorem engineStart_fsm (w : Word) (e : Engine) : (engineStart w e).fsm = firstFsm w := by
  unfold engineStart firstFsm
  cases Sys2Proof.decode w with
  | error _ => rfl
  | ok i => cases i <;> rfl

/-! ## The step at a host read (R78, R248) -/

/-- A word read that is due is answered with the location's value (R12, R78). -/
theorem State.accessDue.step_read {s : State} {l : Loc} (due : s.accessDue (.read l.offset 4)) :
    step s = .next (hostRead { s with events := s.events.tail } l.offset l) := by
  simp [due.step_eq, hostAccess, Loc.ofOffset_offset]

/-- ID, PARAM, CTRL and CMD read their stored value whatever BUSY is (R248). -/
theorem hostReadValue_of_readableBusy (s : State) (off : Offset) (l : Loc) (readable : l.readableBusy = true) :
    hostReadValue s off l = s.peek l := by
  simp [hostReadValue, readable]

/-- STATUS read while BUSY (R248). -/
theorem hostReadValue_status_of_busy (s : State) (off : Offset) (busy : s.busy = true) :
    hostReadValue s off .status = s.busyStatusWord := by
  simp [hostReadValue, busy, Loc.readableBusy]

/-- The fields STATUS shows while BUSY: BUSY 1, OVR its value, FITS64 free and every other bit 0 (R31, R248). -/
theorem packStatus_running_fields (fits64 ovr : Bool) :
    let v := packStatus true false false fits64 ovr ErrCode.noError.code
    v.getLsbD 0 = true ∧ v.getLsbD 1 = false ∧ v.getLsbD 2 = false ∧ v.getLsbD 4 = ovr ∧
      v.extractLsb' 5 3 = 0#3 ∧ v.extractLsb' 8 8 = 0#8 ∧ v.extractLsb' 16 16 = 0#16 := by
  revert fits64 ovr
  decide

/-! ## The interrupt line (R252, R253) -/

/-- No completion writes IRQ_EN (R47). -/
theorem Completes.irqEn {s t : State} (h : Completes s t) : t.irqEn = s.irqEn := by
  cases h <;> rfl

/-- The line is low while DONE is clear (R252). -/
theorem State.irq_of_not_done {s : State} (clear : s.done = false) : s.irq = false := by
  simp [State.irq, clear]

/-- The line is IRQ_EN while DONE is set (R252). -/
theorem State.irq_of_done {s : State} (set : s.done = true) : s.irq = s.irqEn := by
  simp [State.irq, set]

/-- The line is low while IRQ_EN is clear (R252). -/
theorem State.irq_of_not_irqEn {s : State} (disabled : s.irqEn = false) : s.irq = false := by
  simp [State.irq, disabled]

end Sys2Proof.Machine

namespace Sys2Proof.Proofs

open Sys2Proof.Machine

/-- Settles O33: the step performs the write (`State.writeDue.step_of_effect`), whose effect is a drop, a clearing of
STATUS or a store of IRQ_EN (`hostWriteEffect_dropped`, `hostWriteEffect_status`, `hostWriteEffect_ctrl`). -/
theorem writesWhileBusyAreDropped : Obligations.WritesWhileBusyAreDropped := by
  intro s l v due
  refine ⟨fun busy notCtrl notStatus => ?_, ?_, ?_⟩
  · exact due.step_of_effect (hostWriteEffect_dropped _ l v busy notCtrl notStatus)
  · rintro rfl
    exact due.step_of_effect (hostWriteEffect_status _ v)
  · rintro rfl keep
    exact due.step_of_effect (hostWriteEffect_ctrl _ v keep)

/-- Settles O34: the read is answered with `hostReadValue` (`State.accessDue.step_read`), which is the stored value
for ID, PARAM, CTRL and CMD and `State.busyStatusWord` for STATUS, whose fields are `packStatus`'s. -/
theorem readsWhileBusy : Obligations.ReadsWhileBusy := by
  intro s l busy due
  have stored := hostReadValue_of_readableBusy { s with events := s.events.tail } l.offset l
  refine ⟨_, _, due.step_read, rfl, ?_, ?_, ?_, ?_, ?_⟩
  · rintro rfl; exact stored rfl
  · rintro rfl; exact stored rfl
  · rintro rfl; exact stored rfl
  · rintro rfl; exact stored rfl
  · rintro rfl
    rw [hostReadValue_status_of_busy { s with events := s.events.tail } _ busy, State.busyStatusWord]
    exact packStatus_running_fields _ s.ovr

/-- Settles O42: the three ways are those that clear DONE (`doneIsSetByEveryCompletion`); a completion sets DONE and
keeps IRQ_EN (`Completes.irqEn`), and a CTRL write of IRQ_EN = 0 keeps DONE (`hostWriteEffect_ctrl`). -/
theorem interruptIsClearedThreeWays : Obligations.InterruptIsClearedThreeWays := by
  intro s t h
  obtain ⟨sets, clears, -, -⟩ := doneIsSetByEveryCompletion s t h
  refine ⟨fun due => State.irq_of_not_done (clears due), fun due => ?_, fun v disable keep due => ?_⟩
  · rw [State.irq_of_done (sets due), (due.completes h).irqEn]
  · have written := State.writeDue.step_of_effect (l := .ctrl) due (hostWriteEffect_ctrl _ v keep)
    cases h.symm.trans written
    exact ⟨State.irq_of_not_irqEn disable, rfl⟩

/-- Settles O32: the write's effect is the accept step (`hostWriteEffect_cmd`), with the engine in the first state of
the word's command (`engineStart_fsm`) and DONE clear. -/
theorem acceptStartsTheCommand : Obligations.AcceptStartsTheCommand := by
  rintro s w ⟨idle, write⟩
  have accepted := State.writeDue.step_of_effect (l := .cmd) write (hostWriteEffect_cmd _ w idle)
  exact ⟨_, accepted, engineStart_fsm w s.eng, State.irq_of_not_done rfl, rfl⟩

end Sys2Proof.Proofs

/-! Proofs of the statements of 70_reset_and_hazards.md: what the two reset sources leave (R280, R281, R283). -/

namespace Sys2Proof.Machine

/-! ## The reset by CTRL.SRST and by the pin (R281, R283) -/

/-- A CTRL write with the SRST bit resets the block, and no other bit of it is stored (R283). -/
theorem hostWriteEffect_softReset (s : State) (v : Word) (srst : v.getLsbD 1 = true) :
    hostWriteEffect s .ctrl v = blockReset s := by
  simp only [hostWriteEffect, if_true, writeCtrl, srst]

/-- With the pin low, a reset leaves the reset state and the environment's side (R281, log 7). -/
theorem blockReset_of_rst_low (s : State) (low : s.rst = false) :
    blockReset s = { State.reset with events := s.events, resp := s.resp, draws := s.draws } := by
  rw [blockReset, low]
  rfl

/-- The rising pin resets the block, whatever runs (R280, R281). -/
theorem step_rst_high (s : State) (rest : List Event) (ev : s.events = .rst true :: rest) :
    step s = .next (blockReset { s with rst := true, events := rest }) := by
  simp only [step, ev, handleEvent, setRst, if_true]

/-- SRST reads 0 (R37). -/
theorem State.ctrlWord_srst (s : State) : s.ctrlWord.getLsbD 1 = false := by
  rw [State.ctrlWord]
  cases s.irqEn <;> rfl

end Sys2Proof.Machine

namespace Sys2Proof.Proofs

open Sys2Proof.Machine

/-- Settles O49: the effect of the SRST write is the reset (`hostWriteEffect_softReset`), performed with the pin low
(`blockReset_of_rst_low`), as is that of the rising pin (`step_rst_high`); neither asks for BUSY. Without the SRST bit
the write stores IRQ_EN (`hostWriteEffect_ctrl`). -/
theorem resetRestoresEveryState : Obligations.ResetRestoresEveryState := by
  refine ⟨fun s v srst due => ?_, fun s rest ev => step_rst_high s rest ev, rfl, State.irq_of_not_done rfl, rfl,
    State.ctrlWord_srst, fun s v keep due => ?_⟩
  · have ⟨low, _⟩ := due
    have effect := (hostWriteEffect_softReset _ v srst).trans
      (blockReset_of_rst_low { s with events := s.events.tail } low)
    exact State.writeDue.step_of_effect (l := .ctrl) due effect
  · have written := State.writeDue.step_of_effect (l := .ctrl) due (hostWriteEffect_ctrl _ v keep)
    exact ⟨_, written, rfl⟩

end Sys2Proof.Proofs

/-! Proofs of the statements of 30_encoding.md that speak of the encoder as the decoder's inverse (R101 to R105). -/

namespace Sys2Proof

/-- The word of a command decodes to it (R105). -/
@[simp] theorem decode_encode (i : Instr) : decode (encode i) = .ok i := by
  cases i with
  | encode usePad => cases usePad <;> rfl
  | decode strict => cases strict <;> rfl
  | _ => rfl

/-- Only the command's own word decodes to it (R105). -/
theorem decode_eq_ok_iff_eq_encode (w : Word) (i : Instr) : decode w = .ok i ↔ w = encode i := by
  constructor
  · exact fun h => (encode_of_decode w i h).symm
  · rintro rfl
    exact decode_encode i

end Sys2Proof

namespace Sys2Proof.Proofs

open Sys2Proof.Machine

/-- Settles O2: the encoder's word decodes to its command (`decode_encode`), and a word is the encoder's of what it
decodes to (`encode_of_decode`). -/
theorem decodeAcceptsExactlyEncodedWords : Obligations.DecodeAcceptsExactlyEncodedWords :=
  decode_eq_ok_iff_eq_encode

/-- Settles O1: each of the table's words is the encoder's word of its command (`decode_encode`). -/
theorem legalWordsNameTheirCommands : Obligations.LegalWordsNameTheirCommands :=
  ⟨decode_encode .muladd, decode_encode .divmod, decode_encode .div64, decode_encode (.encode false),
    decode_encode (.encode true), decode_encode (.decode false), decode_encode (.decode true),
    decode_encode .abuild, decode_encode .movrv⟩

end Sys2Proof.Proofs

/-! Proofs of the statements about every step and the machine's invariant (10_state.md R52, with R32, R35, R46 and
R281): the reset state meets it, every step keeps it, and no step faults under it. -/

namespace Sys2Proof.Machine

/-! ## The canonical alphabet (R41, R52) -/

/-- A canonical list of 2 to 256 symbols, committed, meets R52's invariant. -/
theorem commitAlphabet_alphabetInv (s : State) (symbols : List Word) (two : 2 ≤ symbols.length)
    (fit : symbols.length ≤ 256) (rising : symbols.Pairwise (· < ·)) :
    (commitAlphabet s symbols).AlphabetInv := by
  rw [State.AlphabetInv, commitAlphabet_nbase_toNat s symbols fit, commitAlphabet_symbols s symbols fit]
  refine ⟨two, fit, rising, fun i past => ?_, commitAlphabet_defpad_toNat s symbols⟩
  have entry := commitAlphabet_alpha_past s symbols i past i.isLt
  rw [Vector.getElem?_eq_getElem i.isLt] at entry
  exact Option.some.inj entry

/-- Every completion keeps R52's invariant: ABUILD's commit gives it anew, the others write none of its registers. -/
theorem Completes.alphabetInv {s t : State} (h : Completes s t) (inv : s.AlphabetInv) : t.AlphabetInv := by
  cases h with
  | alphabet symbols two fit rising => exact commitAlphabet_alphabetInv s symbols two fit rising
  | _ => exact State.AlphabetInv_congr _ _ inv rfl rfl rfl

/-- The default alphabet is canonical: it is the one a commit of its 57 symbols leaves (R51, R140). -/
theorem reset_alphabetInv : State.reset.AlphabetInv := by
  have committed := commitAlphabet_alphabetInv .reset Config.defaultAlphabet (by decide) (by decide) (by decide)
  have pad : State.reset.defpad = (commitAlphabet .reset Config.defaultAlphabet).defpad := by decide
  exact State.AlphabetInv_congr _ _ committed rfl rfl pad

/-! ## The error report (R34, R35, R46) -/

/-- A completion of a running command leaves a report that fits its error (R249, R250). -/
theorem Completes.reportInv {s t : State} (h : Completes s t) (busy : s.busy = true) (inv : s.ReportInv) :
    t.ReportInv := by
  obtain ⟨running, coded, indexed, inside⟩ := inv
  obtain ⟨-, -, clear⟩ := running busy
  cases h with
  | error e raised other =>
    exact ⟨nofun, iff_of_true rfl raised, fun set => absurd clear set, inside⟩
  | badChar j below =>
    have word : (BitVec.ofNat 32 j).toNat = j := Nat.mod_eq_of_lt (by omega)
    exact ⟨nofun, iff_of_true rfl nofun, fun _ => rfl, word.trans_lt below⟩
  | _ => exact ⟨nofun, coded, indexed, inside⟩

/-! ## The whole invariant, by the kind of step -/

/-- With the pin low, the invariant has three parts. -/
theorem State.Inv.of_low {t : State} (low : t.rst = false) (alphabet : t.AlphabetInv) (report : t.ReportInv)
    (engine : t.EngineInv) : t.Inv :=
  ⟨alphabet, report, engine, fun high => by simp [low] at high⟩

/-- A reset by either source gives the invariant, from any state (R281). -/
theorem blockReset_inv (s : State) : (blockReset s).Inv :=
  have report : State.reset.ReportInv := by decide
  have engine : State.reset.EngineInv := by decide
  ⟨State.AlphabetInv_congr _ _ reset_alphabetInv rfl rfl rfl, report, engine, fun _ => rfl⟩

/-- The invariant reads no pending event. -/
theorem State.Inv.events {s : State} (inv : s.Inv) (rest : List Event) : State.Inv { s with events := rest } := by
  obtain ⟨alphabet, report, engine, reset⟩ := inv
  exact ⟨alphabet, report, engine, fun high => congrArg (fun u : State => { u with events := rest }) (reset high)⟩

theorem Completes.inv {s t : State} (h : Completes s t) (busy : s.busy = true) (low : s.rst = false)
    (inv : s.Inv) : t.Inv := by
  obtain ⟨alphabet, report, -, -⟩ := inv
  have pin : t.rst = false := by cases h <;> exact low
  exact .of_low pin (h.alphabetInv alphabet) (h.reportInv busy report) (by simp [State.EngineInv, h.busy, h.fsm])

/-- A working step moves the hidden state alone, and not to IDLE (R50). -/
theorem engineWork_inv (s : State) (low : s.rst = false) (inv : s.Inv) : (engineWork s).Inv := by
  obtain ⟨alphabet, report, engine, -⟩ := inv
  refine .of_low low (State.AlphabetInv_congr _ _ alphabet rfl rfl rfl) report ?_
  rw [State.EngineInv, engineWork_busy, engineWork_eng, Ne, engineStep_idle_iff]
  exact engine

/-- An accept clears the report and starts the engine (R245). -/
theorem accept_inv (s : State) (w : Word) (low : s.rst = false) (inv : s.Inv) : (accept s w).Inv :=
  have report : (accept s w).ReportInv := ⟨fun _ => ⟨rfl, rfl, rfl⟩, by simp, by simp, by simp⟩
  have engine : (accept s w).EngineInv := by simp [State.EngineInv, engineStart_ne_idle]
  .of_low low (State.AlphabetInv_congr _ _ inv.1 rfl rfl rfl) report engine

/-- The invariant reads neither the bus's answer nor the draw count. -/
theorem State.Inv.resp {s : State} (inv : s.Inv) (answer : Option BusResponse) (draws : Nat) :
    State.Inv { s with resp := answer, draws := draws } := by
  obtain ⟨alphabet, report, engine, reset⟩ := inv
  exact ⟨alphabet, report, engine,
    fun high => congrArg (fun u : State => { u with resp := answer, draws := draws }) (reset high)⟩

/-- A STATUS write can only clear DONE, which breaks no part of the invariant (R31). -/
theorem clearStatus_inv (s : State) (v : Word) (low : s.rst = false) (inv : s.Inv) : (s.clearStatus v).Inv := by
  obtain ⟨alphabet, ⟨running, coded, indexed, inside⟩, engine, -⟩ := inv
  have report : (s.clearStatus v).ReportInv := by
    refine ⟨fun busy => ?_, coded, indexed, inside⟩
    obtain ⟨done, err, index⟩ := running busy
    exact ⟨by simp [done], err, index⟩
  exact .of_low low (State.AlphabetInv_congr _ _ alphabet rfl rfl rfl) report engine

/-- A host access keeps the invariant (R31, R74, R245 to R247, R283). -/
theorem hostAccess_inv (s : State) (a : Access) (low : s.rst = false) (inv : s.Inv) : (hostAccess s a).Inv := by
  have ⟨alphabet, report, engine, _⟩ := inv
  cases hostAccess_kind s a with
  | bad off _ eq => rw [eq]; exact inv.resp _ _
  | read l _ eq => rw [eq]; exact inv.resp _ _
  | softReset v _ _ eq => rw [eq]; exact (blockReset_inv s).resp _ _
  | ctrl v _ _ eq => rw [eq]; exact .of_low low alphabet report engine
  | status v _ eq => rw [eq]; exact (clearStatus_inv s v low inv).resp _ _
  | drop l v _ _ _ _ eq => rw [eq]; exact .of_low low alphabet report engine
  | accept v _ _ eq => rw [eq]; exact (accept_inv s v low inv).resp _ _
  | poke l v _ _ _ _ _ eq => rw [eq, State.poke_frame]; exact .of_low low alphabet report engine

/-- An edge of the pin: high resets, low changes the pin alone (R280, R282). -/
theorem setRst_inv (s : State) (level : Bool) (inv : s.Inv) : (setRst s level).Inv := by
  cases level with
  | true => exact blockReset_inv _
  | false =>
    obtain ⟨alphabet, report, engine, -⟩ := inv
    exact .of_low rfl alphabet report engine

/-- Every step keeps the invariant, by what the step was. -/
theorem StepKind.inv {s t : State} (kind : StepKind s t) (inv : s.Inv) : t.Inv := by
  cases kind with
  | complete due run =>
    exact (runCommand_completes _ _ run).inv due.1 due.2.1 (inv.events _)
  | idle _ _ eq => rw [eq]; exact inv.events _
  | work rest _ eq =>
    rw [eq]
    split
    · next runs =>
      simp only [State.engineBusy, Bool.and_eq_true, Bool.not_eq_true'] at runs
      exact engineWork_inv _ runs.2 (inv.events rest)
    · exact inv.events rest
  | rst level rest _ eq => rw [eq]; exact setRst_inv _ level (inv.events rest)
  | access a rest low _ eq => rw [eq]; exact hostAccess_inv _ a low (inv.events rest)

/-! ## No fault under the invariant -/

/-- What a completion answers under R52's invariant is a next state. -/
theorem runCommand_safe (s u : State) (inv : u.AlphabetInv) : safeOutcome s (runCommand u) := by
  obtain ⟨t, run⟩ := runCommand_next_of_alphabetInv u inv
  rw [run]
  trivial

/-- One event is safe under R52's invariant. -/
theorem handleEvent_safe (s : State) (rest : List Event) (ev : Event) (inv : s.AlphabetInv) :
    safeOutcome s (handleEvent { s with events := rest } ev) := by
  cases ev with
  | access a =>
    simp only [handleEvent]
    split
    · next high => exact ⟨rfl, high⟩
    · trivial
  | work => trivial
  | complete =>
    simp only [handleEvent]
    split
    · exact runCommand_safe s _ inv
    · trivial
  | rst level => trivial

end Sys2Proof.Machine

namespace Sys2Proof.Proofs

open Sys2Proof.Machine

/-- Settles O52: each kind of step keeps the invariant (`StepKind.inv`). -/
theorem stepKeepsInvariant : Obligations.StepKeepsInvariant :=
  fun s t inv h => (step_kind s t h).inv inv

/-- Settles O51: the default alphabet is canonical (`reset_alphabetInv`); a reset of the reset state is itself
(`blockReset_inv`). -/
theorem invariantHoldsAtReset : Obligations.InvariantHoldsAtReset :=
  blockReset_inv State.reset

/-- Settles O53: only ENCODE can fault, and not under R52's invariant (`runCommand_safe`, `handleEvent_safe`). -/
theorem invariantStatesAreSafe : Obligations.InvariantStatesAreSafe := by
  rintro s ⟨alphabet, -⟩
  unfold step
  split
  · split
    · exact runCommand_safe s s alphabet
    · trivial
  · exact handleEvent_safe s _ _ alphabet

end Sys2Proof.Proofs

/-! Proofs of the statements about the running command and the steps that run none (60_exceptions.md R244, R262;
30_encoding.md R100). -/

namespace Sys2Proof.Machine

/-! ## The error of a completion (R244) -/

/-- Under R52's invariant every command answers a next state. -/
theorem exec_next_of_alphabetInv (i : Instr) {s : State} (inv : s.AlphabetInv) : ∃ t, exec i s = .next t := by
  rcases exec_next_or_fault i s with next | ⟨-, out, -⟩
  · exact next
  · simp [alphabetInRange_of_inv inv] at out

/-- From a clear report, a completion that ends in error `e` leaves `e` in ERRCODE and ERR exactly if there is one. -/
theorem Reports.of_clear {s t : State} {e : ErrCode} (report : Reports s t e) (err : s.err = false)
    (code : s.errcode = .noError) : t.errcode = e ∧ (t.err = true ↔ e ≠ .noError) := by
  by_cases clear : e = .noError
  · obtain ⟨errKept, codeKept⟩ := report.kept clear
    simp [errKept, codeKept, err, code, clear]
  · obtain ⟨errSet, codeSet⟩ := report.written clear
    simp [errSet, codeSet, clear]

/-! ## The steps that run no command (R50, R262, R282) -/

/-- A step that is no access, no completion and no reset (R17, R50, R262, R282). -/
theorem step_quiet (s : State) (noAccess : ∀ a rest, s.events ≠ .access a :: rest) (noComplete : ¬ s.completionDue)
    (noReset : ¬ s.resetDue) :
    step s = .next { s with events := s.events.tail } ∨
    (s.busy = true ∧ s.rst = false ∧
      step s = .next (engineWork { s with events := s.events.tail })) ∨
    ((∃ rest, s.events = .rst false :: rest) ∧
      step s = .next { s with rst := false, events := s.events.tail }) := by
  have held : s.engineBusy = true ↔ s.busy = true ∧ s.rst = false := by simp [State.engineBusy]
  rcases ev : s.events with _ | ⟨_ | _ | _ | level, rest⟩
  · have idle : ¬ s.engineBusy := fun runs => noComplete ⟨(held.1 runs).1, (held.1 runs).2, .inl ev⟩
    refine .inl ?_
    simp only [step, ev, if_neg idle, List.tail_nil]
    rw [← ev]
  · exact absurd ev (noAccess _ rest)
  · by_cases runs : s.engineBusy
    · refine .inr (.inl ⟨(held.1 runs).1, (held.1 runs).2, ?_⟩)
      have runs' : State.engineBusy { s with events := rest } = true := runs
      simp only [step, ev, handleEvent, runs', if_true, List.tail_cons]
    · have idle : ¬ State.engineBusy { s with events := rest } := runs
      exact .inl (by simp only [step, ev, handleEvent, if_neg idle, List.tail_cons])
  · have idle : ¬ State.engineBusy { s with events := rest } := fun runs =>
      noComplete ⟨(held.1 runs).1, (held.1 runs).2, .inr ⟨rest, ev⟩⟩
    exact .inl (by simp only [step, ev, handleEvent, if_neg idle, List.tail_cons])
  · cases level with
    | true => exact absurd (.inl ⟨rest, ev⟩) noReset
    | false => exact .inr (.inr ⟨⟨rest, rfl⟩, by simp [step, ev, handleEvent, setRst]⟩)

end Sys2Proof.Machine

namespace Sys2Proof.Proofs

open Sys2Proof.Machine

/-- Settles O8: under R52's invariant a command answers (`exec_next_of_alphabetInv`), every completion clears BUSY and
sets DONE, and it reports the error its inputs call for (`exec_ends`, `runCommand_reports`). -/
theorem everyCommandCompletesWithItsError : Obligations.EveryCommandCompletesWithItsError := by
  intro s inv err code
  refine ⟨fun i => ?_, fun due => ?_⟩
  · obtain ⟨t, run⟩ := exec_next_of_alphabetInv i inv
    have ends := exec_completes i s t run
    obtain ⟨errcode, set⟩ := (exec_ends i s t run).reports.of_clear err code
    exact ⟨t, run, errcode, set, ends.busy, ends.done⟩
  · obtain ⟨t, run⟩ := runCommand_next_of_alphabetInv { s with events := s.events.tail } inv
    have h : step s = .next t := due.step_eq.trans run
    obtain ⟨errcode, set⟩ := (due.reports h).of_clear err code
    exact ⟨t, h, errcode, set, (due.completes h).busy, (due.completes h).done⟩

/-- Settles O6: a due completion runs the word's command (`State.completionDue.step_legal`); the other steps but
accesses and resets are the three of `step_quiet`. -/
theorem stepRunsDecodedCommand : Obligations.StepRunsDecodedCommand := by
  refine ⟨fun s i busy low word => ⟨fun ev => ?_, fun rest ev => ?_⟩, fun s noAccess noComplete noReset => ?_⟩
  · have same : { s with events := s.events.tail } = s := by cases s; cases ev; rfl
    rw [State.completionDue.step_legal ⟨busy, low, .inl ev⟩ word, same]
  · rw [State.completionDue.step_legal ⟨busy, low, .inr ⟨rest, ev⟩⟩ word, ev, List.tail_cons]
  · rcases step_quiet s noAccess noComplete noReset with quiet | ⟨busy, low, work⟩ | ⟨⟨rest, ev⟩, release⟩
    · exact ⟨_, quiet, rfl, fun _ => rfl, fun _ => rfl⟩
    · exact ⟨_, work, rfl, fun held => by simp [busy, low] at held, fun _ => rfl⟩
    · exact ⟨_, release, rfl, fun _ => rfl, fun other => absurd ev (other rest)⟩

/-- Settles O7: the placed word's completion is due, and the word decodes to its command (`decode_encode`). -/
theorem placedWordRunsNext : Obligations.PlacedWordRunsNext := by
  intro s i
  have word : BitVec.ofNat 32 ((encode i).toNat % 2 ^ 32) = encode i := by
    rw [Nat.mod_eq_of_lt (encode i).isLt, BitVec.ofNat_toNat, BitVec.setWidth_eq]
  have due : (s.withFetchWord 32 (encode i).toNat).completionDue := ⟨rfl, rfl, .inr ⟨s.events, rfl⟩⟩
  have legal : decode (s.withFetchWord 32 (encode i).toNat).cmd = .ok i := by
    simp only [State.withFetchWord, accept_cmd, word, decode_encode]
  rw [due.step_legal legal]
  simp only [State.withFetchWord, word, List.tail_cons]

end Sys2Proof.Proofs

/-! Proofs of the statements about idle accesses to the window (20_memory.md R71 to R79, 10_state.md R31, R37) and
about the pin (70_reset_and_hazards.md R282, R284). -/

namespace Sys2Proof.Machine

/-! ## Idle reads (R78, R82) -/

/-- A word read of an idle block is answered with the stored word and changes nothing else. -/
theorem State.accessDue.step_read_idle {s : State} {l : Loc} (idle : s.busy = false)
    (due : s.accessDue (.read l.offset 4)) :
    step s = .next { s with resp := some (.data (s.peek l)), events := s.events.tail } := by
  have stored : State.peek { s with events := s.events.tail } l = s.peek l := by cases l <;> rfl
  rw [due.step_eq, ← stored]
  exact congrArg _ (hostAccess_readOf { s with events := s.events.tail } l idle)

/-- The fields of STATUS at their bit places (R31). -/
theorem packStatus_fields (busy done err fits64 ovr : Bool) (e : ErrCode) :
    let v := packStatus busy done err fits64 ovr e.code
    v.getLsbD 0 = busy ∧ v.getLsbD 1 = done ∧ v.getLsbD 2 = err ∧ v.getLsbD 3 = fits64 ∧ v.getLsbD 4 = ovr ∧
      v.extractLsb' 5 3 = 0#3 ∧ v.extractLsb' 8 8 = e.code ∧ v.extractLsb' 16 16 = 0#16 := by
  cases e <;> (revert busy done err fits64 ovr; decide)

/-- CTRL is IRQ_EN in bit 0 and 0 above (R37). -/
theorem State.ctrlWord_fields (s : State) : s.ctrlWord.getLsbD 0 = s.irqEn ∧ s.ctrlWord.extractLsb' 1 31 = 0#31 := by
  rw [State.ctrlWord]
  cases s.irqEn <;> exact ⟨rfl, rfl⟩

/-! ## Idle writes (R22, R74) -/

/-- A read-only location ignores what is written to it (R74). -/
theorem hostWriteEffect_readOnly (s : State) (l : Loc) (v : Word) (idle : s.busy = false) (ro : l.readOnly = true) :
    hostWriteEffect s l v = s := by
  cases l <;> simp_all [Loc.readOnly, hostWriteEffect, State.poke]

/-- A read-write location stores what is written to it (R22). -/
theorem hostWriteEffect_stores (s : State) (l : Loc) (v : Word) (idle : s.busy = false) (stores : l.stores = true) :
    hostWriteEffect s l v = s.poke l v := by
  cases l <;> simp_all [Loc.stores, hostWriteEffect]

/-- The stored word is what was written (R22). -/
theorem State.peek_poke_same (s : State) (l : Loc) (v : Word) (stores : l.stores = true) : (s.poke l v).peek l = v := by
  cases l with
  | val k => exact limb_setLimb_same s.val k v
  | astage i => exact Vector.getElem_set_self i.isLt
  | strbuf i => exact Vector.getElem_set_self i.isLt
  | opm | opa | rin | padlen | strlen | astageCnt => rfl
  | _ => cases stores

/-- A store leaves every other location at its word (R22, R24). -/
theorem State.peek_poke_other (s : State) (l l' : Loc) (v : Word) (other : l' ≠ l) :
    (s.poke l v).peek l' = s.peek l' := by
  cases l with
  | val k =>
    cases l' with
    | val i => exact limb_setLimb_other s.val k i v fun same => other (congrArg Loc.val same)
    | _ => rfl
  | astage i =>
    cases l' with
    | astage j => exact Vector.getElem_set_ne i.isLt j.isLt fun same => other (congrArg Loc.astage (Fin.ext same.symm))
    | _ => rfl
  | strbuf i =>
    cases l' with
    | strbuf j => exact Vector.getElem_set_ne i.isLt j.isLt fun same => other (congrArg Loc.strbuf (Fin.ext same.symm))
    | _ => rfl
  | _ => cases l' <;> simp_all [State.peek, State.poke, State.ctrlWord, State.statusWord]

/-- A word depends neither on the bus's answer nor on the pending events. -/
theorem State.peek_bus (s : State) (resp : Option BusResponse) (events : List Event) (l : Loc) :
    State.peek { s with resp := resp, events := events } l = s.peek l := by
  cases l <;> rfl

/-- A store writes no flag, hidden variable or pin (R22, R74). -/
@[simp] theorem State.poke_busy (s : State) (l : Loc) (v : Word) : (s.poke l v).busy = s.busy := by
  rw [State.poke_frame]

@[simp] theorem State.poke_rst (s : State) (l : Loc) (v : Word) : (s.poke l v).rst = s.rst := by
  rw [State.poke_frame]

/-- A write of a read-write location of an idle block, as a step (R22, R74). -/
theorem State.writeDue.step_stores {s : State} {l : Loc} {v : Word} (due : s.writeDue l.offset v)
    (idle : s.busy = false) (stores : l.stores = true) :
    step s = .next { s.poke l v with resp := some .written, events := s.events.tail } := by
  have pending : State.poke { s with events := s.events.tail } l v =
      { s.poke l v with events := s.events.tail } := by cases l <;> rfl
  have effect := hostWriteEffect_stores { s with events := s.events.tail } l v idle stores
  exact due.step_of_effect (effect.trans pending)

/-! ## The address map (R71, R79) -/

/-- The offset of entry `n` of a part of the window that begins at `base` (R79). -/
theorem entryOffset_toNat (base n : Nat) (fit : base + 4 * n < 4096) :
    (BitVec.ofNat 12 base + BitVec.ofNat 12 (4 * n)).toNat = base + 4 * n := by
  simp only [BitVec.toNat_add, BitVec.toNat_ofNat]
  omega

/-! ## The pin (R282, R284) -/

/-- A release of the pin changes nothing else (R282). -/
theorem step_rst_low (s : State) (rest : List Event) (ev : s.events = .rst false :: rest) :
    step s = .next { s with rst := false, events := rest } := by
  simp [step, ev, handleEvent, setRst]

/-- No access while the pin is high (R284, log 8). -/
theorem step_access_of_rst_high (s : State) (a : Access) (rest : List Event) (high : s.rst = true)
    (ev : s.events = .access a :: rest) : step s = .refused .accessDuringReset := by
  simp [step, ev, handleEvent, high]

end Sys2Proof.Machine

namespace Sys2Proof.Proofs

open Sys2Proof.Machine

/-- Settles O35: the read is answered with the stored word (`State.accessDue.step_read_idle`), whose fields are
`packStatus_fields` and `State.ctrlWord_fields`. -/
theorem statusAndCtrlReadTheirFields : Obligations.StatusAndCtrlReadTheirFields := by
  intro s idle
  refine ⟨fun due => ?_, fun due => ?_⟩
  · refine ⟨_, _, State.accessDue.step_read_idle (l := .status) idle due, rfl, ?_⟩
    obtain ⟨busy, others⟩ := packStatus_fields s.busy s.done s.err s.fits64 s.ovr s.errcode
    exact ⟨busy.trans idle, others⟩
  · exact ⟨_, _, State.accessDue.step_read_idle (l := .ctrl) idle due, rfl, s.ctrlWord_fields⟩

/-- Settles O45: an idle read is `State.accessDue.step_read_idle`, a write to a read-only location has no effect
(`hostWriteEffect_readOnly`), and the limbs are `limb_toNat`'s. -/
theorem idleReadsReturnAndReadOnlyWritesIgnore : Obligations.IdleReadsReturnAndReadOnlyWritesIgnore := by
  refine ⟨fun s l idle => ⟨State.accessDue.step_read_idle idle, fun ro v due => ?_⟩, fun s => ?_⟩
  · exact due.step_of_effect (hostWriteEffect_readOnly _ l v idle ro)
  · exact ⟨rfl, rfl, rfl, rfl, rfl, rfl, rfl, rfl, rfl, rfl, rfl, rfl,
      fun k => ⟨limb_toNat s.val k, limb_toNat s.res k⟩, fun _ => ⟨rfl, rfl, rfl⟩⟩

/-- Settles O46: the write stores (`State.writeDue.step_stores`), the read returns the stored word
(`State.peek_poke_same`), and the other locations keep theirs (`State.peek_poke_other`). -/
theorem writtenWordIsReadBack : Obligations.WrittenWordIsReadBack := by
  intro s l v rest idle low stores ev
  have write : s.writeDue l.offset v := ⟨low, _, ev⟩
  have written := write.step_stores idle stores
  rw [ev, List.tail_cons] at written
  refine ⟨_, _, written, State.accessDue.step_read_idle (l := l) ((s.poke_busy l v).trans idle)
    ⟨(s.poke_rst l v).trans low, rest, rfl⟩, ?_, fun l' other => ?_, ?_⟩
  · rw [State.peek_bus, s.peek_poke_same l v stores]
  · rw [State.peek_bus, s.peek_poke_other l l' v other]
  · exact congrArg (fun u : State => { u with
      resp := some .written, events := .access (.read l.offset 4) :: rest }) (s.poke_frame l v)

/-- Settles O43: the map is inverse to the offsets both ways (`Loc.eq_offset_of_ofOffset`, `Loc.ofOffset_offset`), and
the offsets themselves are the table's (`entryOffset_toNat`). -/
theorem addressMapIsOneToOne : Obligations.AddressMapIsOneToOne := by
  refine ⟨fun off l => ⟨Loc.eq_offset_of_ofOffset off l, ?_⟩, Loc.ofOffset_eq_none_iff, rfl, rfl, fun k => ?_,
    fun i => ?_⟩
  · rintro rfl
    exact Loc.ofOffset_offset l
  · exact ⟨entryOffset_toNat 0x020 k (by omega), entryOffset_toNat 0x030 k (by omega)⟩
  · exact ⟨entryOffset_toNat 0x400 i (by omega), entryOffset_toNat 0x800 i (by omega),
      entryOffset_toNat 0xC00 i (by omega)⟩

/-- Settles O47: an offset is below 4096, and the base is 4096 times a number. -/
theorem windowAddressesSelectOffsets : Obligations.WindowAddressesSelectOffsets := by
  refine ⟨fun off => ?_, fun addr off h => ?_, Nat.mul_mod_right _ _⟩
  · have inside : baseAddr ≤ hostAddress off ∧ hostAddress off < baseAddr + 4096 := by
      have := off.isLt
      rw [hostAddress]
      omega
    rw [windowOffset, if_pos inside, hostAddress, Nat.add_sub_cancel_left]
    simp
  · unfold windowOffset at h
    split at h
    · next inside =>
      cases h
      rw [hostAddress, BitVec.toNat_ofNat]
      omega
    · cases h

/-- Settles O50: the refusal (`step_access_of_rst_high`), the release (`step_rst_low`), and the three steps from the
rising pin to the accept (`step_rst_high`, `hostWriteEffect_cmd`). -/
theorem noHostStepDuringRst : Obligations.NoHostStepDuringRst := by
  refine ⟨rfl, rfl, step_access_of_rst_high, step_rst_low, fun s w rest ev => ?_⟩
  have high := step_rst_high s _ ev
  generalize blocked : blockReset { s with
    rst := true, events := .rst false :: .access (.write 0x00C#12 4 0xF#4 w) :: rest } = u at high
  have idle : u.busy = false := by rw [← blocked]; rfl
  have release := step_rst_low u (.access (.write 0x00C#12 4 0xF#4 w) :: rest) (by rw [← blocked]; rfl)
  have write : State.writeDue
      { u with rst := false, events := .access (.write 0x00C#12 4 0xF#4 w) :: rest } (Loc.offset .cmd) w :=
    ⟨rfl, rest, rfl⟩
  have accepted := write.step_of_effect (hostWriteEffect_cmd _ w idle)
  have run := (run_succ_of_step 2 _ _ high).trans
    ((run_succ_of_step 1 _ _ release).trans (run_succ_of_step 0 _ _ accepted))
  exact ⟨_, run, rfl, rfl, rfl⟩

end Sys2Proof.Proofs

/-! Proof of the statement of 40_alphabet.md section 1 that ABUILD depends on the staged set alone (R131, R132). -/

namespace Sys2Proof.Machine

/-- The canonical list is the same for lists with the same members (R131). -/
theorem canonical_eq_of_mem_iff {l m : List Word} (same : ∀ c, c ∈ l ↔ c ∈ m) : canonical l = canonical m := by
  have rises := canonical_pairwise l
  have rises' := canonical_pairwise m
  have perm : (canonical l).Perm (canonical m) :=
    (List.perm_ext_iff_of_nodup (nodup_of_pairwise_lt _ rises) (nodup_of_pairwise_lt _ rises')).2 fun c => by
      rw [mem_canonical, mem_canonical, same]
  exact perm.eq_of_pairwise (fun _ _ _ _ lt gt => absurd gt (BitVec.lt_asymm lt)) rises rises'

end Sys2Proof.Machine

namespace Sys2Proof.Proofs

open Sys2Proof.Machine

/-- Settles O29: the same members have the same canonical list (`canonical_eq_of_mem_iff`), which decides both
outcomes (`execAbuild_of_few`, `execAbuild_of_enough`). -/
theorem abuildDependsOnlyOnTheSet : Obligations.AbuildDependsOnlyOnTheSet := by
  intro s file count s' short short' members
  have same : canonical s'.staged = canonical s.staged := canonical_eq_of_mem_iff members
  have number : s'.staged.dedup.length = s.staged.dedup.length := by
    rw [← canonical_length, same, canonical_length]
  by_cases few : s.staged.dedup.length < 2
  · exact ⟨_, execAbuild_of_few s short few, execAbuild_of_few s' short' (number.trans_lt few)⟩
  · have enough : 2 ≤ s.staged.dedup.length := Nat.le_of_not_lt few
    have commits := execAbuild_of_enough s' short' (enough.trans_eq number.symm)
    rw [same] at commits
    exact ⟨_, execAbuild_of_enough s short enough, commits⟩

end Sys2Proof.Proofs

/-! Proof of the statement about the pseudo-instructions of SUC-asm that load and read (30_encoding.md R114). -/

namespace Sys2Proof.Machine

/-! ## The loads (R112, R114) -/

/-- Four limb writes replace the whole value (R24). -/
theorem setLimb_all (v w : Value) :
    setLimb (setLimb (setLimb (setLimb v 0 (limb w 0)) 1 (limb w 1)) 2 (limb w 2)) 3 (limb w 3) = w := by
  simp [setLimb, ofLimbs_limb]

/-- What the writes of ld128 do to an idle block. -/
theorem foldl_ld128 (s : State) (v : Value) (idle : s.busy = false) :
    ((Pseudo.ld128 v).expand.flatMap (HostOp.accesses 0)).foldl hostAccess s =
      { s with val := v, resp := some .written } := by
  have write (u : State) (k : Fin 4) (idle : u.busy = false) : hostAccess u (writeOf (.val k) (limb v k)) =
      { u with val := setLimb u.val k (limb v k), resp := some .written } := hostAccess_writeOf u (.val k) _ idle rfl
  change hostAccess (hostAccess (hostAccess (hostAccess s (writeOf (.val 0) (limb v 0)))
    (writeOf (.val 1) (limb v 1))) (writeOf (.val 2) (limb v 2))) (writeOf (.val 3) (limb v 3)) = _
  simp only [write, idle, setLimb_all]

/-- A file with a list over its first entries begins with that list and keeps the entries past it. -/
theorem take_of_written {file old : Table} {codes : List Word}
    (entry : ∀ j, file[j]? = if 0 ≤ j ∧ j < 0 + codes.length then codes[j - 0]? else old[j]?) :
    file.toList.take codes.length = codes ∧ ∀ j, codes.length ≤ j → file[j]? = old[j]? := by
  refine ⟨List.ext_getElem? fun j => ?_, fun j past => ?_⟩
  · rw [List.getElem?_take, Vector.getElem?_toList, entry]
    by_cases below : j < codes.length
    · simp [below]
    · simp [below]
  · rw [entry, if_neg (by omega)]

/-- The count a load writes is the number of its characters. -/
theorem count_toNat {codes : List Word} (fit : codes.length ≤ 256) :
    (BitVec.ofNat 32 codes.length).toNat = codes.length :=
  Nat.mod_eq_of_lt (by omega)

/-- A load's writes: those of the characters, then that of the count. -/
theorem foldl_load (file : Fin 256 → Loc) (count : Loc) (codes : List Word) (n : Word) (s : State) :
    ((storeFrom file 0 codes ++ [HostOp.wr count n]).flatMap (HostOp.accesses 0)).foldl hostAccess s =
      hostAccess (((storeFrom file 0 codes).flatMap (HostOp.accesses 0)).foldl hostAccess s) (writeOf count n) := by
  rw [List.flatMap_append, List.foldl_append]
  rfl

/-! ## rd128 and a branch on its variable (R112, R114) -/

/-- A `rd` line of a listing, on an idle block. -/
theorem hostRun_rd {listing : List HostOp} {h : HostState} {s : State} {l : Loc} {t : HostCell} {n : Nat}
    (line : listing[h.line]? = some (.rd l t)) (idle : s.busy = false) :
    hostRun listing (n + 1) (h, s) = hostRun listing n ({ h with line := h.line + 1, vars := (t, s.peek l) :: h.vars },
      { s with resp := some (.data (s.peek l)) }) := by
  simp only [hostRun_succ, hostStep, line, hostAccess_readOf s l idle]
  rfl

/-- The host after the four lines of `rd128 RES -> q`. -/
def HostState.afterRd128 (h : HostState) (q : Nat) (s : State) : HostState :=
  { h with
    line := 4
    vars := (.part q 3, s.peek (.res 3)) :: (.part q 2, s.peek (.res 2)) :: (.part q 1, s.peek (.res 1)) ::
      (.part q 0, s.peek (.res 0)) :: h.vars }

/-- A listing that begins with rd128, run on an idle block: after four steps the four parts are read. -/
theorem hostRun_rd128 (q : Nat) (rest : List HostOp) (n : Nat) (h : HostState) (s : State) (line : h.line = 0)
    (idle : s.busy = false) :
    hostRun ((Pseudo.rd128 q).expand ++ rest) (n + 4) (h, s) =
      hostRun ((Pseudo.rd128 q).expand ++ rest) n
        (h.afterRd128 q s, { s with resp := some (.data (s.peek (.res 3))) }) := by
  obtain ⟨_, vars, wrong⟩ := h
  cases line
  exact (hostRun_rd (l := .res 0) (t := .part q 0) rfl (by exact idle)).trans <|
    (hostRun_rd (l := .res 1) (t := .part q 1) rfl (by exact idle)).trans <|
    (hostRun_rd (l := .res 2) (t := .part q 2) rfl (by exact idle)).trans <|
    hostRun_rd (l := .res 3) (t := .part q 3) rfl (by exact idle)

/-- rd128's variable is RES, put together from its limbs (R24, R114). -/
theorem HostState.afterRd128_var (h : HostState) (q : Nat) (s : State) :
    (h.afterRd128 q s).var (.wide q) = s.res := by
  simp only [HostState.var, HostState.afterRd128, HostState.cell_cons_self, ne_eq, HostCell.part.injEq,
    true_and, HostState.cell_cons_ne, Fin.reduceEq, not_false_eq_true, State.peek_res]
  exact ofLimbs_limb s.res

end Sys2Proof.Machine

namespace Sys2Proof.Proofs

open Sys2Proof.Machine

/-- Settles O60: the loads' writes, one after the other (`foldl_ld128`, `foldl_storeFrom_strbuf`,
`foldl_storeFrom_astage`), and the four reads of rd128 with a branch on its variable (`hostRun_rd128`,
`HostState.afterRd128_var`). -/
theorem loadPseudosLoadTheirTargets : Obligations.LoadPseudosLoadTheirTargets := by
  intro s idle
  refine ⟨fun v => foldl_ld128 s v idle, fun codes fit => ?_, fun codes fit => ?_, fun h q imm label line => ?_⟩
  · obtain ⟨file, r, writes, entry⟩ := foldl_storeFrom_strbuf codes 0 s idle (by omega)
    obtain ⟨begins, keeps⟩ := take_of_written entry
    have load := foldl_load .strbuf .strlen codes (BitVec.ofNat 32 codes.length) s
    rw [writes, hostAccess_writeOf { s with strbuf := file, resp := r } .strlen _ idle rfl] at load
    refine ⟨_, load, ?_, count_toNat fit, keeps, rfl⟩
    simp only [State.string, State.poke, count_toNat fit, begins]
  · obtain ⟨file, r, writes, entry⟩ := foldl_storeFrom_astage codes 0 s idle (by omega)
    obtain ⟨begins, keeps⟩ := take_of_written entry
    have load := foldl_load .astage .astageCnt codes (BitVec.ofNat 32 codes.length) s
    rw [writes, hostAccess_writeOf { s with astage := file, resp := r } .astageCnt _ idle rfl] at load
    refine ⟨_, load, ?_, count_toNat fit, keeps, rfl⟩
    simp only [State.staged, State.poke, count_toNat fit, begins]
  · have run := fun op => hostRun_rd128 q [op] 1 h s line idle
    have read := hostRun_rd128 q [] 0 h s line idle
    have value := h.afterRd128_var q s
    rw [List.append_nil] at read
    simp only [read, run (.beq (.wide q) imm label), run (.bne (.wide q) imm label)]
    refine ⟨value, rfl, rfl, ?_, rfl, ?_, rfl⟩
    · rw [← value]; rfl
    · rw [← value]; rfl

end Sys2Proof.Proofs

/-! Proofs of the statements about the reference engine (41_limb_arith.md R165, 42_encoder.md R191, 43_decoder.md
R219, 40_alphabet.md R141): its FSMs end as the commands do, after the reference numbers of steps. -/

namespace Sys2Proof.Machine

/-! ## Runs of the reference engine -/

/-- The FSM states that wait for the completion step. -/
def Fsm.completes : Fsm → Bool
  | .illegal | .completion _ => true
  | _ => false

/-- `s` with the engine's hidden state `e`. -/
def State.withEngine (s : State) (e : Engine) : State := { s with eng := e }

theorem engineComplete_eq_none {s : State} (waits : s.eng.fsm.completes = false) : engineComplete s = none := by
  unfold engineComplete
  split <;> simp_all [Fsm.completes]

/-- `n` working steps in `s` take the engine from `e` to `e'`, and none of the states before `e'` completes. -/
inductive EngineSteps (s : State) : Nat → Engine → Engine → Prop where
  | refl (e : Engine) : EngineSteps s 0 e e
  | step {n : Nat} {e e' : Engine} (waits : e.fsm.completes = false)
      (rest : EngineSteps s n (engineStep (s.withEngine e)) e') : EngineSteps s (n + 1) e e'

namespace EngineSteps

variable {s : State} {m n : Nat} {e e' e'' : Engine}

theorem one (waits : e.fsm.completes = false) (next : engineStep (s.withEngine e) = e') : EngineSteps s 1 e e' :=
  .step waits (next ▸ .refl _)

theorem trans (first : EngineSteps s m e e') (second : EngineSteps s n e' e'') : EngineSteps s (m + n) e e'' := by
  induction first with
  | refl e => rwa [Nat.zero_add]
  | step waits _ ih =>
    rw [Nat.succ_add]
    exact .step waits (ih second)

/-- A count of steps may be replaced by an equal one. -/
theorem cast (steps : EngineSteps s m e e') (count : m = n) : EngineSteps s n e e' := count ▸ steps

theorem run (steps : EngineSteps s n e e') : engineRun n (s.withEngine e) = s.withEngine e' := by
  induction steps with
  | refl => rfl
  | step _ _ ih => exact ih

theorem waits_before (steps : EngineSteps s n e e') :
    ∀ m, m < n → engineComplete (engineRun m (s.withEngine e)) = none := by
  induction steps with
  | refl => exact fun m below => absurd below (Nat.not_lt_zero m)
  | step waits _ ih =>
    intro m below
    cases m with
    | zero => exact engineComplete_eq_none waits
    | succ m => exact ih m (Nat.lt_of_succ_lt_succ below)

/-- A run from the accept whose last state completes as the command does. -/
theorem completesAfter {u t : State} (steps : EngineSteps s n (engineStart s.cmd e) e')
    (complete : engineComplete (s.withEngine e') = some u) (run : runCommand (s.started e) = .next t)
    (same : sameButEngine u t) : engineCompletesAfter (s.started e) n :=
  ⟨steps.waits_before, u, t, (congrArg engineComplete steps.run).trans complete, run, same⟩

/-- A state of open length takes one step for each it has left (log 12). -/
theorem countdown (wait : Nat → Fsm) (waits : ∀ left, (wait left).completes = false)
    (next : ∀ left, engineStep (s.withEngine { e with fsm := wait (left + 1) }) = { e with fsm := wait left })
    (left : Nat) : EngineSteps s left { e with fsm := wait left } { e with fsm := wait 0 } := by
  induction left with
  | zero => exact .refl _
  | succ left ih => exact .step (waits _) (next left ▸ ih)

end EngineSteps

/-- The completion of a legal command without error is its commit from the hidden variables. -/
theorem engineComplete_ok {s : State} {i : Instr} {e : Engine} (word : Sys2Proof.decode s.cmd = .ok i)
    (done : e.fsm = .completion .noError) :
    engineComplete (s.withEngine e) = some (engineCommit (s.withEngine e) i) := by
  simp only [engineComplete, State.withEngine, done, word]

/-- A legal word runs its command, whatever the engine holds. -/
theorem runCommand_started {s : State} {i : Instr} {e : Engine} {t : State}
    (word : Sys2Proof.decode s.cmd = .ok i) (run : exec i (s.started e) = .next t) :
    runCommand (s.started e) = .next t := by
  have cmd : (s.started e).cmd = s.cmd := rfl
  simpa only [runCommand, cmd, word] using run

/-- A run that ends in an error other than INVALID_CHARACTER, which the command reports too. -/
theorem EngineSteps.failsAfter {s : State} {i : Instr} {n : Nat} {e e₀ e' : Engine} {err : ErrCode}
    (steps : EngineSteps s n e₀ e') (word : Sys2Proof.decode s.cmd = .ok i) (start : engineStart s.cmd e = e₀)
    (done : e'.fsm = .completion err) (raised : err ≠ .noError) (other : err ≠ .invalidCharacter)
    (run : exec i (s.started e) = .next ((s.started e).failed err)) : engineCompletesAfter (s.started e) n := by
  have complete : engineComplete (s.withEngine e') = some (completeError (s.withEngine e') err) := by
    simp only [engineComplete, State.withEngine, done]
  subst start
  exact steps.completesAfter complete (runCommand_started word run) rfl

/-- A run that completes without error, whose commit from the hidden variables is the command's. -/
theorem EngineSteps.commitsAfter {s : State} {i : Instr} {n : Nat} {e e₀ e' : Engine} {t : State}
    (steps : EngineSteps s n e₀ e') (word : Sys2Proof.decode s.cmd = .ok i) (start : engineStart s.cmd e = e₀)
    (done : e'.fsm = .completion .noError) (run : exec i (s.started e) = .next t)
    (same : sameButEngine (engineCommit (s.withEngine e') i) t) : engineCompletesAfter (s.started e) n := by
  subst start
  exact steps.completesAfter (engineComplete_ok word done) (runCommand_started word run) same

/-! ## MULADD: MA_LIMB (R165) -/

/-- The engine in MA_LIMB(k). -/
def Engine.atMaLimb (e : Engine) (k : Fin 4) (carry : Word) (out : Value) : Engine :=
  { e with fsm := .maLimb, k := k, carry := carry, out := out }

theorem engineStart_muladd {s : State} {e : Engine} (word : Sys2Proof.decode s.cmd = .ok .muladd) :
    engineStart s.cmd e = e.atMaLimb 3 0#32 e.out := by
  simp only [engineStart, word, Engine.atMaLimb]

theorem maLimb_next (s : State) (e : Engine) (k : Fin 4) (carry : Word) (out : Value) (more : k ≠ 0) :
    let t := mulLimb (limb s.val k) s.opm carry (if k = 3 then s.opa else 0#32)
    EngineSteps s 1 (e.atMaLimb k carry out) (e.atMaLimb (k - 1) t.2 (setLimb out k t.1)) :=
  .one rfl (if_neg more)

theorem maLimb_last (s : State) (e : Engine) (carry : Word) (out : Value) :
    let t := mulLimb (limb s.val 0) s.opm carry 0#32
    EngineSteps s 1 (e.atMaLimb 0 carry out)
      { e with fsm := .completion .noError, k := 0, carry := t.2, out := setLimb out 0 t.1 } :=
  .one rfl rfl

/-- The four limbs of R151, from MA_LIMB(3) to the completion. -/
theorem maLimb_all (s : State) (e : Engine) :
    ∃ e' : Engine, EngineSteps s 4 (e.atMaLimb 3 0#32 e.out) e' ∧ e'.fsm = .completion .noError ∧
      e'.out = muladd32 s.val s.opm s.opa := by
  have limbs := (maLimb_next s e 3 0#32 e.out (by decide)).trans <|
    (maLimb_next s e 2 _ _ (by decide)).trans <| (maLimb_next s e 1 _ _ (by decide)).trans <|
    maLimb_last s e _ _
  exact ⟨_, limbs, rfl, by simp [setLimb, muladd32, muladdCarry]⟩

/-! ## DIVMOD: DM_CHECK and DM_LIMB (R165) -/

/-- The engine in DM_LIMB(k). -/
def Engine.atDmLimb (e : Engine) (k : Fin 4) (r : Word) (q : Value) : Engine :=
  { e with fsm := .dmLimb, k := k, r := r, q := q }

theorem engineStart_divmod {s : State} {e : Engine} (word : Sys2Proof.decode s.cmd = .ok .divmod) :
    engineStart s.cmd e = { e with fsm := .dmCheck } := by
  simp only [engineStart, word]

theorem dmCheck_fails {s : State} {e : Engine} {err : ErrCode} (check : divmodCheck s = err)
    (raised : err ≠ .noError) : EngineSteps s 1 { e with fsm := .dmCheck } { e with fsm := .completion err } := by
  refine .one rfl ?_
  change engineDmCheck s _ = _
  subst check
  unfold engineDmCheck
  split
  · next clear => exact absurd clear raised
  · rfl

theorem dmCheck_passes {s : State} {e : Engine} (check : divmodCheck s = .noError) :
    EngineSteps s 1 { e with fsm := .dmCheck } (e.atDmLimb 0 s.rin e.q) := by
  refine .one rfl ?_
  change engineDmCheck s _ = _
  rw [engineDmCheck, check]
  rfl

theorem dmLimb_next (s : State) (e : Engine) (k : Fin 4) (r : Word) (q : Value) (more : k ≠ 3) :
    let t := divLimb r (limb s.val k) s.opm
    EngineSteps s 1 (e.atDmLimb k r q) (e.atDmLimb (k + 1) t.2 (setLimb q k t.1)) :=
  .one rfl (if_neg more)

theorem dmLimb_last (s : State) (e : Engine) (r : Word) (q : Value) :
    let t := divLimb r (limb s.val 3) s.opm
    EngineSteps s 1 (e.atDmLimb 3 r q)
      { e with fsm := .completion .noError, k := 3, r := t.2, q := setLimb q 3 t.1 } :=
  .one rfl rfl

/-- The four limbs of R157, from DM_LIMB(0) to the completion. -/
theorem dmLimb_all (s : State) (e : Engine) (r : Word) (q : Value) :
    ∃ e' : Engine, EngineSteps s 4 (e.atDmLimb 0 r q) e' ∧ e'.fsm = .completion .noError ∧
      (e'.q, e'.r) = divmod32 s.val s.opm r := by
  have limbs := (dmLimb_next s e 0 r q (by decide)).trans <|
    (dmLimb_next s e 1 _ _ (by decide)).trans <| (dmLimb_next s e 2 _ _ (by decide)).trans <|
    dmLimb_last s e _ _
  exact ⟨_, limbs, rfl, by simp [setLimb, divmod32]⟩

/-! ## DIV64: D64_CHECK and D64_DIV (R165) -/

theorem engineStart_div64 {s : State} {e : Engine} (word : Sys2Proof.decode s.cmd = .ok .div64) :
    engineStart s.cmd e = { e with fsm := .d64Check } := by
  simp only [engineStart, word]

theorem d64Check_fails {s : State} (e : Engine) (zero : s.opm = 0#32) :
    EngineSteps s 1 { e with fsm := .d64Check } { e with fsm := .completion .divByZero } :=
  .one rfl (if_pos zero)

/-- The check and the division, which takes one step and the open count more (log 12). -/
theorem d64_all {s : State} (e : Engine) (nonzero : s.opm ≠ 0#32) :
    ∃ e' : Engine, EngineSteps s (2 + Config.div64ExtraSteps s.words) { e with fsm := .d64Check } e' ∧
      e'.fsm = .completion .noError ∧ (e'.q64, e'.r) = div64Step (low64 s.val) s.opm := by
  have check : EngineSteps s 1 { e with fsm := .d64Check }
      { e with fsm := .d64Div (Config.div64ExtraSteps s.words) } := .one rfl (if_neg nonzero)
  have wait := EngineSteps.countdown (s := s) (e := e) .d64Div (fun _ => rfl) (fun _ => rfl)
    (Config.div64ExtraSteps s.words)
  have done := EngineSteps.one (s := s) (e := { e with fsm := .d64Div 0 }) rfl rfl
  exact ⟨_, ((check.trans wait).trans done).cast (by omega), rfl, rfl⟩

/-! ## MOVRV and an illegal word (R245) -/

theorem engineStart_movrv {s : State} {e : Engine} (word : Sys2Proof.decode s.cmd = .ok .movrv) :
    engineStart s.cmd e = { e with fsm := .completion .noError } := by
  simp only [engineStart, word]

/-- An illegal word takes the engine to ILLEGAL, whose completion is the word's own (R106). -/
theorem illegal_completesAfter {s : State} {e : Engine} (illegal : ∀ i, Sys2Proof.decode s.cmd ≠ .ok i) :
    engineCompletesAfter (s.started e) 0 := by
  cases word : Sys2Proof.decode s.cmd with
  | ok i => exact absurd word (illegal i)
  | error _ =>
    have start : (engineStart s.cmd e).fsm = .illegal := by simp only [engineStart, word]
    have complete : engineComplete (s.started e) = some (completeError (s.started e) .illegalOpcode) := by
      simp only [engineComplete, State.started, start]
    have run : runCommand (s.started e) = .next (completeError (s.started e) .illegalOpcode) := by
      have cmd : (s.started e).cmd = s.cmd := rfl
      simp only [runCommand, cmd, word]
    exact (EngineSteps.refl _).completesAfter complete run rfl

/-! ## DECODE: DE_INIT, DE_LOOK and DE_MUL (R219) -/

/-- The engine in DE_MUL(k). -/
def Engine.atDeMul (e : Engine) (k : Fin 4) (carry : Word) (acc : Value) : Engine :=
  { e with fsm := .deMul, k := k, carry := carry, acc := acc }

theorem deMul_next (s : State) (e : Engine) (k : Fin 4) (carry : Word) (acc : Value) (more : k ≠ 0) :
    let t := mulLimb (limb acc k) s.nbase carry (if k = 3 then e.d else 0#32)
    EngineSteps s 1 (e.atDeMul k carry acc) (e.atDeMul (k - 1) t.2 (setLimb acc k t.1)) :=
  .one rfl (if_neg more)

theorem deMul_last (s : State) (e : Engine) (carry : Word) (acc : Value) :
    let t := mulLimb (limb acc 0) s.nbase carry 0#32
    EngineSteps s 1 (e.atDeMul 0 carry acc)
      { e with fsm := .deLook, k := 0, carry := t.2, acc := setLimb acc 0 t.1, j := e.j + 1 } :=
  .one rfl rfl

/-- The four limbs of one round of Horner's method, from DE_MUL(3) back to DE_LOOK at the next index. -/
theorem deMul_all (s : State) (e : Engine) :
    ∃ e' : Engine, EngineSteps s 4 (e.atDeMul 3 0#32 e.acc) { e' with fsm := .deLook } ∧ e'.j = e.j + 1 ∧
      e'.acc = muladd32 e.acc s.nbase e.d := by
  have limbs := (deMul_next s e 3 0#32 e.acc (by decide)).trans <|
    (deMul_next s e 2 _ _ (by decide)).trans <| (deMul_next s e 1 _ _ (by decide)).trans <|
    deMul_last s e _ _
  exact ⟨{ e with k := 0, carry := _, acc := setLimb _ 0 _, j := e.j + 1 }, limbs, rfl,
    by simp [setLimb, muladd32, muladdCarry]⟩

/-- Horner's method over a list of symbols (R212). -/
def State.horner (s : State) (acc : Value) (symbols : List Word) : Value :=
  symbols.foldl (fun acc c => muladd32 acc s.nbase (digitOf s c)) acc

/-- Where no symbol raises an error the command's loop is Horner's method. -/
theorem decodeLoop_eq_horner (s : State) (strict : Bool) (j : Nat) (l : List Word) (acc : Value)
    (present : strict = true → ∀ c ∈ l, c ∈ s.symbols) :
    decodeLoop s strict j l acc = .ok (s.horner acc l) := by
  induction l generalizing j acc with
  | nil => rfl
  | cons c l ih =>
    have found : ¬ (strict && (indexOf s c).isNone) := by
      rw [Bool.and_eq_true, Option.isNone_iff_eq_none, indexOf_eq_none]
      exact fun ⟨on, lost⟩ => lost (present on c List.mem_cons_self)
    rw [decodeLoop, if_neg found, ih _ _ fun on a mem => present on a (List.mem_cons_of_mem c mem)]
    rfl

/-- DECODE without an error commits what Horner's method gives (R212). -/
theorem exec_decode_commits_horner (s : State) (strict : Bool) (short : s.strlen.toNat ≤ 256)
    (present : strict = true → ∀ c ∈ s.string, c ∈ s.symbols) :
    exec (.decode strict) s = .next (commitResult s (s.horner 0#128 s.string)) := by
  refine (if_neg (Nat.not_lt.2 short)).trans ?_
  rw [decodeLoop_eq_horner s strict 0 _ _ present]

/-- A string that fits its file has STRLEN symbols. -/
theorem string_length_eq {s : State} (short : s.strlen.toNat ≤ 256) : s.string.length = s.strlen.toNat := by
  simp [State.string, short]

/-- STRICT of the running DECODE is bit 8 of its word (R103). -/
theorem cmdStrict_of_decode {s : State} {strict : Bool} (word : Sys2Proof.decode s.cmd = .ok (.decode strict)) :
    s.cmdStrict = strict := by
  rw [State.cmdStrict, ← encode_of_decode _ _ word]
  cases strict <;> rfl

theorem engineStart_decode {s : State} {e : Engine} {strict : Bool}
    (word : Sys2Proof.decode s.cmd = .ok (.decode strict)) :
    engineStart s.cmd e = { e with fsm := .deInit } := by
  simp only [engineStart, word]

theorem deInit_fails {s : State} (e : Engine) (long : 256 < s.strlen.toNat) :
    EngineSteps s 1 { e with fsm := .deInit } { e with fsm := .completion .lengthRange } :=
  .one rfl (if_pos long)

theorem deInit_passes {s : State} (e : Engine) (short : s.strlen.toNat ≤ 256) :
    EngineSteps s 1 { e with fsm := .deInit } { e with fsm := .deLook, acc := 0#128, j := 0 } :=
  .one rfl (if_neg (Nat.not_lt.2 short))

/-- DE_LOOK at the end of the string (R219). -/
theorem deLook_ends {s : State} (e : Engine) (last : e.j = s.strlen.toNat) :
    EngineSteps s 1 { e with fsm := .deLook } { e with fsm := .completion .noError } :=
  .one rfl (if_pos last)

section Look

variable {s : State} {e : Engine} {c : Word} (entry : s.string[e.j]? = some c)

include entry

/-- A symbol of the string is its entry of STRBUF, before STRLEN. -/
theorem string_entry : e.j ≠ s.strlen.toNat ∧ (s.strbuf[e.j]?).getD 0#32 = c := by
  rw [State.string, List.getElem?_take, Vector.getElem?_toList, Option.ite_none_right_eq_some] at entry
  exact ⟨entry.1.ne, by rw [entry.2, Option.getD_some]⟩

/-- DE_LOOK at an absent symbol in strict mode (R216). -/
theorem deLook_fails (on : s.cmdStrict = true) (absent : c ∉ s.symbols) :
    EngineSteps s 1 { e with fsm := .deLook } { e with fsm := .completion .invalidCharacter } := by
  obtain ⟨more, symbol⟩ := string_entry entry
  have lost : (s.cmdStrict && (indexOf s c).isNone) = true := by
    rw [on, (indexOf_eq_none s c).2 absent]; rfl
  refine .one rfl ?_
  change engineDeLook s s.cmdStrict { e with fsm := .deLook } = _
  simp only [engineDeLook, if_neg more, symbol, if_pos lost]

/-- One symbol, looked up and taken into the accumulator: DE_LOOK and four steps of DE_MUL (R219). -/
theorem deLook_round (present : s.cmdStrict = true → c ∈ s.symbols) :
    ∃ e' : Engine, EngineSteps s 5 { e with fsm := .deLook } { e' with fsm := .deLook } ∧ e'.j = e.j + 1 ∧
      e'.acc = muladd32 e.acc s.nbase (digitOf s c) := by
  obtain ⟨more, symbol⟩ := string_entry entry
  have found : ¬ (s.cmdStrict && (indexOf s c).isNone) := by
    rw [Bool.and_eq_true, Option.isNone_iff_eq_none, indexOf_eq_none]
    exact fun ⟨on, lost⟩ => lost (present on)
  have look : EngineSteps s 1 { e with fsm := .deLook } ({ e with d := digitOf s c }.atDeMul 3 0#32 e.acc) := by
    refine .one rfl ?_
    change engineDeLook s s.cmdStrict { e with fsm := .deLook } = _
    simp only [engineDeLook, if_neg more, symbol, if_neg found, Engine.atDeMul]
  obtain ⟨e', limbs, index, acc⟩ := deMul_all s { e with d := digitOf s c }
  exact ⟨e', look.trans limbs, index, acc⟩

end Look

/-- DE_LOOK and DE_MUL over a stretch of the string that raises no error. -/
theorem deLook_rounds {s : State} (before l after : List Word) (e : Engine) (string : s.string = before ++ l ++ after)
    (index : e.j = before.length) (present : s.cmdStrict = true → ∀ c ∈ l, c ∈ s.symbols) :
    ∃ e' : Engine, EngineSteps s (5 * l.length) { e with fsm := .deLook } { e' with fsm := .deLook } ∧
      e'.j = before.length + l.length ∧ e'.acc = s.horner e.acc l := by
  induction l generalizing before e with
  | nil => exact ⟨e, .refl _, index, rfl⟩
  | cons c l ih =>
    have entry : s.string[e.j]? = some c := by simp [string, index]
    obtain ⟨e₁, round, index₁, acc₁⟩ := deLook_round entry fun on => present on c List.mem_cons_self
    obtain ⟨e', rounds, index', acc'⟩ := ih (before ++ [c]) e₁ (by simp [string]) (by simp [index₁, index])
      fun on a mem => present on a (List.mem_cons_of_mem c mem)
    refine ⟨e', (round.trans rounds).cast (by simp only [List.length_cons]; omega), ?_, by rw [acc', acc₁]; rfl⟩
    simp only [index', List.length_append, List.length_cons, List.length_nil]
    omega

/-- The reference decoder on a string that raises no error: 2 + 5n steps to Horner's result (R219). -/
theorem decoder_commits {s : State} (e : Engine) (short : s.strlen.toNat ≤ 256)
    (present : s.cmdStrict = true → ∀ c ∈ s.string, c ∈ s.symbols) :
    ∃ e' : Engine, EngineSteps s (2 + 5 * s.strlen.toNat) { e with fsm := .deInit }
        { e' with fsm := .completion .noError } ∧ e'.acc = s.horner 0#128 s.string := by
  have length := string_length_eq short
  obtain ⟨e', rounds, index, acc⟩ := deLook_rounds [] s.string []
    { e with acc := 0#128, j := 0 } (by simp) rfl present
  have last : e'.j = s.strlen.toNat := by rw [index, length, List.length_nil, Nat.zero_add]
  have steps := ((deInit_passes e short).trans rounds).trans (deLook_ends e' last)
  exact ⟨e', steps.cast (by omega), acc⟩

/-- The reference decoder on a string whose first absent symbol is entry j: 2 + 5j steps in strict mode (R219). -/
theorem decoder_stops {s : State} (e : Engine) (short : s.strlen.toNat ≤ 256) (on : s.cmdStrict = true) {j : Nat}
    (first : s.firstAbsentAt j) :
    ∃ e' : Engine, EngineSteps s (2 + 5 * j) { e with fsm := .deInit }
        { e' with fsm := .completion .invalidCharacter } ∧ e'.j = j := by
  obtain ⟨c, at_j, absent, before⟩ := first
  have present : ∀ a ∈ s.string.take j, a ∈ s.symbols := by
    intro a mem
    obtain ⟨i, at_i⟩ := List.mem_iff_getElem?.1 mem
    rw [List.getElem?_take, Option.ite_none_right_eq_some] at at_i
    exact before i a at_i.1 at_i.2
  have length : (s.string.take j).length = j :=
    List.length_take_of_le (List.getElem?_eq_some_iff.1 at_j).1.le
  obtain ⟨e', rounds, index, -⟩ := deLook_rounds [] (s.string.take j) (s.string.drop j)
    { e with acc := 0#128, j := 0 } (by simp) rfl fun _ => present
  rw [length, List.length_nil, Nat.zero_add] at index
  have fails := deLook_fails (index ▸ at_j) on absent
  exact ⟨_, (((deInit_passes e short).trans rounds).trans fails).cast (by omega), index⟩

/-! ## ABUILD: AB_CHECK, AB_SORT, AB_COUNT and AB_PAD (R141) -/

theorem engineStart_abuild {s : State} {e : Engine} (word : Sys2Proof.decode s.cmd = .ok .abuild) :
    engineStart s.cmd e = { e with fsm := .abCheck } := by
  simp only [engineStart, word]

theorem abCheck_fails {s : State} (e : Engine) (long : 256 < s.astageCnt.toNat) :
    EngineSteps s 1 { e with fsm := .abCheck } { e with fsm := .completion .lengthRange } :=
  .one rfl (if_pos long)

/-- The check and the sort, which takes one step and the open count more (log 12). -/
theorem abSort_all {s : State} (e : Engine) (short : s.astageCnt.toNat ≤ 256) :
    EngineSteps s (2 + Config.sortExtraSteps s.words) { e with fsm := .abCheck }
      { e with fsm := .abCount, sorted := canonical s.staged } := by
  have check : EngineSteps s 1 { e with fsm := .abCheck }
      { e with fsm := .abSort (Config.sortExtraSteps s.words) } := .one rfl (if_neg (Nat.not_lt.2 short))
  have wait := EngineSteps.countdown (s := s) (e := e) .abSort (fun _ => rfl) (fun _ => rfl)
    (Config.sortExtraSteps s.words)
  have sort : EngineSteps s 1 { e with fsm := .abSort 0 }
      { e with fsm := .abCount, sorted := canonical s.staged } := .one rfl rfl
  exact ((check.trans wait).trans sort).cast (by omega)

theorem abCount_fails {s : State} (e : Engine) (few : e.sorted.length < 2) :
    EngineSteps s 1 { e with fsm := .abCount } { e with fsm := .completion .invalidAlphabet } :=
  .one rfl (if_pos few)

/-- The count and the pad search, which takes one step and the open count more (log 12). -/
theorem abPad_all {s : State} (e : Engine) (enough : 2 ≤ e.sorted.length) :
    EngineSteps s (2 + Config.padExtraSteps s.words) { e with fsm := .abCount }
      { e with fsm := .completion .noError, p := defaultPadLength e.sorted.length } := by
  have count : EngineSteps s 1 { e with fsm := .abCount }
      { e with fsm := .abPad (Config.padExtraSteps s.words) } := .one rfl (if_neg (Nat.not_lt.2 enough))
  have wait := EngineSteps.countdown (s := s) (e := e) .abPad (fun _ => rfl) (fun _ => rfl)
    (Config.padExtraSteps s.words)
  have pad : EngineSteps s 1 { e with fsm := .abPad 0 }
      { e with fsm := .completion .noError, p := defaultPadLength e.sorted.length } := .one rfl rfl
  exact ((count.trans wait).trans pad).cast (by omega)

/-! ## ENCODE: the digit buffer (R183) -/

/-- One more entry of a file that begins with a list. -/
theorem begins_setIfInBounds {file : Table} {l : List Word} (begins : l <+: file.toList) (room : l.length < 256)
    (d : Word) : l ++ [d] <+: (file.setIfInBounds l.length d).toList := by
  rw [List.prefix_iff_eq_take] at begins ⊢
  have inside : l.length < file.toList.length := by simpa using room
  rw [List.length_append, List.length_singleton, List.take_add_one, Vector.toList_setIfInBounds,
    List.take_set_of_le le_rfl, ← begins, List.getElem?_set_self inside]
  rfl

/-- The digit buffer holds a list of digits: DIG begins with it and cnt is its length. -/
structure Engine.Holds (e : Engine) (digits : List Word) : Prop where
  count : e.cnt = digits.length
  entries : digits <+: e.dig.toList

/-- The digits held are those of DIG and cnt alone. -/
theorem Engine.Holds.congr {e e' : Engine} {digits : List Word} (holds : e.Holds digits) (dig : e'.dig = e.dig)
    (cnt : e'.cnt = e.cnt) : e'.Holds digits :=
  ⟨cnt.trans holds.count, dig ▸ holds.entries⟩

/-- A digit recorded is the last of the digits held (R183). -/
theorem Engine.Holds.record {e : Engine} {digits : List Word} (holds : e.Holds digits) (room : digits.length < 256)
    (d : Word) : (e.recordDigit d).Holds (digits ++ [d]) := by
  obtain ⟨count, entries⟩ := holds
  refine ⟨by simp [Engine.recordDigit, count], ?_⟩
  rw [Engine.recordDigit, count]
  exact begins_setIfInBounds entries room d

/-- An entry of the digits held. -/
theorem Engine.Holds.getElem? {e : Engine} {digits : List Word} (holds : e.Holds digits) {i : Nat}
    (inside : i < digits.length) : e.dig[i]? = some digits[i] := by
  rw [← Vector.getElem?_toList]
  exact List.prefix_iff_getElem?.1 holds.entries i inside

/-! ## ENCODE: EN_D128 (R183, R191) -/

/-- The engine in EN_D128 at limb k. -/
def Engine.atEnD128 (e : Engine) (k : Fin 4) (r : Word) (q : Value) : Engine :=
  { e with fsm := .enD128, k := k, r := r, q := q }

theorem enD128_next (s : State) (e : Engine) (k : Fin 4) (r : Word) (q : Value) (more : k ≠ 3) :
    let t := divLimb r (limb e.w k) s.nbase
    EngineSteps s 1 (e.atEnD128 k r q) (e.atEnD128 (k + 1) t.2 (setLimb q k t.1)) :=
  .one rfl (if_neg more)

/-- The first three limbs of a division of W. -/
theorem enD128_limbs (s : State) (e : Engine) (q : Value) :
    ∃ r q', EngineSteps s 3 (e.atEnD128 0 0#32 q) (e.atEnD128 3 r q') ∧
      (setLimb q' 3 (divLimb r (limb e.w 3) s.nbase).1, (divLimb r (limb e.w 3) s.nbase).2) =
        divmod32 e.w s.nbase 0#32 :=
  ⟨_, _, (enD128_next s e 0 0#32 q (by decide)).trans <| (enD128_next s e 1 _ _ (by decide)).trans <|
    enD128_next s e 2 _ _ (by decide), by simp [setLimb, divmod32]⟩

/-- The engine after a division of W by N with quotient q and remainder r, the digit recorded. -/
def Engine.divided (e : Engine) (qr : Value × Word) : Engine :=
  { e with fsm := .enD128, k := 3, q := qr.1, r := qr.2 }.recordDigit qr.2

/-- Four steps of EN_D128 divide W and record the remainder; a quotient that fits goes on to EN_D64. -/
theorem enD128_fits (s : State) (e : Engine) (q : Value)
    (fits : quotientFits64 (divmod32 e.w s.nbase 0#32).1 = true) :
    let qr := divmod32 e.w s.nbase 0#32
    EngineSteps s 4 (e.atEnD128 0 0#32 q) { e.divided qr with fsm := .enD64, q64 := low64 qr.1 } := by
  obtain ⟨r, q', limbs, quotient⟩ := enD128_limbs s e q
  rw [← quotient] at fits ⊢
  exact limbs.trans (.one rfl (if_pos fits))

/-- A quotient that does not fit is the next W. -/
theorem enD128_again (s : State) (e : Engine) (q : Value)
    (large : ¬ quotientFits64 (divmod32 e.w s.nbase 0#32).1 = true) :
    let qr := divmod32 e.w s.nbase 0#32
    EngineSteps s 4 (e.atEnD128 0 0#32 q) ({ e.divided qr with w := qr.1 }.atEnD128 0 0#32 qr.1) := by
  obtain ⟨r, q', limbs, quotient⟩ := enD128_limbs s e q
  rw [← quotient] at large ⊢
  exact limbs.trans (.one rfl (if_neg large))

/-- Phase 1 (R183): four steps a digit, until the quotient fits. -/
theorem enD128_all (s : State) (two : 2 ≤ s.nbase.toNat) (fuel : Nat) (e : Engine) (q : Value) (digits : List Word)
    (holds : e.Holds digits) (room : digits.length + (fuel + 1) ≤ 256)
    (enough : e.w.toNat / s.nbase.toNat ^ (fuel + 1) < 2 ^ 64) :
    let phase := encodePhase1 s.nbase (fuel + 1) e.w
    ∃ e' : Engine, EngineSteps s (4 * phase.1.length) (e.atEnD128 0 0#32 q) { e' with fsm := .enD64 } ∧
      e'.q64 = phase.2 ∧ e'.Holds (digits ++ phase.1) ∧ e'.p = e.p := by
  have quotient := (divmod32_zero e.w s.nbase two).1
  have recorded := holds.record (by omega) (divmod32 e.w s.nbase 0#32).2
  rw [encodePhase1]
  by_cases fits : quotientFits64 (divmod32 e.w s.nbase 0#32).1 = true
  · simp only [if_pos fits]
    exact ⟨{ e.divided (divmod32 e.w s.nbase 0#32) with q64 := low64 _ }, enD128_fits s e q fits, rfl,
      recorded.congr rfl rfl, rfl⟩
  · simp only [if_neg fits]
    rw [pow_succ', ← Nat.div_div_eq_div_mul, ← quotient] at enough
    cases fuel with
    | zero =>
      rw [pow_zero, Nat.div_one] at enough
      exact absurd ((quotientFits64_iff _).2 enough) fits
    | succ fuel =>
      obtain ⟨e', rest, q64, holds', pad⟩ := enD128_all s two fuel
        { e.divided (divmod32 e.w s.nbase 0#32) with w := (divmod32 e.w s.nbase 0#32).1 } _ _
        (recorded.congr rfl rfl) (by rw [List.length_append, List.length_singleton]; omega) enough
      rw [List.append_assoc] at holds'
      have steps := (enD128_again s e q fits).trans rest
      exact ⟨e', steps.cast (by simp only [List.length_cons]; omega), q64, holds', pad⟩

/-! ## ENCODE: EN_D64 (R184, R191) -/

/-- EN_D64 at quotient 0 latches the digit count (R184). -/
theorem enD64_ends (s : State) (e : Engine) (zero : e.q64 = 0#64) :
    EngineSteps s 1 { e with fsm := .enD64 } { e with fsm := .enPad, ndig := e.cnt } :=
  .one rfl (if_pos zero)

/-- One native division of EN_D64 (R184). -/
theorem enD64_divides (s : State) (e : Engine) (nonzero : e.q64 ≠ 0#64) :
    let qr := div64Step e.q64 s.nbase
    EngineSteps s 1 { e with fsm := .enD64 } { e.recordDigit qr.2 with fsm := .enD64, q64 := qr.1 } :=
  .one rfl (if_neg nonzero)

/-- Phase 2 (R184): one step a digit, and one to latch the count. -/
theorem enD64_all (s : State) (two : 2 ≤ s.nbase.toNat) (fuel : Nat) (e : Engine) (q : Wide)
    (digits : List Word) (left : e.q64 = q) (holds : e.Holds digits) (room : digits.length + fuel ≤ 256)
    (enough : q.toNat < s.nbase.toNat ^ fuel) :
    let all := digits ++ encodePhase2 s.nbase fuel q
    ∃ e' : Engine, EngineSteps s ((encodePhase2 s.nbase fuel q).length + 1) { e with fsm := .enD64 }
        { e' with fsm := .enPad } ∧ e'.Holds all ∧ e'.ndig = all.length ∧ e'.p = e.p := by
  subst left
  induction fuel generalizing e digits with
  | zero =>
    have zero : e.q64 = 0#64 := BitVec.eq_of_toNat_eq (Nat.lt_one_iff.1 enough)
    rw [encodePhase2, List.append_nil]
    exact ⟨{ e with ndig := e.cnt }, enD64_ends s e zero, holds.congr rfl rfl, holds.count, rfl⟩
  | succ fuel ih =>
    rw [encodePhase2]
    by_cases zero : e.q64 = 0#64
    · rw [if_pos zero, List.append_nil]
      exact ⟨{ e with ndig := e.cnt }, enD64_ends s e zero, holds.congr rfl rfl, holds.count, rfl⟩
    · rw [if_neg zero]
      have nonzero : s.nbase ≠ 0#32 := fun eq => absurd (eq ▸ two) (by decide)
      have recorded := holds.record (by omega) (div64Step e.q64 s.nbase).2
      have smaller : (div64Step e.q64 s.nbase).1.toNat < s.nbase.toNat ^ fuel := by
        rw [(div64Step_spec e.q64 s.nbase nonzero).1, Nat.div_lt_iff_lt_mul (by omega), ← pow_succ]
        exact enough
      obtain ⟨e', rest, holds', ndig, pad⟩ := ih
        { e.recordDigit (div64Step e.q64 s.nbase).2 with q64 := (div64Step e.q64 s.nbase).1 } _
        (recorded.congr rfl rfl) (by rw [List.length_append, List.length_singleton]; omega) smaller
      rw [List.append_assoc] at holds' ndig
      have steps := (enD64_divides s e zero).trans rest
      exact ⟨e', steps.cast (by simp only [List.length_cons]; omega), holds', ndig, pad⟩

/-! ## ENCODE: EN_PAD (R185, R191) -/

theorem enPad_ends (s : State) (e : Engine) (full : ¬ e.cnt < e.p) :
    EngineSteps s 1 { e with fsm := .enPad } { e with fsm := .enOut, len := e.cnt, j := 0 } :=
  .one rfl (if_neg full)

theorem enPad_pads (s : State) (e : Engine) (below : e.cnt < e.p) :
    EngineSteps s 1 { e with fsm := .enPad } { e.recordDigit 0#32 with fsm := .enPad } :=
  .one rfl (if_pos below)

/-- A digit 0 that the pad length asks for changes nothing of the padded digits. -/
theorem padDigits_snoc_zero {digits : List Word} {p : Nat} (below : digits.length < p) :
    padDigits (digits ++ [0#32]) p = padDigits digits p := by
  obtain ⟨missing, rfl⟩ := Nat.exists_eq_add_of_lt below
  have left : digits.length + missing + 1 - digits.length = missing + 1 := by omega
  have left' : digits.length + missing + 1 - (digits ++ [0#32]).length = missing := by
    rw [List.length_append, List.length_singleton]; omega
  rw [padDigits, padDigits, left, left', List.append_assoc, List.replicate_succ]
  rfl

/-- Phase 3 (R185): one step a zero digit, and one to go on to EN_OUT. -/
theorem enPad_all (s : State) (missing : Nat) (e : Engine) (p : Nat) (digits : List Word) (pad : e.p = p)
    (holds : e.Holds digits) (room : p ≤ 256) (left : p - digits.length = missing) :
    let all := padDigits digits p
    ∃ e' : Engine, EngineSteps s (missing + 1) { e with fsm := .enPad } { e' with fsm := .enOut } ∧ e'.Holds all ∧
      e'.len = all.length ∧ e'.j = 0 ∧ e'.ndig = e.ndig := by
  induction missing generalizing e digits with
  | zero =>
    have full : ¬ e.cnt < e.p := by rw [holds.count, pad]; omega
    rw [padDigits, left, List.replicate_zero, List.append_nil]
    exact ⟨{ e with len := e.cnt, j := 0 }, enPad_ends s e full, holds.congr rfl rfl, holds.count, rfl, rfl⟩
  | succ missing ih =>
    have below : e.cnt < e.p := by rw [holds.count, pad]; omega
    obtain ⟨e', rest, holds', len, j, ndig⟩ := ih (e.recordDigit 0#32) (digits ++ [0#32]) pad
      (holds.record (by omega) 0#32) (by rw [List.length_append, List.length_singleton]; omega)
    rw [padDigits_snoc_zero (by omega)] at holds' len
    exact ⟨e', ((enPad_pads s e below).trans rest).cast (by omega), holds', len, j, ndig⟩

/-! ## ENCODE: EN_OUT (R186, R191) -/

theorem enOut_ends (s : State) (e : Engine) (all : ¬ e.j < e.len) :
    EngineSteps s 1 { e with fsm := .enOut } { e with fsm := .completion .noError } :=
  .one rfl (if_neg all)

theorem enOut_maps (s : State) (e : Engine) (more : e.j < e.len) :
    let c := s.symbolAt ((e.dig[e.len - 1 - e.j]?).getD 0#32)
    EngineSteps s 1 { e with fsm := .enOut }
      { e with fsm := .enOut, syms := e.syms.setIfInBounds e.j c, j := e.j + 1 } :=
  .one rfl (if_pos more)

/-- The symbol EN_OUT maps at index j is that of digit L - 1 - j (R186). -/
theorem mapDigits_getElem (s : State) (digits : List Word) (j : Nat) (inside : j < (mapDigits s digits).length)
    (mirror : digits.length - 1 - j < digits.length) :
    (mapDigits s digits)[j] = s.symbolAt digits[digits.length - 1 - j] := by
  simp [mapDigits]

/-- Phase 4 (R186): one step a symbol, and one to the completion. -/
theorem enOut_all (s : State) (digits : List Word) (fit : digits.length ≤ 256) (left : Nat) (e : Engine)
    (holds : e.Holds digits) (len : e.len = digits.length) (below : e.j + left = digits.length)
    (out : (mapDigits s digits).take e.j <+: e.syms.toList) :
    ∃ e' : Engine, EngineSteps s (left + 1) { e with fsm := .enOut } { e' with fsm := .completion .noError } ∧
      e'.len = digits.length ∧ mapDigits s digits <+: e'.syms.toList ∧ e'.ndig = e.ndig := by
  have length := mapDigits_length s digits
  induction left generalizing e with
  | zero =>
    rw [List.take_of_length_le (by omega)] at out
    exact ⟨e, enOut_ends s e (by omega), len, out, rfl⟩
  | succ left ih =>
    have inside : e.j < (mapDigits s digits).length := by omega
    have mirror : digits.length - 1 - e.j < digits.length := by omega
    have symbol : s.symbolAt ((e.dig[e.len - 1 - e.j]?).getD 0#32) = (mapDigits s digits)[e.j] := by
      rw [len, holds.getElem? mirror, Option.getD_some, mapDigits_getElem s digits e.j inside mirror]
    have taken : ((mapDigits s digits).take e.j).length = e.j := List.length_take_of_le inside.le
    have out' := begins_setIfInBounds out (by omega) (mapDigits s digits)[e.j]
    rw [taken, List.take_append_getElem inside] at out'
    obtain ⟨e', rest, len', all, ndig⟩ := ih
      { e with syms := e.syms.setIfInBounds e.j (mapDigits s digits)[e.j], j := e.j + 1 }
      (holds.congr rfl rfl) len (by simp only; omega) out'
    have step := enOut_maps s e (by omega)
    rw [symbol] at step
    exact ⟨e', (step.trans rest).cast (by omega), len', all, ndig⟩

/-! ## ENCODE: EN_INIT and the whole run (R181, R191) -/

theorem engineStart_encode {s : State} {e : Engine} {usePad : Bool}
    (word : Sys2Proof.decode s.cmd = .ok (.encode usePad)) :
    engineStart s.cmd e = { e with fsm := .enInit } := by
  simp only [engineStart, word]

/-- USE_PAD of the running ENCODE is bit 9 of its word (R104). -/
theorem cmdUsePad_of_decode {s : State} {usePad : Bool} (word : Sys2Proof.decode s.cmd = .ok (.encode usePad)) :
    s.cmdUsePad = usePad := by
  rw [State.cmdUsePad, ← encode_of_decode _ _ word]
  cases usePad <;> rfl

theorem enInit_fails {s : State} (e : Engine) (pad : effectivePad s s.cmdUsePad = none) :
    EngineSteps s 1 { e with fsm := .enInit } { e with fsm := .completion .lengthRange } := by
  refine .one rfl ?_
  change engineEnInit s s.cmdUsePad _ = _
  rw [engineEnInit, pad]
  rfl

theorem enInit_passes {s : State} (e : Engine) {p : Nat} (pad : effectivePad s s.cmdUsePad = some p) :
    EngineSteps s 1 { e with fsm := .enInit } ({ e with p := p, w := s.val, cnt := 0 }.atEnD128 0 0#32 e.q) := by
  refine .one rfl ?_
  change engineEnInit s s.cmdUsePad _ = _
  rw [engineEnInit, pad]
  rfl

/-- The reference encoder without an error: 4 + 3 k1 + 2 L steps to the symbols ENCODE commits (R191). -/
theorem encoder_commits {s : State} (e : Engine) (usePad : Bool) (mode : s.cmdUsePad = usePad) (inv : s.AlphabetInv)
    (short : usePad = true → s.padlen.toNat ≤ 256) :
    ∃ e' : Engine, EngineSteps s (4 + 3 * (encodePhase1 s.nbase 128 s.val).1.length + 2 * (s.encoded usePad).length)
        { e with fsm := .enInit } { e' with fsm := .completion .noError } ∧
      e'.syms.toList.take e'.len = s.encoded usePad ∧ e'.ndig = (encodeDigits s.nbase s.val).length := by
  subst mode
  have two := inv.1
  have fit := State.encoded_length_le inv short
  have k1 := encodePhase1_length_le s.nbase 128 s.val
  have digits : encodeDigits s.nbase s.val = (encodePhase1 s.nbase 128 s.val).1 ++
      encodePhase2 s.nbase 128 (encodePhase1 s.nbase 128 s.val).2 := rfl
  have init := enInit_passes e (effectivePad_eq_some short)
  obtain ⟨e₁, phase1, q64, holds₁, p₁⟩ := enD128_all s two 127
    { e with p := s.pad s.cmdUsePad, w := s.val, cnt := 0 } e.q [] ⟨rfl, List.nil_prefix⟩ (by decide)
    (div_pow_lt s.val two (by decide))
  rw [List.nil_append] at holds₁
  obtain ⟨e₂, phase2, holds₂, ndig, p₂⟩ := enD64_all s two 128 e₁ _ _ q64 holds₁
    (Nat.add_le_add_right k1 128) (wide_lt_pow _ two (by decide))
  obtain ⟨e₃, phase3, holds₃, len, j, ndig₃⟩ := enPad_all s _ e₂ _ (encodeDigits s.nbase s.val)
    (p₂.trans p₁) holds₂ (State.pad_le inv short) rfl
  have length : (padDigits (encodeDigits s.nbase s.val) (s.pad s.cmdUsePad)).length = (s.encoded s.cmdUsePad).length :=
    (mapDigits_length s _).symm
  obtain ⟨e₄, phase4, len₄, symbols, ndig₄⟩ := enOut_all s _ (length.trans_le fit) _ e₃ holds₃ len
    (by rw [j]; exact Nat.zero_add _) (by rw [j]; exact List.nil_prefix)
  have run := (((init.trans phase1).trans phase2).trans phase3).trans phase4
  refine ⟨e₄, run.cast ?_, ?_, (ndig₄.trans ndig₃).trans ndig⟩
  · have symbolCount : (s.encoded s.cmdUsePad).length = max (s.pad s.cmdUsePad) (encodeDigits s.nbase s.val).length :=
      mapDigits_padDigits_length s _ _
    have digitCount := congrArg List.length digits
    rw [List.length_append] at digitCount
    rw [length]
    simp only [Nat.reduceAdd]
    omega
  · rw [len₄, length]
    exact (List.prefix_iff_eq_take.1 symbols).symm

end Sys2Proof.Machine

namespace Sys2Proof.Proofs

open Sys2Proof.Machine

/-- Settles O55: each FSM's run (`maLimb_all`, `dmLimb_all`, `d64_all`) leaves in the hidden variables what the
command commits (`EngineSteps.commitsAfter`), or ends in the command's error (`EngineSteps.failsAfter`). -/
theorem referenceLimbEngineAgrees : Obligations.ReferenceLimbEngineAgrees := by
  intro s e
  refine ⟨fun word => ?_, fun word => ?_, fun word => ?_, fun word => ?_, illegal_completesAfter⟩
  · obtain ⟨e', steps, done, out⟩ := maLimb_all s e
    refine steps.commitsAfter word (engineStart_muladd word) done rfl ?_
    rw [engineCommit, State.withEngine, out]
    rfl
  · have start := engineStart_divmod (e := e) word
    by_cases zero : s.opm = 0#32
    · rw [if_pos (.inl zero)]
      have check : divmodCheck s = .divByZero := if_pos zero
      exact (dmCheck_fails check (by decide)).failsAfter word start rfl (by decide) (by decide)
        (exec_divmod_of_zero _ zero)
    by_cases above : s.opm ≤ s.rin
    · rw [if_pos (.inr above)]
      have check : divmodCheck s = .remRange := (if_neg zero).trans (if_pos above)
      exact (dmCheck_fails check (by decide)).failsAfter word start rfl (by decide) (by decide)
        (exec_divmod_of_range _ zero above)
    · rw [if_neg (not_or.2 ⟨zero, above⟩)]
      have check : divmodCheck s = .noError := (if_neg zero).trans (if_neg above)
      obtain ⟨e', limbs, done, quotient⟩ := dmLimb_all s e s.rin e.q
      obtain ⟨q, r⟩ := Prod.mk.inj quotient
      refine ((dmCheck_passes check).trans limbs).commitsAfter word start done
        (exec_divmod_commits _ zero (BitVec.not_le.1 above)) ?_
      rw [engineCommit, State.withEngine, q, r]
      rfl
  · have start := engineStart_div64 (e := e) word
    by_cases zero : s.opm = 0#32
    · rw [if_pos zero]
      exact (d64Check_fails e zero).failsAfter word start rfl (by decide) (by decide) (exec_div64_of_zero _ zero)
    · rw [if_neg zero]
      obtain ⟨e', steps, done, quotient⟩ := d64_all e zero
      obtain ⟨q, r⟩ := Prod.mk.inj quotient
      refine steps.commitsAfter word start done (exec_div64_commits _ zero) ?_
      rw [engineCommit, State.withEngine, q, r]
      rfl
  · exact (EngineSteps.refl _).commitsAfter word (engineStart_movrv word) rfl rfl rfl

/-- Settles O56: the FSM ends at the length check (`deInit_fails`), at the end of the string (`decoder_commits`) or at
its first absent symbol (`decoder_stops`), each as DECODE does. -/
theorem referenceDecoderAgrees : Obligations.ReferenceDecoderAgrees := by
  intro s e strict word
  have start := engineStart_decode (e := e) word
  have mode := cmdStrict_of_decode word
  refine ⟨fun long => ?_, fun short present => ?_, fun short on j c at_j absent before => ?_⟩
  · exact (deInit_fails e long).failsAfter word start rfl (by decide) (by decide) (exec_decode_of_long _ strict long)
  · obtain ⟨e', steps, acc⟩ := decoder_commits e short (mode ▸ present)
    refine steps.commitsAfter word start rfl (exec_decode_commits_horner (s.started e) strict short present) ?_
    rw [engineCommit, State.withEngine, acc]
    rfl
  · subst on
    obtain ⟨e', steps, index⟩ := decoder_stops e short mode ⟨c, at_j, absent, before⟩
    have complete : engineComplete (s.withEngine { e' with fsm := .completion .invalidCharacter }) =
        some (completeInvalidCharacter (s.withEngine e') j) := index ▸ rfl
    have run := exec_decode_of_absent (s.started e) short at_j ((indexOf_eq_none s c).2 absent)
      fun i a hi ha lost => (indexOf_eq_none s a).1 lost (before i a hi ha)
    exact (start ▸ steps).completesAfter complete (runCommand_started word run) rfl

/-- Settles O58: the FSM ends at the length check (`abCheck_fails`), at the count (`abCount_fails`) or after the pad
search (`abPad_all`), each as ABUILD does. -/
theorem referenceAlphabetBuilderAgrees : Obligations.ReferenceAlphabetBuilderAgrees := by
  intro s e word
  have start := engineStart_abuild (e := e) word
  have number := canonical_length s.staged
  refine ⟨fun long => ?_, fun short few => ?_, fun short enough => ?_⟩
  · exact (abCheck_fails e long).failsAfter word start rfl (by decide) (by decide)
      (execAbuild_of_long (s.started e) long)
  · have steps := (abSort_all e short).trans
      (abCount_fails { e with sorted := canonical s.staged } (number.trans_lt few))
    exact (steps.cast (by omega)).failsAfter word start rfl (by decide) (by decide)
      (execAbuild_of_few (s.started e) short few)
  · have steps := (abSort_all e short).trans
      (abPad_all { e with sorted := canonical s.staged } (enough.trans_eq number.symm))
    exact (steps.cast (by omega)).commitsAfter word start rfl (execAbuild_of_enough (s.started e) short enough) rfl

/-- Settles O57: the FSM ends at the pad length check (`enInit_fails`), or runs the two phases, the padding and the
mapping (`enD128_all`, `enD64_all`, `enPad_all`, `enOut_all`) to the symbols ENCODE commits (`encoder_commits`). -/
theorem referenceEncoderAgrees : Obligations.ReferenceEncoderAgrees := by
  intro s e usePad word inv
  have start := engineStart_encode (e := e) word
  have mode := cmdUsePad_of_decode word
  refine ⟨fun on long => ?_, fun short => ?_⟩
  · subst on
    have pad : effectivePad s s.cmdUsePad = none := by rw [mode]; exact if_pos long
    exact (enInit_fails e pad).failsAfter word start rfl (by decide) (by decide)
      (exec_encode_of_long (s.started e) long)
  · obtain ⟨e', steps, symbols, ndig⟩ := encoder_commits e usePad mode inv short
    rw [s.encoded_length usePad inv.1] at steps
    refine steps.commitsAfter word start rfl (exec_encode_commits (s.started e) usePad inv short) ?_
    rw [engineCommit, State.withEngine, symbols, ndig]
    rfl

end Sys2Proof.Proofs
